-- ==== Sys2Proof/Word.lean ====
section
/-! DEFINITION. The word types of the block: bytes, 32-bit port words, host addresses, and the fixed-size byte strings
of 00_scope.md R12. Byte strings of a length that varies are lists of bytes, index 0 first (R18). -/

namespace Sys2Proof

/-- One byte of a byte string (00_scope.md R18). -/
abbrev Byte := BitVec 8

/-- One 32-bit port register or command word (R12 `WORD_BITS`, R110). -/
abbrev Word := BitVec 32

/-- The operand `A0` of a command (30_encoding.md R110, 64-bit form; entry 3) and the base address of the port. -/
abbrev HostAddr := BitVec 64

/-- One cipher block (R12 `BLOCK_BYTES`). -/
abbrev Block := Vector Byte 16

/-- One cipher key (R12 `KEY_BYTES`). -/
abbrev CipherKey := Vector Byte 32

/-- The absent host address (20_memory.md R71). -/
abbrev nullAddr : HostAddr := 0

end Sys2Proof
end

