-- ==== Sys2Proof/Config.lean ====
section
/-! DEFINITION. What an implementation fixes: the sizes of 00_scope.md R12, the port map (30_encoding.md R118), the
parameters an instance is created with (R14, R15, R30), and the free values, which are
constants without a body so that nothing can be proved of their values. -/

namespace Sys2Proof

/-! ## Sizes and ranges fixed by the document (R12) -/

abbrev Config.burstBytes : Nat := 16
abbrev Config.secStrengthBytes : Nat := 32
abbrev Config.seedBytes : Nat := 48
abbrev Config.maxEntropyBytes : Nat := 160
abbrev Config.dfLenMulMin : Nat := 2
abbrev Config.dfLenMulMax : Nat := 9
abbrev Config.seedLifeMin : Nat := 1
abbrev Config.seedLifeMax : Nat := 2 ^ 48
abbrev Config.forbiddenWords : List Word := [0xAAAAAAAA, 0x55555555]
/-- `HEALTH_DFLENMUL` (R15, 43_self_test.md R276). -/
abbrev Config.healthDfLenMul : BitVec 4 := 7

/-! ## The port map (30_encoding.md R118, a parameter: 00_scope.md R15, 93_implementation_defined.md U4) -/

/-- A port register map: "A model may replace the whole map; no rule depends on the numbers, only on the names"
(30_encoding.md R118; decision D6, entry 26). Masks stand for the bit positions and the widths of the fields. -/
structure PortMap where
  /-- The offset of `CTRL`. -/
  ctrlAt : Word
  /-- The offset of `STATUS`. -/
  statusAt : Word
  /-- The offset of `RESET`. -/
  resetAt : Word
  /-- The offset of `OSC_EN`. -/
  oscEnAt : Word
  /-- The offset of `CORE_OUTPUT`. -/
  coreOutputAt : Word
  /-- The offset of `EXT_SEED[0]`; the group is twelve consecutive registers (20_memory.md R87). -/
  extSeedAt : Word
  /-- The offset of `PER_STRNG[0]`; the group is twelve consecutive registers (R87). -/
  perStrngAt : Word
  /-- `CTRL_START`. -/
  ctrlStart : Word
  /-- `CTRL_SEL`. -/
  ctrlSel : Word
  /-- The lowest bit of `CTRL.SEL`. -/
  selShift : Nat
  /-- `STATUS_DONE`. -/
  statusDone : Word
  /-- `STATUS_DTF`. -/
  statusDtf : Word
  /-- `STATUS_CERTF`. -/
  statusCertf : Word
  /-- `STATUS_QCNT`. -/
  statusQcnt : Word
  /-- The lowest bit of `STATUS.QCNT`. -/
  qcntShift : Nat
  /-- `QCNT_READY`. -/
  qcntReady : Word
  /-- `RESET_ASSERT`. -/
  resetAssert : Word
  /-- The mask of `OSC_EN.EN`. -/
  oscEnEn : Word
  deriving DecidableEq, Repr

/-- The bits of `CTRL` that are fields; the others are reserved (10_state.md R31, R32). -/
def PortMap.ctrlDefined (m : PortMap) : Word := m.ctrlStart ||| m.ctrlSel

/-- The bits of `STATUS` that are fields (R31, R33). -/
def PortMap.statusDefined (m : PortMap) : Word := m.statusDone ||| m.statusDtf ||| m.statusCertf ||| m.statusQcnt

/-- `QCNT_READY << 4` in the default map: the value a burst poll waits for (44_port_sequences.md R300). -/
def PortMap.burstReady (m : PortMap) : Word := m.qcntReady <<< m.qcntShift

/-- The default port map (30_encoding.md R118). -/
def Config.defaultMap : PortMap where
  ctrlAt := 0x00
  statusAt := 0x04
  resetAt := 0x08
  oscEnAt := 0x0C
  coreOutputAt := 0x10
  extSeedAt := 0x40
  perStrngAt := 0x80
  ctrlStart := 0x1
  ctrlSel := 0x6
  selShift := 1
  statusDone := 0x1
  statusDtf := 0x2
  statusCertf := 0x4
  statusQcnt := 0x70
  qcntShift := 4
  qcntReady := 4
  resetAssert := 0x1
  oscEnEn := 0x1

/-- What a byte of host memory that nothing has written reads as. The spec leaves host memory unspecified at creation
(10_state.md R41). DESIGN CHOICE (entry 4, unsafe). -/
abbrev Config.unwrittenByte : Byte := 0

/-! ## Free values: constants without a body -/

/-- `BC` (R16): a total function of key and block, otherwise unknown (entry 1). -/
opaque Config.blockCipher : CipherKey → Block → Block

/-- The environment's answer to its `n`-th read (R17), used when the script of the state has ended (entry 2). -/
opaque Config.envDraw : Nat → Word

/-- What `CORE_OUTPUT` holds after the `n`-th hardware reset (10_state.md R36, R41: unspecified; entry 12). -/
opaque Config.coreOutputAfterReset : Nat → Word

/-- The open known-answer parameters (43_self_test.md R272), each in the range the rule gives: `KAT_MUL` - 2. -/
opaque Config.katMulAboveMin : Fin 8
/-- `KAT_LIFE` - 1 (R272: `KAT_LIFE` in 1..2^48). -/
opaque Config.katLifeAboveMin : BitVec 48
/-- `KAT_PR` (R272). -/
opaque Config.katPr : Bool
/-- `KAT_SEED`, of which the first `EntropySize` bytes are the seed (R272, entry 11). -/
opaque Config.katSeed : Vector Byte 160
/-- `KAT_PERS` (R272). -/
opaque Config.katPers : Vector Byte 48
/-- `KAT_EXPECTED` (R272). -/
opaque Config.katExpected : Vector Byte 32

/-- The parameters of one instance: fixed when it is created, written by no operation (10_state.md R30, 00_scope.md
R14, R15, R173, R272, R276). They stand in the state so that a statement about every state holds for every choice of
them (entry 11). -/
structure Params where
  /-- `BASE` (R30). The spec gives it no width: 64 bits, like `A0`, is a DESIGN CHOICE (entry 37). -/
  base : HostAddr
  /-- The port register map (R118). -/
  map : PortMap
  /-- `T_BURST_US` (R14). -/
  tBurstUs : Nat
  /-- `T_RESEED_US` (R14). -/
  tReseedUs : Nat
  /-- `POLL_SLEEP_US` (R14), 1 or more (entry 13). -/
  pollSleepUs : Nat
  /-- `T_RESET_US` (R14). -/
  tResetUs : Nat
  /-- `DRNG_SEEDLIFE_INCLUSIVE` (R173, conflict C1, entry 22). -/
  drngSeedLifeInclusive : Bool
  /-- `HEALTH_SEED_LIFE` (R276). -/
  healthSeedLife : BitVec 64
  /-- `KAT_MUL` (R272). -/
  katMul : BitVec 4
  /-- `KAT_LIFE` (R272). -/
  katLife : BitVec 64
  /-- `KAT_PR` (R272). -/
  katPr : Bool
  /-- `KAT_SEED` (R272): the first `EntropySize` bytes are the seed. -/
  katSeed : Vector Byte 160
  /-- `KAT_PERS` (R272). -/
  katPers : Vector Byte 48
  /-- `KAT_EXPECTED` (R272). -/
  katExpected : Vector Byte 32
  deriving DecidableEq, Repr

/-- The parameters of the instance at `State.reset`: the spec's defaults where it gives one (R14, R15,
30_encoding.md R118), free values in
their ranges for the open known-answer vector (R272), and `BASE` 0 (DESIGN CHOICE, entry 11). -/
def Config.defaultParams : Params where
  base := 0
  map := Config.defaultMap
  tBurstUs := 8000
  tReseedUs := 15000
  pollSleepUs := 10
  tResetUs := 10
  drngSeedLifeInclusive := false
  healthSeedLife := 1
  katMul := BitVec.ofNat 4 (2 + Config.katMulAboveMin.val)
  katLife := Config.katLifeAboveMin.setWidth 64 + 1
  katPr := Config.katPr
  katSeed := Config.katSeed
  katPers := Config.katPers
  katExpected := Config.katExpected

end Sys2Proof
end

