-- ==== Sys2Proof/Syntax.lean ====
section
/-! DEFINITION. The operations of the block (00_scope.md R3), one constructor per row of spec/opcode_table.json, with
their operands. The six commands carry the fields of their command word and `A0`; the internal operations carry the
operands their rules name; nothing here says what an operation does. -/

namespace Sys2Proof

/-- A command as the host presents it: a command word and an operand (30_encoding.md R110). -/
structure Command where
  cw : Word
  a0 : HostAddr
  deriving DecidableEq, Repr

/-- The DF length tag (30_encoding.md R119): 48 = seed, 32 = random output. -/
inductive DfTag where
  | seed
  | random
  deriving DecidableEq, Repr

/-- The three selections `HwProgram` takes (44_port_sequences.md R293). -/
inductive HwSel where
  | entropy
  | reseedExt
  | prngGen
  deriving DecidableEq, Repr

/-- The two register groups `WriteGroup` takes (44_port_sequences.md R296). -/
inductive RegGroup where
  | extSeed
  | perStrng
  deriving DecidableEq, Repr

/-- The destination of `CollectBurst` (41_entropy_collector.md R200): host memory at an address, or a transient buffer of
the block. Null is the host address `NULL` = 0: "the address value `NULL` = 0 denotes \"absent\" and is never
dereferenced" (20_memory.md R71). -/
inductive Dst where
  | host (addr : HostAddr)
  | scratch
  deriving DecidableEq, Repr

/-- The null destination (41_entropy_collector.md R205; 20_memory.md R71). -/
abbrev Dst.null : Dst := .host nullAddr

/-- The destination is null (R205). -/
def Dst.isNull : Dst → Bool
  | .host a => a == nullAddr
  | .scratch => false

/-- The operations of spec/opcode_table.json. -/
inductive Instr where
  /-- `INSTANTIATE`, format I (30_encoding.md R112). -/
  | instantiate (mode : BitVec 2) (pr dfdis : Bool) (mul : BitVec 4) (seedp persp : Bool) (a0 : HostAddr)
  /-- `RESEED`, format R (R113). -/
  | reseed (mul : BitVec 4) (seedp : Bool) (a0 : HostAddr)
  /-- `GENERATE`, format G (R113). -/
  | generate (pr : Bool) (size : BitVec 24) (a0 : HostAddr)
  /-- `UNINSTANTIATE`, format U (R113); `A0` is ignored. -/
  | uninstantiate
  /-- `RUNKAT`, format U (R113). -/
  | runKat
  /-- `RUNHEALTHTEST`, format U (R113). -/
  | runHealthTest
  /-- `ReseedCore(seed, m)` (40_core_operations.md R165). -/
  | reseedCore (seed : Option (List Byte)) (m : BitVec 4)
  /-- `CollectBurst(dst, n)` (41_entropy_collector.md R200). -/
  | collectBurst (dst : Dst) (n : Nat)
  /-- `CheckSeedPattern(buf, n)` (R212). -/
  | checkSeedPattern (buf : List Byte) (n : Nat)
  /-- `DF(ent, pers, tag)` (42_derivation_function.md R240). -/
  | df (ent : List Byte) (pers : Option (Vector Byte 48)) (tag : DfTag)
  /-- `DF_Pack(ent, pers, tag)` (R232). -/
  | dfPack (ent : List Byte) (pers : Option (Vector Byte 48)) (tag : DfTag)
  /-- `DF_BCC(S, i)` (R234). -/
  | dfBcc (packed : List Byte) (i : Fin 3)
  /-- `DF_Out(T)` (R236). -/
  | dfOut (t : Vector Byte 48)
  /-- `CbcMac(K, chain0, M)` (R231). -/
  | cbcMac (key : CipherKey) (chain0 : Option Block) (msg : List Byte)
  /-- `HwReset()` (44_port_sequences.md R291). -/
  | hwReset
  /-- `HwHoldReset()` (R292). -/
  | hwHoldReset
  /-- `HwProgram(sel)` (R293). -/
  | hwProgram (sel : HwSel)
  /-- `WriteGroup(G, b)` (R296). -/
  | writeGroup (g : RegGroup) (b : Vector Byte 48)
  /-- `ZeroizeSeedRegs()` (R297). -/
  | zeroizeSeedRegs
  /-- `PollField(off, mask, expect, timeout_us)` (R299). The rule gives the budget no width: a natural number, as in the
  block's own polls (DESIGN CHOICE, entry 38). -/
  | pollField (off mask expect : Word) (timeoutUs : Nat)
  /-- The pseudo-operation `REINSTANTIATE <config>` (30_encoding.md R125). -/
  | reinstantiate (mode : BitVec 2) (pr dfdis : Bool) (mul : BitVec 4) (seedp persp : Bool) (a0 : HostAddr)
  /-- A reserved command word (R122): opcode 0x0 or 0x7 to 0xF, or a must-be-zero bit set. -/
  | reserved (cw : Word) (a0 : HostAddr)
  deriving DecidableEq, Repr

end Sys2Proof
end

