-- ==== Sys2Proof/WellFormed.lean ====
section
/-! DEFINITION. Which operations are well-formed: a command that is not malformed (30_encoding.md R122), an internal
operation whose operands lie in the domain its rule gives. Field values that decode but are illegal (`MODE` = 3, a
multiplier out of range, a small `SIZE`) are well-formed: the operation's own validation judges them (R122). -/

namespace Sys2Proof

/-- The entropy lengths the DF has a meaning for (42_derivation_function.md R230, R242): 48, 64, ..., 160. -/
def validEntropyLength (n : Nat) : Bool :=
  n % 16 == 0 && decide (48 ≤ n) && decide (n ≤ 160)

/-- The lengths of a packed DF Input Block (30_encoding.md R116): `E + 80`. -/
def validPackedLength (n : Nat) : Bool :=
  decide (80 ≤ n) && validEntropyLength (n - 80)

/-- `match` and `mask` of the six command rows of spec/opcode_table.json. -/
def commandRows : List (Word × Word) :=
  [(0x00000001, 0xFFFFC00F), (0x00000002, 0xFFFFE0FF), (0x00000003, 0x000000EF), (0x00000004, 0xFFFFFFFF),
   (0x00000005, 0xFFFFFFFF), (0x00000006, 0xFFFFFFFF)]

/-- No row of the table matches the word: its opcode is reserved or a must-be-zero bit is set (30_encoding.md R122). -/
def isReservedWord (cw : Word) : Bool :=
  commandRows.all fun row => cw &&& row.2 != row.1

/-- "Port offsets are multiples of 4" (20_memory.md R76). Which of them are registers is the port map's to say, a parameter
of the instance (30_encoding.md R118). -/
def isAlignedOffset (off : Word) : Bool := off.toNat % 4 == 0

/-- Well-formed operations. -/
def Instr.wellFormed : Instr → Bool
  | .instantiate _ _ _ _ _ _ a0 => a0 != nullAddr
  | .reseed _ seedp a0 => !(seedp && a0 == nullAddr)
  | .generate _ _ a0 => a0 != nullAddr
  | .uninstantiate => true
  | .runKat => true
  | .runHealthTest => true
  | .reseedCore seed m =>
      (m.toNat == 0 || (decide (2 ≤ m.toNat) && decide (m.toNat ≤ 9))) &&
        (match seed with
         | none => true
         | some b => b.length == if m.toNat = 0 then 48 else (m.toNat + 1) * 16)
  | .collectBurst _ _ => true
  | .checkSeedPattern buf n => n % 4 == 0 && decide (n ≤ buf.length)
  | .df ent _ _ => validEntropyLength ent.length
  | .dfPack ent _ _ => validEntropyLength ent.length
  | .dfBcc packed _ => validPackedLength packed.length
  | .dfOut _ => true
  | .cbcMac _ _ msg => msg.length % 16 == 0
  | .hwReset => true
  | .hwHoldReset => true
  | .hwProgram _ => true
  | .writeGroup _ _ => true
  | .zeroizeSeedRegs => true
  | .pollField off _ _ _ => isAlignedOffset off
  | .reinstantiate _ _ _ _ _ _ a0 => a0 != nullAddr
  | .reserved cw _ => isReservedWord cw

end Sys2Proof
end

