-- ==== Sys2Proof/Decode.lean ====
section
/-! DEFINITION. The decoder of command words (30_encoding.md R121), total on every word, and the encoder written from
the same field tables (R112, R113). A word that R122 reserves decodes to `.reserved`, with `wordReject` naming why.
The `A0` rule of R122 is checked at the head of a command's meaning, before everything else (entry 5). -/

namespace Sys2Proof

/-- The bits of a command word that its opcode's format requires to be zero (30_encoding.md R112, R113); for a reserved
opcode there is no format and the answer is `none` (R122). -/
def mustBeZero (cw : Word) : Option Word :=
  match (cw.extractLsb' 0 4).toNat with
  | 1 => some 0xFFFFC000
  | 2 => some 0xFFFFE0F0
  | 3 => some 0x000000E0
  | 4 => some 0xFFFFFFF0
  | 5 => some 0xFFFFFFF0
  | 6 => some 0xFFFFFFF0
  | _ => none

/-- Why a command word is refused at decode (30_encoding.md R122). -/
inductive WordReject where
  /-- `OPC` is 0x0 or 0x7 to 0xF. -/
  | reservedOpcode
  /-- A must-be-zero bit of the format is 1. -/
  | mustBeZeroBit
  deriving DecidableEq, Repr

/-- The reason a command word is reserved, if it is (R122). The third cause of R122, a `NULL` operand where the format
requires an address, concerns `A0` and is `Instr.lacksOperand`. -/
def wordReject (cw : Word) : Option WordReject :=
  match mustBeZero cw with
  | none => some .reservedOpcode
  | some z => if cw &&& z = 0 then none else some .mustBeZeroBit

/-- The command's format requires an address and `A0` is `NULL` (R112, R113, R122). -/
def Instr.lacksOperand : Instr → Bool
  | .instantiate _ _ _ _ _ _ a0 => a0 == nullAddr
  | .reseed _ seedp a0 => seedp && a0 == nullAddr
  | .generate _ _ a0 => a0 == nullAddr
  | .reinstantiate _ _ _ _ _ _ a0 => a0 == nullAddr
  | .uninstantiate | .runKat | .runHealthTest | .reseedCore .. | .collectBurst .. | .checkSeedPattern ..
  | .df .. | .dfPack .. | .dfBcc .. | .dfOut .. | .cbcMac .. | .hwReset | .hwHoldReset | .hwProgram ..
  | .writeGroup .. | .zeroizeSeedRegs | .pollField .. | .reserved .. => false

/-- Decoding a command (R121): `OPC` selects the operation and nothing else does; the format's must-be-zero bits are
checked; then the fields are extracted. -/
def decode (c : Command) : Instr :=
  match wordReject c.cw with
  | some _ => .reserved c.cw c.a0
  | none =>
    match (c.cw.extractLsb' 0 4).toNat with
    | 1 => .instantiate (c.cw.extractLsb' 4 2) (c.cw.getLsbD 6) (c.cw.getLsbD 7) (c.cw.extractLsb' 8 4)
             (c.cw.getLsbD 12) (c.cw.getLsbD 13) c.a0
    | 2 => .reseed (c.cw.extractLsb' 8 4) (c.cw.getLsbD 12) c.a0
    | 3 => .generate (c.cw.getLsbD 4) (c.cw.extractLsb' 8 24) c.a0
    | 4 => .uninstantiate
    | 5 => .runKat
    | 6 => .runHealthTest
    | _ => .reserved c.cw c.a0

/-- The command word of format I (R112). -/
def encodeInstantiate (mode : BitVec 2) (pr dfdis : Bool) (mul : BitVec 4) (seedp persp : Bool) : Word :=
  (0 : BitVec 18) ++ BitVec.ofBool persp ++ BitVec.ofBool seedp ++ mul ++ BitVec.ofBool dfdis ++ BitVec.ofBool pr ++
    mode ++ (0x1 : BitVec 4)

/-- The command word of format R (R113). -/
def encodeReseed (mul : BitVec 4) (seedp : Bool) : Word :=
  (0 : BitVec 19) ++ BitVec.ofBool seedp ++ mul ++ (0 : BitVec 4) ++ (0x2 : BitVec 4)

/-- The command word of format G (R113). -/
def encodeGenerate (pr : Bool) (size : BitVec 24) : Word :=
  size ++ (0 : BitVec 3) ++ BitVec.ofBool pr ++ (0x3 : BitVec 4)

/-- The command of an operation, for the operations that have a command word (R110 to R113); `none` for the internal
operations (00_scope.md R3) and for the pseudo-operation (R125). `A0` of a format U command is ignored and written
as 0. -/
def encode : Instr → Option Command
  | .instantiate mode pr dfdis mul seedp persp a0 => some ⟨encodeInstantiate mode pr dfdis mul seedp persp, a0⟩
  | .reseed mul seedp a0 => some ⟨encodeReseed mul seedp, a0⟩
  | .generate pr size a0 => some ⟨encodeGenerate pr size, a0⟩
  | .uninstantiate => some ⟨0x4, nullAddr⟩
  | .runKat => some ⟨0x5, nullAddr⟩
  | .runHealthTest => some ⟨0x6, nullAddr⟩
  | .reserved cw a0 => some ⟨cw, a0⟩
  | .reseedCore .. | .collectBurst .. | .checkSeedPattern .. | .df .. | .dfPack .. | .dfBcc .. | .dfOut ..
  | .cbcMac .. | .hwReset | .hwHoldReset | .hwProgram .. | .writeGroup .. | .zeroizeSeedRegs | .pollField ..
  | .reinstantiate .. => none

/-- A command given as one number: bits 31..0 are the command word, bits 95..32 are `A0`; bits from `nbits` on are
0. -/
def commandOfBits (nbits w : Nat) : Command :=
  ⟨BitVec.ofNat 32 (w % 2 ^ nbits), BitVec.ofNat 64 (w % 2 ^ nbits / 2 ^ 32)⟩

/-- The instruction the decoder reads from `nbits` bits numbered as spec/opcode_table.json numbers them; a command has
at most 96 bits (R110). -/
def decodeTableWord (nbits w : Nat) : Option Instr :=
  if nbits ≤ 96 then some (decode (commandOfBits nbits w)) else none

end Sys2Proof
end

