-- ==== Sys2Proof/Machine/State.lean ====
section
/-! DEFINITION. The state of the machine (10_state.md): the instance, the port registers, `RESULT`, host memory, the
host's command list, and the model's own bookkeeping of the environment's draws and of the accesses made. Plain data
throughout. -/

namespace Sys2Proof.Machine

/-- `I.State` (10_state.md R21). -/
inductive RunState where
  | uninitialized
  | healthy
  | error
  | catastrophic
  deriving DecidableEq, Repr

/-- `I.Mode` (R22): the three modes; value 3 names no mode and can never be stored. -/
inductive Mode where
  | hrng
  | drng
  | ptrng
  deriving DecidableEq, Repr

/-- The fourteen status codes (30_encoding.md R120, 60_exceptions.md R320). -/
inductive Status where
  | success
  | errInvalidParam
  | errInvalidState
  | errUnnecessaryParam
  | errNoSeed
  | errSameSeed
  | errReseedRequired
  | errReseedTimeout
  | errGenerateTimeout
  | errCertfHw
  | errCertfSw
  | errCatastrophicDtf
  | errCatastrophicSw
  | errKatMismatch
  deriving DecidableEq, Repr

/-- The port registers (10_state.md R31 to R38). -/
inductive PortReg where
  | ctrl
  | status
  | reset
  | oscEn
  | coreOutput
  | extSeed (k : Fin 12)
  | perStrng (k : Fin 12)
  deriving DecidableEq, Repr

/-- One access of the port or of host memory, or one sleep, as the command made it (20_memory.md R89, R83;
44_port_sequences.md R290). -/
inductive Event where
  /-- `Read32` at an absolute address, and the value it returned. -/
  | rd (addr : HostAddr) (value : Word)
  /-- `Write32` at an absolute address. -/
  | wr (addr : HostAddr) (value : Word)
  /-- `Sleep(us)`. -/
  | sleep (us : Nat)
  /-- `MemRead(addr, n)` of host memory (R84), and the `n` bytes it returned. -/
  | memRd (addr : Nat) (bytes : List Byte)
  /-- `MemWrite(addr, n, v)` of host memory (R84). -/
  | memWr (addr : Nat) (bytes : List Byte)
  deriving DecidableEq, Repr

/-- What an internal operation run on its own returned (the MODEL's own, entry 6). A command returns nothing here: its
status is in `RESULT`. -/
inductive Ret where
  | none
  /-- The bytes of `DF`, `DF_Pack`, `DF_BCC`, `DF_Out`, `CbcMac`. -/
  | bytes (b : List Byte)
  /-- `ReseedCore`: `ok` (none) or `fail E`. -/
  | outcome (fail : Option Status)
  /-- `CollectBurst`: `ok` or `fail E`, and the bytes stored in the destination. -/
  | collected (fail : Option Status) (b : List Byte)
  /-- `CheckSeedPattern`: `good` is true. -/
  | verdict (good : Bool)
  /-- `PollField`: `ready` is true, `timeout` is false. -/
  | poll (ready : Bool)
  deriving DecidableEq, Repr

/-- The instance `I` (10_state.md R20 to R27). -/
structure Instance where
  state : RunState
  mode : Mode
  seedLife : BitVec 49
  predResEn : Bool
  dfDisabled : Bool
  dfLenMul : BitVec 4
  persStrPresent : Bool
  persStr : Vector Byte 48
  initSeedPresent : Bool
  initSeed : Vector Byte 160
  entropySize : BitVec 8
  randBytesTotal : BitVec 64
  randBytesSinceReseed : BitVec 64
  generateCallsSinceReseed : BitVec 64
  win : Vector Word 4
  deriving DecidableEq, Repr

/-- The zero instance (R26, R41). -/
def Instance.zero : Instance where
  state := .uninitialized
  mode := .hrng
  seedLife := 0
  predResEn := false
  dfDisabled := false
  dfLenMul := 0
  persStrPresent := false
  persStr := Vector.replicate 48 0
  initSeedPresent := false
  initSeed := Vector.replicate 160 0
  entropySize := 0
  randBytesTotal := 0
  randBytesSinceReseed := 0
  generateCallsSinceReseed := 0
  win := Vector.replicate 4 0

/-- The port registers `P` (R31 to R38). `status` is the value the environment last showed and `coreOutput` the word it
last delivered; every read of either is a fresh draw (R33, R36). -/
structure Port where
  ctrl : Word
  status : Word
  reset : Word
  oscEn : Word
  coreOutput : Word
  extSeed : Vector Word 12
  perStrng : Vector Word 12
  deriving DecidableEq, Repr

/-- The port registers with `RESET` and `CORE_OUTPUT` as given and every other register at its reset value (R41). -/
def Port.zeroed (reset coreOutput : Word) : Port where
  ctrl := 0
  status := 0
  reset := reset
  oscEn := 0
  coreOutput := coreOutput
  extSeed := Vector.replicate 12 0
  perStrng := Vector.replicate 12 0

/-- Host memory (20_memory.md R71): address and byte, addresses strictly rising, no entry equal to what an unlisted
address reads as (entry 4). -/
abbrev Memory := List Host.Cell

/-- The canonical form of host memory. -/
def Memory.wf : Memory → Bool
  | [] => true
  | [(_, v)] => v != Config.unwrittenByte
  | (a, v) :: (b, w) :: rest => v != Config.unwrittenByte && decide (a < b) && Memory.wf ((b, w) :: rest)

/-- The whole state. -/
structure State where
  inst : Instance
  port : Port
  /-- `RESULT` (R29). -/
  result : BitVec 8
  /-- The instance's fixed parameters, `BASE` and the port map among them (R30, R14, R15, R118). -/
  params : Params
  mem : Memory
  /-- The host's command list (R24, R110). -/
  commands : List Command
  /-- The index of the next command, the counter of R24. -/
  cmdIndex : Nat
  /-- The environment's answers already fixed, next first (R17, R40; the MODEL's own, entry 2). -/
  script : List Word
  /-- How many answers the environment has given (the MODEL's own, entry 2). -/
  drawCount : Nat
  /-- How many hardware resets have been asserted (the MODEL's own, entry 12). -/
  resetCount : Nat
  /-- The accesses and sleeps of the last command, newest first (R89; the MODEL's own, entry 15). -/
  log : List Event
  /-- What an internal operation run on its own returned (the MODEL's own, entry 6). -/
  ret : Ret
  deriving DecidableEq, Repr

/-- The machine at creation (10_state.md R41, 70_reset_and_hazards.md R381): the zero instance, every listed port
register zero, `RESULT` = 0, no command presented. `CORE_OUTPUT` = 0 and the model's own fields are DESIGN CHOICE
(entries 12, 36). -/
def State.reset : State where
  inst := Instance.zero
  port := Port.zeroed 0 0
  result := 0
  params := Config.defaultParams
  mem := []
  commands := []
  cmdIndex := 0
  script := []
  drawCount := 0
  resetCount := 0
  log := []
  ret := .none

/-- Why the machine would stop with a fault: never. "the block never traps to a handler; every failure is a status code"
(00_scope.md R11), no bus error exists (20_memory.md R84), so the type has no constructor (entry 31). -/
inductive Fault where
  deriving DecidableEq, Repr

/-- Why a step has no meaning. -/
inductive Refusal where
  /-- Raised by `exec` for an instruction without a meaning yet; no arm raises it now. Safe. -/
  | notModelled (mnemonic : String)
  /-- Raised by `step` when the host has presented no command at the command index: "the first thing that happens is the
  host's first command" (70_reset_and_hazards.md R383). Safe. -/
  | noCommand
  /-- Raised by `DF` and `DF_Pack` run on their own with an entropy length outside 48..160 step 16: "a model gives `DF`
  no meaning outside that set" (42_derivation_function.md R242, U19). Safe. -/
  | dfEntropyLength
  /-- Raised by `DF_BCC` run on its own when its operand is not as long as a packed DF Input Block (30_encoding.md R116).
  Safe. -/
  | packedLength
  /-- Raised by `CbcMac` run on its own when its message is not a whole number of cipher blocks (R231). Safe. -/
  | messageLength
  /-- Raised by `CheckSeedPattern` run on its own when `n` is no multiple of 4 or exceeds the buffer (R212). Safe. -/
  | patternLength
  /-- Raised by `ReseedCore` run on its own with a multiplier that is not validated, or in DRNG mode without a seed of
  `EntropySize` bytes (40_core_operations.md R165). Safe. -/
  | reseedOperand
  /-- Raised by `PollField` run on its own at an offset that is no register of the instance's map: "a model's port refuses any
  access whose offset is not a multiple of 4 or is not a register" (20_memory.md R76). Safe. -/
  | portOffset
  deriving DecidableEq, Repr

end Sys2Proof.Machine
end

