-- ==== Sys2Proof/Machine/Flags.lean ====
section
/-! DEFINITION. Numeric values of the enumerations and the flags of the machine (10_state.md R39): the fields of
`STATUS`, the codes of `RESULT`, the gates on `I.State`. There are no condition codes (R39). -/

namespace Sys2Proof.Machine

/-- The numeric value of `I.State` (30_encoding.md R119). -/
def runStateBits : RunState → BitVec 2
  | .uninitialized => 0
  | .healthy => 1
  | .error => 2
  | .catastrophic => 3

/-- The numeric value of `I.Mode` (R119). -/
def modeBits : Mode → BitVec 2
  | .hrng => 0
  | .drng => 1
  | .ptrng => 2

/-- The mode a `MODE` field names; 3 names none (R112, R119). -/
def modeOfBits (b : BitVec 2) : Option Mode :=
  if b = 0 then some .hrng else if b = 1 then some .drng else if b = 2 then some .ptrng else none

/-- The status code in `RESULT` (30_encoding.md R120). -/
def statusCode : Status → BitVec 8
  | .success => 0x00
  | .errInvalidParam => 0x01
  | .errInvalidState => 0x02
  | .errUnnecessaryParam => 0x03
  | .errNoSeed => 0x04
  | .errSameSeed => 0x05
  | .errReseedRequired => 0x06
  | .errReseedTimeout => 0x07
  | .errGenerateTimeout => 0x08
  | .errCertfHw => 0x09
  | .errCertfSw => 0x0A
  | .errCatastrophicDtf => 0x0B
  | .errCatastrophicSw => 0x0C
  | .errKatMismatch => 0x0D

/-- The two catastrophic codes (60_exceptions.md R330). -/
def isCatastrophic : Status → Bool
  | .errCatastrophicDtf | .errCatastrophicSw => true
  | .success | .errInvalidParam | .errInvalidState | .errUnnecessaryParam | .errNoSeed | .errSameSeed
  | .errReseedRequired | .errReseedTimeout | .errGenerateTimeout | .errCertfHw | .errCertfSw
  | .errKatMismatch => false

/-- `STATUS.DTF` of a value read (30_encoding.md R118). -/
def dtfFlag (m : PortMap) (status : Word) : Bool := status &&& m.statusDtf != 0

/-- `STATUS.CERTF` of a value read (R118). -/
def certfFlag (m : PortMap) (status : Word) : Bool := status &&& m.statusCertf != 0

/-- `RESET.ASSERT`: the hardware is held in reset (10_state.md R37). -/
def State.held (s : State) : Bool := s.port.reset &&& s.params.map.resetAssert != 0

end Sys2Proof.Machine
end

