-- ==== Sys2Proof/Machine/Operands.lean ====
section
/-! DEFINITION. Every operand form: byte strings and words (00_scope.md R18, 20_memory.md R73, R74), reads and writes of
host memory (R84), the operand record (30_encoding.md R114, R115), `EntropySize` (R115), the port map (R118). -/

namespace Sys2Proof.Machine

/-! ## Byte strings and words -/

/-- `BE32(w)` (00_scope.md R18): most significant byte first. -/
def be32 (w : Word) : List Byte :=
  [w.extractLsb' 24 8, w.extractLsb' 16 8, w.extractLsb' 8 8, w.extractLsb' 0 8]

/-- `BE32(n)` of a number below 2^32 (R18). -/
def be32Nat (n : Nat) : List Byte := be32 (BitVec.ofNat 32 n)

/-- `be32(b[at .. at + 3])` (R18): the word whose big-endian bytes stand at `at`. -/
def wordOfBytes (b : List Byte) (at_ : Nat) : Word :=
  b.getD at_ 0 ++ b.getD (at_ + 1) 0 ++ b.getD (at_ + 2) 0 ++ b.getD (at_ + 3) 0

/-- A byte string as exactly `n` bytes; its callers pass `n` bytes or more. -/
def toBytes (n : Nat) (b : List Byte) : Vector Byte n := Vector.ofFn fun i => b.getD i.val 0

/-- The first bytes of `v` replaced by `b`, the rest kept (40_core_operations.md R152 step 5). -/
def overlay {n : Nat} (b : List Byte) (v : Vector Byte n) : Vector Byte n :=
  Vector.ofFn fun i => if i.val < b.length then b.getD i.val 0 else v[i]

/-! ## Host memory (20_memory.md R71, R84) -/

/-- One byte of host memory; an unlisted address reads as `Config.unwrittenByte` (entry 4). -/
def memRead : Memory → Nat → Byte
  | [], _ => Config.unwrittenByte
  | (b, v) :: rest, a => if b = a then v else memRead rest a

/-- Store one byte, keeping the canonical form. -/
def memWrite : Memory → Nat → Byte → Memory
  | [], a, v => if v = Config.unwrittenByte then [] else [(a, v)]
  | (b, w) :: rest, a, v =>
    if a < b then (if v = Config.unwrittenByte then (b, w) :: rest else (a, v) :: (b, w) :: rest)
    else if a = b then (if v = Config.unwrittenByte then rest else (a, v) :: rest)
    else (b, w) :: memWrite rest a v

/-- `MemRead(addr, n)` (R84). -/
def memReadBytes (m : Memory) (a n : Nat) : List Byte := (List.range n).map fun k => memRead m (a + k)

/-- `MemWrite(addr, n, v)` (R84): in increasing address order (R85). -/
def memWriteBytes : Memory → Nat → List Byte → Memory
  | m, _, [] => m
  | m, a, v :: rest => memWriteBytes (memWrite m a v) (a + 1) rest

/-! ## Sizes and the operand record -/

/-- `EntropySize(DFDIS, MUL)` (30_encoding.md R115, 00_scope.md R13). -/
def entropySizeFor (dfdis : Bool) (mul : BitVec 4) : Nat := if dfdis then 48 else (mul.toNat + 1) * 16

/-- The multiplier ranges (R153 V6a, V6b; R160 step 4): 2..9 with the DF enabled, exactly 0 when disabled. -/
def mulLegal (dfdis : Bool) (mul : BitVec 4) : Bool :=
  if dfdis then mul == 0 else decide (Config.dfLenMulMin ≤ mul.toNat) && decide (mul.toNat ≤ Config.dfLenMulMax)

/-- `SEEDLIFE` of the operand record: 64 bits, little-endian (R114, R115). -/
def recordSeedLife (m : Memory) (a0 : HostAddr) : BitVec 64 :=
  BitVec.ofNat 64 ((List.range 8).foldr (fun k acc => (memRead m (a0.toNat + k)).toNat + 256 * acc) 0)

/-- `SEED[0 .. es - 1]` of the operand record (R114, R115). -/
def recordSeed (m : Memory) (a0 : HostAddr) (es : Nat) : List Byte := memReadBytes m (a0.toNat + 8) es

/-- `PERS[0 .. 47]` of the operand record (R114, R115). -/
def recordPers (m : Memory) (a0 : HostAddr) : Vector Byte 48 := toBytes 48 (memReadBytes m (a0.toNat + 168) 48)

/-- The reads of `SEEDLIFE`, byte by byte (R115). -/
def lifeReads (m : Memory) (a0 : HostAddr) : List Event :=
  (List.range 8).map fun k => .memRd (a0.toNat + k) (memReadBytes m (a0.toNat + k) 1)

/-- The read of a seed of `es` bytes (R115). -/
def seedRead (m : Memory) (a0 : HostAddr) (es : Nat) : Event := .memRd (a0.toNat + 8) (recordSeed m a0 es)

/-- The read of the personalization string (R115). -/
def persRead (m : Memory) (a0 : HostAddr) : Event := .memRd (a0.toNat + 168) (memReadBytes m (a0.toNat + 168) 48)

/-- The reads of the seed and the string that `SEEDP` and `PERSP` announce (40_core_operations.md R152 step 5). -/
def storeReads (m : Memory) (dfdis : Bool) (mul : BitVec 4) (seedp persp : Bool) (a0 : HostAddr) : List Event :=
  (if seedp then [seedRead m a0 (entropySizeFor dfdis mul)] else []) ++ if persp then [persRead m a0] else []

/-- The operands of `INSTANTIATE` once assembled (40_core_operations.md R152): the fields of the command word, the seed
life, and the seed and personalization string that `SEEDP` and `PERSP` announce; and the reads of host memory that
assemble them, which an operand of the block's own does not make. -/
structure InstConfig where
  mode : BitVec 2
  life : BitVec 64
  pr : Bool
  dfdis : Bool
  mul : BitVec 4
  /-- Present iff `SEEDP` = 1; `EntropySize(DFDIS, MUL)` bytes. -/
  seed : Option (List Byte)
  /-- Present iff `PERSP` = 1. -/
  pers : Option (Vector Byte 48)
  /-- The reads of step 3. -/
  readsLife : List Event
  /-- The reads of step 5. -/
  readsStored : List Event
  deriving DecidableEq, Repr

/-- Operand assembly of format I (30_encoding.md R112, R114, R115). -/
def instConfigOfRecord (m : Memory) (mode : BitVec 2) (pr dfdis : Bool) (mul : BitVec 4) (seedp persp : Bool)
    (a0 : HostAddr) : InstConfig where
  mode := mode
  life := recordSeedLife m a0
  pr := pr
  dfdis := dfdis
  mul := mul
  seed := if seedp then some (recordSeed m a0 (entropySizeFor dfdis mul)) else none
  pers := if persp then some (recordPers m a0) else none
  readsLife := lifeReads m a0
  readsStored := storeReads m dfdis mul seedp persp a0

/-! ## The port map (30_encoding.md R118) -/

/-- The offset of a port register; a group's twelve registers are consecutive (20_memory.md R87). -/
def portOffset (m : PortMap) : PortReg → Nat
  | .ctrl => m.ctrlAt.toNat
  | .status => m.statusAt.toNat
  | .reset => m.resetAt.toNat
  | .oscEn => m.oscEnAt.toNat
  | .coreOutput => m.coreOutputAt.toNat
  | .extSeed k => m.extSeedAt.toNat + 4 * k.val
  | .perStrng k => m.perStrngAt.toNat + 4 * k.val

/-- Every port register. -/
def portRegs : List PortReg :=
  [.ctrl, .status, .reset, .oscEn, .coreOutput] ++ (List.finRange 12).map .extSeed ++ (List.finRange 12).map .perStrng

/-- The register at an offset, if the offset is a multiple of 4 and a register of the map (20_memory.md R76). -/
def portRegAt (m : PortMap) (off : Word) : Option PortReg :=
  if off.toNat % 4 = 0 then portRegs.find? fun r => portOffset m r == off.toNat else none

/-- `BASE + offset` (20_memory.md R70). The spec gives neither the width of `BASE` nor what a sum past the top does: a sum
of 64 bits that wraps is a DESIGN CHOICE (entry 37). -/
def portAddr (p : Params) (r : PortReg) : HostAddr := p.base + BitVec.ofNat 64 (portOffset p.map r)

/-- The `SEL` value of a selection (10_state.md R32). -/
def selBits : HwSel → Word
  | .entropy => 1
  | .reseedExt => 2
  | .prngGen => 3

/-- `CTRL` with a selection and the start bit 0 (44_port_sequences.md R293). -/
def selected (m : PortMap) (sel : HwSel) : Word := selBits sel <<< m.selShift

/-- The DF length tag as a number (30_encoding.md R119). -/
def tagValue : DfTag → Nat
  | .seed => 48
  | .random => 32

/-- Register `k` of a group (44_port_sequences.md R296). -/
def groupReg : RegGroup → Fin 12 → PortReg
  | .extSeed, k => .extSeed k
  | .perStrng, k => .perStrng k

end Sys2Proof.Machine
end

