-- ==== Sys2Proof/Machine/Ops.lean ====
section
/-! DEFINITION. The named operations every meaning is built from: the environment's draws (00_scope.md R17), the port
primitives (20_memory.md R80 to R83), the poll (44_port_sequences.md R299), failing and succeeding (60_exceptions.md
R330, the block's counterpart of taking an exception) and the way back to the zero instance (R333, R180), and the
bookkeeping of a command. -/

namespace Sys2Proof.Machine

/-! ## Bookkeeping of a command -/

/-- A command starts: its log is empty and it has returned nothing (20_memory.md R89 "the accesses of one command";
entries 6, 15). -/
def State.beginCommand (s : State) : State := { s with log := [], ret := .none }

/-- One more event of the log. -/
def State.logEvent (e : Event) (s : State) : State := { s with log := e :: s.log }

/-- Events of the log, in order. -/
def State.logEvents (es : List Event) (s : State) : State := { s with log := es.reverse ++ s.log }

/-- The accesses and sleeps of the last command, in the order they were made (20_memory.md R89). -/
def State.trace (s : State) : List Event := s.log.reverse

/-- The event is a port access or a sleep, what the traces of 44_port_sequences.md R301 list. -/
def Event.onPort : Event → Bool
  | .rd _ _ | .wr _ _ | .sleep _ => true
  | .memRd _ _ | .memWr _ _ => false

/-- The port trace of the last command (R301). -/
def State.portTrace (s : State) : List Event := s.trace.filter Event.onPort

/-- What an internal operation run on its own returns (entry 6). -/
def State.returning (r : Ret) (s : State) : State := { s with ret := r }

/-- The command at the command index (10_state.md R24). -/
def State.fetch (s : State) : Option Command := s.commands[s.cmdIndex]?

/-- Every command advances the command index by exactly 1 (R24). -/
def State.advance (s : State) : State := { s with cmdIndex := s.cmdIndex + 1 }

/-- The host presents `c` at the command index (R24, R110); missing entries before it are filled with a reserved
word. -/
def State.present (s : State) (c : Command) : State :=
  { s with
    commands := s.commands.take s.cmdIndex ++ List.replicate (s.cmdIndex - s.commands.length) ⟨0, nullAddr⟩ ++
      c :: s.commands.drop (s.cmdIndex + 1) }

/-! ## Failing and succeeding -/

/-- The value of `I.State` after `raise E` (60_exceptions.md R330). -/
def raisedState (e : Status) (old : RunState) : RunState :=
  if isCatastrophic e then .catastrophic else if e = .errInvalidState then old else .error

/-- `raise E` (R330): the transition of `I.State`, `RESULT <- E`, the end of the command with status `E`. Nothing else is
recorded or rolled back (R332, R340). -/
def State.raise (e : Status) (s : State) : Status × State :=
  (e, { s with inst := { s.inst with state := raisedState e s.inst.state }, result := statusCode e })

/-- `return SUCCESS` (00_scope.md R18). -/
def State.succeed (s : State) : Status × State := (.success, { s with result := statusCode .success })

/-- A malformed command (30_encoding.md R122): `RESULT <- ERR_INVALID_PARAM` and nothing else of the block changes. -/
def State.refuseMalformed (s : State) : State := { s with result := statusCode .errInvalidParam }

/-- Writing `I.State` alone (40_core_operations.md R152 step 8, 41_entropy_collector.md R209, 43_self_test.md R273). -/
def State.setRunState (r : RunState) (s : State) : State := { s with inst := { s.inst with state := r } }

/-- The way back (60_exceptions.md R333; 40_core_operations.md R180 steps 4 and 5): every register of the instance to
zero. -/
def State.zeroInstance (s : State) : State := { s with inst := Instance.zero }

/-! ## Draws -/

/-- One answer of the environment (00_scope.md R17): the next word of the script, or a free value (entry 2). -/
def State.draw (s : State) : Word × State :=
  match s.script with
  | w :: rest => (w, { s with script := rest, drawCount := s.drawCount + 1 })
  | [] => (Config.envDraw s.drawCount, { s with drawCount := s.drawCount + 1 })

/-! ## The port primitives -/

/-- What a register the block can read back holds (20_memory.md R80): the value last written or the reset value. -/
def Port.stored (p : Port) : PortReg → Word
  | .ctrl => p.ctrl
  | .status => p.status
  | .reset => p.reset
  | .oscEn => p.oscEn
  | .coreOutput => p.coreOutput
  | .extSeed k => p.extSeed[k]
  | .perStrng k => p.perStrng[k]

/-- Storing in a register that is not held in reset: reserved bits are written as zero (10_state.md R31, entry 17), the
read-only registers ignore writes (R33, R36). `RESET` is `write32`'s own case. -/
def Port.store (m : PortMap) (p : Port) (r : PortReg) (v : Word) : Port :=
  match r with
  | .ctrl => { p with ctrl := v &&& m.ctrlDefined }
  | .oscEn => { p with oscEn := v &&& m.oscEnEn }
  | .extSeed k => { p with extSeed := p.extSeed.set k v }
  | .perStrng k => { p with perStrng := p.perStrng.set k v }
  | .status | .coreOutput | .reset => p

/-- The value a `Read32` returns, and the state after it (R80, R79): a draw for `CORE_OUTPUT` and, unless the hardware
is held in reset, for `STATUS`; every register but `RESET` and `CORE_OUTPUT` reads 0 while held (10_state.md R37,
entry 18). -/
def readPort (r : PortReg) (s : State) : Word × State :=
  match r with
  | .coreOutput => (s.draw.1, { s.draw.2 with port := { s.port with coreOutput := s.draw.1 } })
  | .status =>
    if s.held then (0, s)
    else
      (s.draw.1 &&& s.params.map.statusDefined,
        { s.draw.2 with port := { s.port with status := s.draw.1 &&& s.params.map.statusDefined } })
  | .reset => (s.port.reset, s)
  | .ctrl | .oscEn | .extSeed _ | .perStrng _ => (if s.held then 0 else s.port.stored r, s)

/-- `Read32(off)` (R80). -/
def read32 (r : PortReg) (s : State) : Word × State :=
  ((readPort r s).1, (readPort r s).2.logEvent (.rd (portAddr s.params r) (readPort r s).1))

/-- The effect of a write on the port registers (R81, R79; 10_state.md R37): asserting `RESET.ASSERT` returns every other
register to its reset value; while it is asserted the others ignore writes. -/
def writePort (r : PortReg) (v : Word) (s : State) : State :=
  if r = .reset then
    if v &&& s.params.map.resetAssert != 0 then
      { s with
        port := Port.zeroed s.params.map.resetAssert (Config.coreOutputAfterReset s.resetCount)
        resetCount := s.resetCount + 1 }
    else { s with port := { s.port with reset := 0 } }
  else if s.held then s
  else { s with port := s.port.store s.params.map r v }

/-- `Write32(off, v)` (R81). -/
def write32 (r : PortReg) (v : Word) (s : State) : State :=
  (writePort r v s).logEvent (.wr (portAddr s.params r) v)

/-- `RMW32(off, mask, v)` (R82). -/
def rmw32 (r : PortReg) (mask v : Word) (s : State) : State :=
  write32 r (((read32 r s).1 &&& ~~~mask) ||| (v &&& mask)) (read32 r s).2

/-- `Sleep(us)` (R83): an event in the log and no other effect. -/
def sleepUs (us : Nat) (s : State) : State := s.logEvent (.sleep us)

/-! ## The poll (44_port_sequences.md R299) -/

/-- How many sleeps a poll makes before it times out: `ceil(timeout_us / POLL_SLEEP_US)` (R299). -/
def pollSleeps (timeoutUs sleep : Nat) : Nat := (timeoutUs + sleep - 1) / sleep

/-- The loop of `PollField` with `n` sleeps left: one `Read32` a round; `ready` (true) when the masked value is as
expected, `timeout` (false) when the budget has ended. -/
def pollLoop (r : PortReg) (mask expect : Word) (sleep : Nat) : Nat → State → Bool × State
  | 0, s => ((read32 r s).1 &&& mask == expect, (read32 r s).2)
  | n + 1, s =>
    if (read32 r s).1 &&& mask == expect then (true, (read32 r s).2)
    else pollLoop r mask expect sleep n (sleepUs sleep (read32 r s).2)

/-- `PollField(off, mask, expect, timeout_us)` (R299). -/
def pollField (r : PortReg) (mask expect : Word) (timeoutUs : Nat) (s : State) : Bool × State :=
  pollLoop r mask expect s.params.pollSleepUs (pollSleeps timeoutUs s.params.pollSleepUs) s

/-! ## Destinations of collected and generated bytes -/

/-- `MemWrite(addr, n, v)` (20_memory.md R84): the bytes are stored, and the access recorded (R89). -/
def State.memWriteAt (a : Nat) (b : List Byte) (s : State) : State :=
  { s with mem := memWriteBytes s.mem a b, log := .memWr a b :: s.log }

/-- Store bytes at an offset of a destination (R85): host memory is written, the transient buffers are values of the
operation, null is never dereferenced (R71) and discards (41_entropy_collector.md R205). -/
def putBytes (dst : Dst) (off : Nat) (b : List Byte) (s : State) : State :=
  match dst with
  | .host a => if a = nullAddr then s else s.memWriteAt (a.toNat + off) b
  | .scratch => s

/-- What a destination keeps of the bytes given to it: nothing if it is null (R205). -/
def keptBytes (dst : Dst) (b : List Byte) : List Byte := if dst.isNull then [] else b

end Sys2Proof.Machine
end

