-- ==== Sys2Proof/Machine/Port.lean ====
section
/-! DEFINITION. The port sequences (44_port_sequences.md) and the meanings of `HwReset`, `HwHoldReset`, `HwProgram`,
`WriteGroup`, `ZeroizeSeedRegs` and `PollField` run on their own. -/

namespace Sys2Proof.Machine

/-- `HwReset()` (R291): assert, settle, release. -/
def hwReset (s : State) : State :=
  write32 .reset 0 (sleepUs s.params.tResetUs (write32 .reset s.params.map.resetAssert s))

/-- `HwHoldReset()` (R292): assert and nothing more. -/
def hwHoldReset (s : State) : State := write32 .reset s.params.map.resetAssert s

/-- `HwProgram(sel)` (R293): a whole-register write of `CTRL`, `START` cleared. -/
def hwProgram (sel : HwSel) (s : State) : State := write32 .ctrl (selected s.params.map sel) s

/-- Assert the start bit (R294). -/
def assertStart (s : State) : State := rmw32 .ctrl s.params.map.ctrlStart s.params.map.ctrlStart s

/-- De-assert the start bit (R294). -/
def deassertStart (s : State) : State := rmw32 .ctrl s.params.map.ctrlStart 0 s

/-- `WriteGroup(G, b)` (R296): for k = 0 .. 11, `G[11 - k] <- be32(b[4k .. 4k + 3])`. -/
def writeGroup (g : RegGroup) (b : Vector Byte 48) (s : State) : State :=
  (List.finRange 12).foldl (fun s k => write32 (groupReg g k.rev) (wordOfBytes b.toList (4 * k.val)) s) s

/-- `ZeroizeSeedRegs()` (R297): one zero write for each of the 24 registers, `EXT_SEED` first (conflict C6,
entry 24). -/
def zeroizeSeedRegs (s : State) : State :=
  (List.finRange 12).foldl (fun s k => write32 (.perStrng k) 0 s)
    ((List.finRange 12).foldl (fun s k => write32 (.extSeed k) 0 s) s)

/-! ## The operations run on their own (entry 6) -/

/-- `HwReset` (R291). -/
def execHwReset (s : State) : Host.Outcome State Fault Refusal := .next (hwReset s.beginCommand)

/-- `HwHoldReset` (R292). -/
def execHwHoldReset (s : State) : Host.Outcome State Fault Refusal := .next (hwHoldReset s.beginCommand)

/-- `HwProgram` (R293). -/
def execHwProgram (sel : HwSel) (s : State) : Host.Outcome State Fault Refusal := .next (hwProgram sel s.beginCommand)

/-- `WriteGroup` (R296). -/
def execWriteGroup (g : RegGroup) (b : Vector Byte 48) (s : State) : Host.Outcome State Fault Refusal :=
  .next (writeGroup g b s.beginCommand)

/-- `ZeroizeSeedRegs` (R297). -/
def execZeroizeSeedRegs (s : State) : Host.Outcome State Fault Refusal := .next (zeroizeSeedRegs s.beginCommand)

/-- `PollField` (R299); an offset that is no register of the map is refused (20_memory.md R76). Every caller of the block
passes `STATUS`; run on its own at another register of the map it polls that register, `CORE_OUTPUT` and `OSC_EN`
included, by the same pseudocode (DESIGN CHOICE, entry 38). -/
def execPollField (off mask expect : Word) (timeoutUs : Nat) (s : State) : Host.Outcome State Fault Refusal :=
  match portRegAt s.params.map off with
  | none => .refused .portOffset
  | some r =>
    let p := pollField r mask expect timeoutUs s.beginCommand
    .next (p.2.returning (.poll p.1))

end Sys2Proof.Machine
end

