-- ==== Sys2Proof/Machine/Collector.lean ====
section
/-! DEFINITION. The Entropy Collector (41_entropy_collector.md): `CollectBurst` with its two catastrophic detectors, and
`CheckSeedPattern`. -/

namespace Sys2Proof.Machine

/-- How a collection ends: `ok` (no failure) or `fail E`, the bytes its destination got, the state. -/
structure Collected where
  fail : Option Status
  bytes : List Byte
  state : State

/-- The reads of one burst so far: the comparator flag `match` (R206), the bytes stored, the state. -/
structure BurstRead where
  same : Bool
  bytes : List Byte
  state : State

/-- Word `k` of burst `b` (R200 step 2c): read it, compare it with `I.Win[k]`, put it into the window, store it. -/
def readBurstWord (dst : Dst) (b : Nat) (k : Fin 4) (r : BurstRead) : BurstRead :=
  let w := (read32 .coreOutput r.state).1
  let s := (read32 .coreOutput r.state).2
  { same := r.same && w == s.inst.win[k]
    bytes := r.bytes ++ keptBytes dst (be32 w)
    state := putBytes dst (16 * b + 4 * k.val) (be32 w) { s with inst := { s.inst with win := s.inst.win.set k w } } }

/-- The four reads of burst `b` (R205). -/
def readBurst (dst : Dst) (b : Nat) (s : State) : BurstRead :=
  readBurstWord dst b 3 (readBurstWord dst b 2 (readBurstWord dst b 1 (readBurstWord dst b 0 ⟨true, [], s⟩)))

/-- The burst-ready poll (R203, 44_port_sequences.md R300). -/
def pollBurst (s : State) : Bool × State :=
  pollField .status s.params.map.statusQcnt s.params.map.burstReady s.params.tBurstUs s

/-- The DTF check (R204): a fresh read of `STATUS` in HRNG and DRNG modes, none in PTRNG mode. -/
def checkDtf (s : State) : Bool × State :=
  match s.inst.mode with
  | .hrng | .drng => (dtfFlag s.params.map (read32 .status s).1, (read32 .status s).2)
  | .ptrng => (false, s)

/-- Burst `b` and the bursts after it, `n` in all, with the bytes of the bursts before it (R200 step 2). -/
def collectLoop (dst : Dst) : (n b : Nat) → List Byte → State → Collected
  | 0, _, acc, s => ⟨none, acc, s⟩
  | n + 1, b, acc, s =>
    let p := pollBurst s
    if p.1 then
      let d := checkDtf p.2
      if d.1 then ⟨some .errCatastrophicDtf, acc, d.2.setRunState .catastrophic⟩
      else
        let r := readBurst dst b d.2
        if 0 < b && r.same then ⟨some .errCatastrophicSw, acc ++ r.bytes, r.state.setRunState .catastrophic⟩
        else collectLoop dst n (b + 1) (acc ++ r.bytes) r.state
    else ⟨some .errGenerateTimeout, acc, p.2⟩

/-- `CollectBurst(dst, n)` (R200). -/
def collectBurst (dst : Dst) (n : Nat) (s : State) : Collected :=
  if n = 0 || n % 16 != 0 then ⟨some .errInvalidParam, [], s⟩
  else collectLoop dst (n / 16) 0 [] (assertStart s)

/-- `CheckSeedPattern(buf, n)` (R212): `good` is true, `bad` is false. -/
def checkSeedPattern (buf : List Byte) (n : Nat) : Bool :=
  (List.range (n / 4)).all fun j => !Config.forbiddenWords.contains (wordOfBytes buf (4 * j))

/-! ## The operations run on their own (entry 6) -/

/-- `CollectBurst` (R200). -/
def execCollectBurst (dst : Dst) (n : Nat) (s : State) : Host.Outcome State Fault Refusal :=
  let r := collectBurst dst n s.beginCommand
  .next (r.state.returning (.collected r.fail r.bytes))

/-- `CheckSeedPattern` (R212); its domain is an `n` that is a multiple of 4 within the buffer (entry 7). -/
def execCheckSeedPattern (buf : List Byte) (n : Nat) (s : State) : Host.Outcome State Fault Refusal :=
  if n % 4 = 0 ∧ n ≤ buf.length then .next (s.beginCommand.returning (.verdict (checkSeedPattern buf n)))
  else .refused .patternLength

end Sys2Proof.Machine
end

