-- ==== Sys2Proof/Machine/Derivation.lean ====
section
/-! DEFINITION. The Derivation Function (42_derivation_function.md): pure functions of byte strings over a block cipher
`bc`, and the meanings of `CbcMac`, `DF_Pack`, `DF_BCC`, `DF_Out` and `DF` run on their own with the block's cipher
`Config.blockCipher`. -/

namespace Sys2Proof.Machine

/-- Exclusive-or of two blocks (00_scope.md R18). -/
def xorBlock (a b : Block) : Block := Vector.ofFn fun i => a[i] ^^^ b[i]

/-- Sixteen zero bytes. -/
def zeroBlock : Block := Vector.replicate 16 0

/-- `M[16j .. 16j + 15]` (R231). -/
def blockOf (msg : List Byte) (j : Nat) : Block := Vector.ofFn fun i => msg.getD (16 * j + i.val) 0

/-- `CbcMac(K, chain0, M)` (R231): a null chaining value is sixteen zero bytes; only the final block is kept. -/
def cbcMac (bc : CipherKey → Block → Block) (key : CipherKey) (chain0 : Option Block) (msg : List Byte) : Block :=
  (List.range (msg.length / 16)).foldl (fun c j => bc key (xorBlock c (blockOf msg j))) (chain0.getD zeroBlock)

/-- `DF_KEY0` (00_scope.md R12): bytes 00 01 ... 1F. -/
def dfKey0 : CipherKey := Vector.ofFn fun i => BitVec.ofNat 8 i.val

/-- `DF_Pack(ent, pers, tag)` (R232, layout 30_encoding.md R116). -/
def dfPack (ent : List Byte) (pers : Option (Vector Byte 48)) (tag : DfTag) : List Byte :=
  List.replicate 16 0 ++ be32Nat (ent.length + 48) ++ be32Nat (tagValue tag) ++ ent ++
    (pers.getD (Vector.replicate 48 0)).toList ++ 0x80 :: List.replicate 7 0

/-- `DF_BCC(S, i)` (R234). -/
def dfBcc (bc : CipherKey → Block → Block) (packed : List Byte) (i : Nat) : Block :=
  cbcMac bc dfKey0 none (be32Nat i ++ packed.drop 4)

/-- The 48-byte intermediate result `T` (R235). -/
def dfPass1 (bc : CipherKey → Block → Block) (packed : List Byte) : Vector Byte 48 :=
  (dfBcc bc packed 0 ++ dfBcc bc packed 1 ++ dfBcc bc packed 2 : Vector Byte (16 + 16 + 16))

/-- `DF_Out(T)` (R236): the key is `T[0..31]`, the first block encrypted is `T[32..47]`, each output block encrypts the
one before. -/
def dfOut (bc : CipherKey → Block → Block) (t : Vector Byte 48) : Vector Byte 48 :=
  let k1 : CipherKey := toBytes 32 t.toList
  let x : Block := toBytes 16 (t.toList.drop 32)
  (bc k1 x ++ bc k1 (bc k1 x) ++ bc k1 (bc k1 (bc k1 x)) : Vector Byte (16 + 16 + 16))

/-- `DF(ent, pers, tag)` (R240). -/
def df (bc : CipherKey → Block → Block) (ent : List Byte) (pers : Option (Vector Byte 48)) (tag : DfTag) :
    Vector Byte 48 :=
  dfOut bc (dfPass1 bc (dfPack ent pers tag))

/-! ## The operations run on their own (entry 6) -/

/-- `CbcMac` (R231); a message that is not a whole number of blocks is outside its domain (entry 7). -/
def execCbcMac (key : CipherKey) (chain0 : Option Block) (msg : List Byte) (s : State) :
    Host.Outcome State Fault Refusal :=
  if msg.length % 16 = 0 then
    .next (s.beginCommand.returning (.bytes (cbcMac Config.blockCipher key chain0 msg).toList))
  else .refused .messageLength

/-- `DF_Pack` (R232); its entropy length as R230 requires. -/
def execDfPack (ent : List Byte) (pers : Option (Vector Byte 48)) (tag : DfTag) (s : State) :
    Host.Outcome State Fault Refusal :=
  if validEntropyLength ent.length then .next (s.beginCommand.returning (.bytes (dfPack ent pers tag)))
  else .refused .dfEntropyLength

/-- `DF_BCC` (R234) of a packed DF Input Block (30_encoding.md R116). -/
def execDfBcc (packed : List Byte) (i : Fin 3) (s : State) : Host.Outcome State Fault Refusal :=
  if validPackedLength packed.length then
    .next (s.beginCommand.returning (.bytes (dfBcc Config.blockCipher packed i.val).toList))
  else .refused .packedLength

/-- `DF_Out` (R236). -/
def execDfOut (t : Vector Byte 48) (s : State) : Host.Outcome State Fault Refusal :=
  .next (s.beginCommand.returning (.bytes (dfOut Config.blockCipher t).toList))

/-- `DF` (R240); outside the entropy lengths of R242 it has no meaning. -/
def execDf (ent : List Byte) (pers : Option (Vector Byte 48)) (tag : DfTag) (s : State) :
    Host.Outcome State Fault Refusal :=
  if validEntropyLength ent.length then
    .next (s.beginCommand.returning (.bytes (df Config.blockCipher ent pers tag).toList))
  else .refused .dfEntropyLength

end Sys2Proof.Machine
end

