-- ==== Sys2Proof/Machine/CoreOps.lean ====
section
/-! DEFINITION. The core operations (40_core_operations.md): `INSTANTIATE`, `RESEED`, `ReseedCore`, `GENERATE`,
`UNINSTANTIATE`, the pseudo-operation `REINSTANTIATE` (30_encoding.md R125) and the reserved command words (R122). -/

namespace Sys2Proof.Machine

/-! ## ReseedCore (R165) -/

/-- Steps 0 and 1: the eager reset of the two since-reseed counters (R166), then the multiplier and `EntropySize`. -/
def beginReseed (m : BitVec 4) (s : State) : State :=
  { s with
    inst :=
      { s.inst with
        randBytesSinceReseed := 0
        generateCallsSinceReseed := 0
        dfLenMul := m
        entropySize := BitVec.ofNat 8 (entropySizeFor s.inst.dfDisabled m) } }

/-- Step 2, seed material (R167): DRNG takes the seed; otherwise `EntropySize` bytes are collected with ENTROPY selected
and checked for the forbidden patterns. -/
def seedMaterial (seed : Option (List Byte)) (s : State) : Collected :=
  match s.inst.mode with
  | .drng => ⟨none, seed.getD [], s⟩
  | .hrng | .ptrng =>
    let r := collectBurst .scratch s.inst.entropySize.toNat (hwProgram .entropy s)
    match r.fail with
    | some e => ⟨some e, r.bytes, r.state⟩
    | none =>
      if checkSeedPattern r.bytes s.inst.entropySize.toNat then ⟨none, r.bytes, r.state⟩
      else ⟨some .errCertfSw, r.bytes, r.state⟩

/-- The personalization string, if one was supplied (10_state.md R23). -/
def suppliedPers (i : Instance) : Option (Vector Byte 48) := if i.persStrPresent then some i.persStr else none

/-- Step 3, seed delivery (R168). -/
def deliverSeed (mat : List Byte) (s : State) : State :=
  if s.inst.dfDisabled then
    let s1 := writeGroup .extSeed (toBytes 48 mat) s
    if s.inst.persStrPresent then writeGroup .perStrng s.inst.persStr s1 else s1
  else writeGroup .extSeed (df Config.blockCipher mat (suppliedPers s.inst) .seed) s

/-- The reseed-done poll (R169, 44_port_sequences.md R300). -/
def pollDone (s : State) : Bool × State :=
  pollField .status s.params.map.statusDone s.params.map.statusDone s.params.tReseedUs s

/-- Steps 4 to 6, the hardware reseed (R169): on a timeout or CERTF the start bit stays set. -/
def hardwareReseed (s : State) : Option Status × State :=
  let p := pollDone (assertStart (hwProgram .reseedExt s))
  if p.1 then
    let v := read32 .status p.2
    if certfFlag s.params.map v.1 then (some .errCertfHw, v.2) else (none, deassertStart v.2)
  else (some .errReseedTimeout, p.2)

/-- `ReseedCore(seed, m)` (R165): `ok` (none) or `fail E`. -/
def reseedCore (seed : Option (List Byte)) (m : BitVec 4) (s : State) : Option Status × State :=
  let r := seedMaterial seed (beginReseed m s)
  match r.fail with
  | some e => (some e, r.state)
  | none => hardwareReseed (deliverSeed r.bytes r.state)

/-- The rest of an operation after an inner one: `raise E` if it failed (00_scope.md R18), else go on. -/
def orRaise (r : Option Status × State) (go : State → Status × State) : Status × State :=
  match r.1 with
  | some e => r.2.raise e
  | none => go r.2

/-! ## INSTANTIATE (R152) -/

/-- Validation (R153): the checks V1 to V6b in order; the first that fails decides the code. -/
def validate (c : InstConfig) : Option Status :=
  match modeOfBits c.mode with
  | none => some .errInvalidParam
  | some mode =>
    if mode = .ptrng ∧ (c.life ≠ 0 ∨ c.seed.isSome ∨ c.pers.isSome ∨ c.pr) then some .errUnnecessaryParam
    else if mode = .drng ∧ c.seed.isNone then some .errNoSeed
    else if mode = .hrng ∧ c.seed.isSome then some .errUnnecessaryParam
    else if mode ≠ .ptrng ∧ (c.life.toNat < Config.seedLifeMin ∨ Config.seedLifeMax < c.life.toNat) then
      some .errInvalidParam
    else if !mulLegal c.dfdis c.mul then some .errInvalidParam
    else none

/-- Step 2: the statistics are cleared (R155). -/
def clearStatistics (s : State) : State :=
  { s with
    inst := { s.inst with randBytesTotal := 0, randBytesSinceReseed := 0, generateCallsSinceReseed := 0 } }

/-- Step 5: the configuration is stored; without a seed or string the registers keep what they hold (zero from the zero
instance). -/
def storeConfig (c : InstConfig) (s : State) : State :=
  { s with
    inst :=
      { s.inst with
        mode := (modeOfBits c.mode).getD .hrng
        seedLife := c.life.setWidth 49
        predResEn := c.pr
        dfDisabled := c.dfdis
        dfLenMul := c.mul
        entropySize := BitVec.ofNat 8 (entropySizeFor c.dfdis c.mul)
        initSeedPresent := c.seed.isSome || s.inst.initSeedPresent
        initSeed := overlay (c.seed.getD []) s.inst.initSeed
        persStrPresent := c.pers.isSome || s.inst.persStrPresent
        persStr := c.pers.getD s.inst.persStr } }

/-- Step 7's seed: the stored initial seed, if one is present. -/
def storedSeed (i : Instance) : Option (List Byte) :=
  if i.initSeedPresent then some (i.initSeed.toList.take i.entropySize.toNat) else none

/-- Steps 7 and 8: the internal reseed, not in PTRNG mode (R157), then HEALTHY. -/
def finishInstantiate (s : State) : Status × State :=
  match s.inst.mode with
  | .ptrng => (s.setRunState .healthy).succeed
  | .hrng | .drng =>
    orRaise (reseedCore (storedSeed s.inst) s.inst.dfLenMul s) fun t => (t.setRunState .healthy).succeed

/-- `INSTANTIATE` on assembled operands (R152). -/
def opInstantiate (c : InstConfig) (s : State) : Status × State :=
  if s.inst.state ≠ .uninitialized then s.raise .errInvalidState
  else
    let t := (clearStatistics s).logEvents c.readsLife
    match validate c with
    | some e => t.raise e
    | none => finishInstantiate (hwReset (storeConfig c (t.logEvents c.readsStored)))

/-! ## RESEED (R160) -/

/-- Steps 2 to 4: the seed contract and the multiplier (R162, R164). -/
def reseedReject (seedp : Bool) (mul : BitVec 4) (i : Instance) : Option Status :=
  if i.mode = .drng ∧ seedp = false then some .errNoSeed
  else if i.mode = .hrng ∧ seedp = true then some .errUnnecessaryParam
  else if !mulLegal i.dfDisabled mul then some .errInvalidParam
  else none

/-- Steps 5 and 6 in DRNG mode: the seed is read, compared with the initial seed (replay check, R163), and used. -/
def reseedWithSeed (mul : BitVec 4) (a0 : HostAddr) (s : State) : Status × State :=
  let es := entropySizeFor s.inst.dfDisabled mul
  let seed := recordSeed s.mem a0 es
  let t := s.logEvent (seedRead s.mem a0 es)
  if seed = s.inst.initSeed.toList.take es then t.raise .errSameSeed
  else orRaise (reseedCore (some seed) mul t) State.succeed

/-- `RESEED` (R160). -/
def opReseed (mul : BitVec 4) (seedp : Bool) (a0 : HostAddr) (s : State) : Status × State :=
  if s.inst.state ≠ .healthy ∨ s.inst.mode = .ptrng then s.raise .errInvalidState
  else
    match reseedReject seedp mul s.inst with
    | some e => s.raise e
    | none =>
      match s.inst.mode with
      | .drng => reseedWithSeed mul a0 s
      | .hrng | .ptrng => orRaise (reseedCore none mul s) State.succeed

/-! ## GENERATE (R170) -/

/-- How `GENERATE` ends: its status, the bytes its destination got, the state. -/
structure Generated where
  status : Status
  bytes : List Byte
  state : State

/-- Steps 2 to 4, the preconditions (R171). -/
def generateReject (size : Nat) (pr : Bool) (i : Instance) : Option Status :=
  if size < Config.secStrengthBytes then some .errInvalidParam
  else if pr = true ∧ i.mode = .ptrng then some .errUnnecessaryParam
  else if pr = true ∧ i.predResEn = false then some .errInvalidParam
  else none

/-- The DRNG seed life is spent (R173): strictly more calls than `SeedLife`, or as many with the inclusive parameter
(conflict C1, entry 22). -/
def drngLifeSpent (p : Params) (i : Instance) : Bool :=
  if p.drngSeedLifeInclusive then decide (i.seedLife.toNat ≤ i.generateCallsSinceReseed.toNat)
  else decide (i.seedLife.toNat < i.generateCallsSinceReseed.toNat)

/-- HRNG reseeds itself first (R172): the seed life has elapsed, or prediction resistance is due. -/
def selfHealDue (pr : Bool) (i : Instance) : Bool :=
  decide (i.seedLife.toNat ≤ i.generateCallsSinceReseed.toNat) ||
    (pr && decide (1 ≤ i.generateCallsSinceReseed.toNat))

/-- Step 5, the seed policy of the mode (R172, R173). -/
def generatePolicy (pr : Bool) (s : State) : Option Status × State :=
  match s.inst.mode with
  | .hrng => if selfHealDue pr s.inst then reseedCore none s.inst.dfLenMul s else (none, s)
  | .drng =>
    if drngLifeSpent s.params s.inst then (some .errReseedRequired, s)
    else if pr && decide (1 ≤ s.inst.generateCallsSinceReseed.toNat) then (some .errReseedRequired, s)
    else (none, s)
  | .ptrng => (none, s)

/-- Step 6, the output (R174, R175). -/
def generateOutput (dst : Dst) (s : State) : Collected :=
  match s.inst.mode with
  | .ptrng =>
    if s.inst.dfDisabled then collectBurst dst 32 (hwProgram .entropy s)
    else
      let r := collectBurst .scratch s.inst.entropySize.toNat (hwProgram .entropy s)
      match r.fail with
      | some e => ⟨some e, [], r.state⟩
      | none =>
        let out := (df Config.blockCipher r.bytes none .random).toList.take 32
        ⟨none, keptBytes dst out, putBytes dst 0 out r.state⟩
  | .hrng | .drng => collectBurst dst 32 (hwProgram .prngGen s)

/-- Step 7, the statistics (R176). -/
def countGenerate (s : State) : State :=
  { s with
    inst :=
      { s.inst with
        randBytesSinceReseed := s.inst.randBytesSinceReseed + 32
        randBytesTotal := s.inst.randBytesTotal + 32
        generateCallsSinceReseed := s.inst.generateCallsSinceReseed + 1 } }

/-- A `GENERATE` that ends with a status and no bytes. -/
def generatedNothing (r : Status × State) : Generated := ⟨r.1, [], r.2⟩

/-- `GENERATE` into a destination (R170): the host buffer, or the transient buffer of `RUNKAT` (43_self_test.md
R271). -/
def opGenerate (dst : Dst) (size : Nat) (pr : Bool) (s : State) : Generated :=
  if s.inst.state ≠ .healthy then generatedNothing (s.raise .errInvalidState)
  else
    match generateReject size pr s.inst with
    | some e => generatedNothing (s.raise e)
    | none =>
      let p := generatePolicy pr s
      match p.1 with
      | some e => generatedNothing (p.2.raise e)
      | none =>
        let r := generateOutput dst p.2
        match r.fail with
        | some e => ⟨e, r.bytes, (r.state.raise e).2⟩
        | none => ⟨.success, r.bytes, (countGenerate r.state).succeed.2⟩

/-! ## UNINSTANTIATE (R180) -/

/-- `UNINSTANTIATE` (R180, in the order R181 fixes). -/
def opUninstantiate (s : State) : Status × State :=
  if s.inst.state = .uninitialized then s.raise .errInvalidState
  else (hwHoldReset (zeroizeSeedRegs s)).zeroInstance.succeed

/-! ## The commands -/

/-- `INSTANTIATE` (R152); a `NULL` `A0` is malformed (30_encoding.md R122). -/
def execInstantiate (mode : BitVec 2) (pr dfdis : Bool) (mul : BitVec 4) (seedp persp : Bool) (a0 : HostAddr)
    (s : State) : Host.Outcome State Fault Refusal :=
  if (Instr.instantiate mode pr dfdis mul seedp persp a0).lacksOperand then .next s.beginCommand.refuseMalformed
  else .next (opInstantiate (instConfigOfRecord s.mem mode pr dfdis mul seedp persp a0) s.beginCommand).2

/-- `RESEED` (R160); a `NULL` `A0` with `SEEDP` = 1 is malformed (R122). -/
def execReseed (mul : BitVec 4) (seedp : Bool) (a0 : HostAddr) (s : State) : Host.Outcome State Fault Refusal :=
  if (Instr.reseed mul seedp a0).lacksOperand then .next s.beginCommand.refuseMalformed
  else .next (opReseed mul seedp a0 s.beginCommand).2

/-- `GENERATE` (R170); a `NULL` buffer is malformed (R122). -/
def execGenerate (pr : Bool) (size : BitVec 24) (a0 : HostAddr) (s : State) : Host.Outcome State Fault Refusal :=
  if (Instr.generate pr size a0).lacksOperand then .next s.beginCommand.refuseMalformed
  else .next (opGenerate (.host a0) size.toNat pr s.beginCommand).state

/-- `UNINSTANTIATE` (R180). -/
def execUninstantiate (s : State) : Host.Outcome State Fault Refusal := .next (opUninstantiate s.beginCommand).2

/-- `REINSTANTIATE <config>` (30_encoding.md R125): `UNINSTANTIATE`, then `INSTANTIATE <config>`, whatever the first
answered (entry 19). -/
def execReinstantiate (mode : BitVec 2) (pr dfdis : Bool) (mul : BitVec 4) (seedp persp : Bool) (a0 : HostAddr)
    (s : State) : Host.Outcome State Fault Refusal :=
  let t := (opUninstantiate s.beginCommand).2
  if (Instr.reinstantiate mode pr dfdis mul seedp persp a0).lacksOperand then .next t.refuseMalformed
  else .next (opInstantiate (instConfigOfRecord t.mem mode pr dfdis mul seedp persp a0) t).2

/-- A reserved command word (R122): refused at decode, `RESULT` = 0x01 and nothing else of the block changes. -/
def execReserved (s : State) : Host.Outcome State Fault Refusal := .next s.beginCommand.refuseMalformed

/-- The operands `ReseedCore` is given by its callers (R165): a validated multiplier and, in DRNG mode, a seed of
`EntropySize` bytes. -/
def reseedOperandsOk (seed : Option (List Byte)) (m : BitVec 4) (i : Instance) : Bool :=
  mulLegal i.dfDisabled m &&
    (i.mode != .drng || seed.map List.length == some (entropySizeFor i.dfDisabled m))

/-- `ReseedCore` run on its own (R165; entries 6, 7). -/
def execReseedCore (seed : Option (List Byte)) (m : BitVec 4) (s : State) : Host.Outcome State Fault Refusal :=
  if reseedOperandsOk seed m s.inst then
    let r := reseedCore seed m s.beginCommand
    .next (r.2.returning (.outcome r.1))
  else .refused .reseedOperand

end Sys2Proof.Machine
end

