-- ==== Sys2Proof/Machine/SelfTest.lean ====
section
/-! DEFINITION. The Self-Test Layer (43_self_test.md): `RUNKAT` and `RUNHEALTHTEST`, fixed sequences of core
operations. An inner failure ends the command with that operation's code and no clean-up (R270). -/

namespace Sys2Proof.Machine

/-- `KAT_CFG` with its seed and string (R272): DRNG, DF enabled, seed and string present. -/
def katConfig (p : Params) : InstConfig where
  mode := modeBits .drng
  life := p.katLife
  pr := p.katPr
  dfdis := false
  mul := p.katMul
  seed := some (p.katSeed.toList.take (entropySizeFor false p.katMul))
  pers := some p.katPers
  readsLife := []
  readsStored := []

/-- The health-test configuration (R275, R276): HRNG, DF enabled, multiplier 7. -/
def healthConfig (p : Params) : InstConfig where
  mode := modeBits .hrng
  life := p.healthSeedLife
  pr := false
  dfdis := false
  mul := Config.healthDfLenMul
  seed := none
  pers := none
  readsLife := []
  readsStored := []

/-- `RUNKAT` (R271): instantiate, generate 32 bytes into a buffer of the block, compare, uninstantiate. -/
def opRunKat (s : State) : Status × State :=
  let r1 := opInstantiate (katConfig s.params) s
  if r1.1 ≠ .success then r1
  else
    let r2 := opGenerate .scratch 32 false r1.2
    if r2.status ≠ .success then (r2.status, r2.state)
    else if r2.bytes ≠ s.params.katExpected.toList then r2.state.raise .errKatMismatch
    else opUninstantiate r2.state

/-- `RUNHEALTHTEST` (R275): instantiate, uninstantiate. -/
def opRunHealthTest (s : State) : Status × State :=
  let r1 := opInstantiate (healthConfig s.params) s
  if r1.1 ≠ .success then r1 else opUninstantiate r1.2

/-- `RUNKAT` (R271). -/
def execRunKat (s : State) : Host.Outcome State Fault Refusal := .next (opRunKat s.beginCommand).2

/-- `RUNHEALTHTEST` (R275). -/
def execRunHealthTest (s : State) : Host.Outcome State Fault Refusal := .next (opRunHealthTest s.beginCommand).2

end Sys2Proof.Machine
end

