-- ==== Sys2Proof/Machine/Dispatch.lean ====
section
/-! DEFINITION. One arm per operation of spec/opcode_table.json, each one call of its meaning. -/

namespace Sys2Proof.Machine

def exec (i : Instr) (s : State) : Host.Outcome State Fault Refusal :=
  match i with
  | .instantiate mode pr dfdis mul seedp persp a0 => Sys2Proof.Machine.execInstantiate mode pr dfdis mul seedp persp a0 s
  | .reseed mul seedp a0 => Sys2Proof.Machine.execReseed mul seedp a0 s
  | .generate pr size a0 => Sys2Proof.Machine.execGenerate pr size a0 s
  | .uninstantiate => Sys2Proof.Machine.execUninstantiate s
  | .runKat => Sys2Proof.Machine.execRunKat s
  | .runHealthTest => Sys2Proof.Machine.execRunHealthTest s
  | .reseedCore seed m => Sys2Proof.Machine.execReseedCore seed m s
  | .collectBurst dst n => Sys2Proof.Machine.execCollectBurst dst n s
  | .checkSeedPattern buf n => Sys2Proof.Machine.execCheckSeedPattern buf n s
  | .df ent pers tag => Sys2Proof.Machine.execDf ent pers tag s
  | .dfPack ent pers tag => Sys2Proof.Machine.execDfPack ent pers tag s
  | .dfBcc packed index => Sys2Proof.Machine.execDfBcc packed index s
  | .dfOut t => Sys2Proof.Machine.execDfOut t s
  | .cbcMac key chain0 msg => Sys2Proof.Machine.execCbcMac key chain0 msg s
  | .hwReset => Sys2Proof.Machine.execHwReset s
  | .hwHoldReset => Sys2Proof.Machine.execHwHoldReset s
  | .hwProgram sel => Sys2Proof.Machine.execHwProgram sel s
  | .writeGroup g b => Sys2Proof.Machine.execWriteGroup g b s
  | .zeroizeSeedRegs => Sys2Proof.Machine.execZeroizeSeedRegs s
  | .pollField off mask expect timeoutUs => Sys2Proof.Machine.execPollField off mask expect timeoutUs s
  | .reinstantiate mode pr dfdis mul seedp persp a0 => Sys2Proof.Machine.execReinstantiate mode pr dfdis mul seedp persp a0 s
  | .reserved _ _ => Sys2Proof.Machine.execReserved s

end Sys2Proof.Machine
end

