-- ==== Sys2Proof/Machine/Step.lean ====
section
/-! DEFINITION. One step: the command at the command index is decoded and executed to completion, and the index advances
by one (10_state.md R24). -/

namespace Sys2Proof.Machine

/-- One step of the machine (R24). -/
def step (s : State) : Host.Outcome State Fault Refusal :=
  match s.fetch with
  | none => .refused .noCommand
  | some c =>
    match exec (decode c) s with
    | .next t => .next t.advance
    | .fault r => .fault r
    | .refused r => .refused r

/-- The host presents the command of these bits (`cw` in bits 31..0, `A0` above) as the next one (entry 8). -/
def State.withFetchWord (s : State) (nbits w : Nat) : State := s.present (commandOfBits nbits w)

end Sys2Proof.Machine
end

