-- ==== Sys2Proof/Safety.lean ====
section
/-! DEFINITION. The terms claims are stated in: the invariant of the machine, the environment's answers burst by burst,
what a register group holds, how many port accesses a log holds. -/

namespace Sys2Proof.Machine

/-! ## Legal port maps -/

/-- A port map is legal (30_encoding.md R118, 20_memory.md R76, R87; 10_state.md R31 to R33, R37, R38): the registers lie at
different multiples of 4 below 2^32, the fields of a register do not overlap, every field exists, and `CTRL.SEL` and
`STATUS.QCNT` hold the values the block gives them or waits for. -/
structure MapOk (m : PortMap) : Prop where
  aligned : ∀ r, portOffset m r % 4 = 0
  inRange : ∀ r, portOffset m r < 2 ^ 32
  distinct : ∀ r q, portOffset m r = portOffset m q → r = q
  start : m.ctrlStart ≠ 0
  ctrlFields : m.ctrlStart &&& m.ctrlSel = 0
  selFits : ∀ sel, selected m sel &&& m.ctrlSel = selected m sel
  selDistinct : ∀ a b, selected m a = selected m b → a = b
  selNotIdle : ∀ sel, selected m sel ≠ 0
  flags : m.statusDone ≠ 0 ∧ m.statusDtf ≠ 0 ∧ m.statusCertf ≠ 0
  statusFields : m.statusDone &&& m.statusDtf = 0 ∧ m.statusDone &&& m.statusCertf = 0 ∧ m.statusDtf &&& m.statusCertf = 0 ∧
    (m.statusDone ||| m.statusDtf ||| m.statusCertf) &&& m.statusQcnt = 0
  ready : m.burstReady ≠ 0 ∧ m.burstReady &&& m.statusQcnt = m.burstReady
  assert : m.resetAssert ≠ 0
  enable : m.oscEnEn ≠ 0

/-! ## The invariant -/

/-- The configuration passed every validation check (10_state.md R26, R23; 40_core_operations.md R153). -/
structure Instance.Configured (i : Instance) : Prop where
  multiplier : mulLegal i.dfDisabled i.dfLenMul = true
  size : i.entropySize.toNat = entropySizeFor i.dfDisabled i.dfLenMul
  life : i.mode ≠ .ptrng → 1 ≤ i.seedLife.toNat ∧ i.seedLife.toNat ≤ 2 ^ 48
  seed : i.initSeedPresent = true ↔ i.mode = .drng

/-- The PTRNG contract (R26): no seed life, no personalization string, no seed, no prediction resistance. -/
def Instance.PtrngContract (i : Instance) : Prop :=
  i.mode = .ptrng → i.seedLife = 0 ∧ i.persStrPresent = false ∧ i.initSeedPresent = false ∧ i.predResEn = false

/-- The `GENERATE` calls on one seed stay within the seed life: N in HRNG mode (R172), N + 1 in DRNG mode with the strict
comparison (R173, conflict C1). -/
def Instance.WithinLife (i : Instance) : Prop :=
  (i.mode = .hrng → i.generateCallsSinceReseed.toNat ≤ i.seedLife.toNat) ∧
    (i.mode = .drng → i.generateCallsSinceReseed.toNat ≤ i.seedLife.toNat + 1)

/-- Reserved bits of the port registers are zero (10_state.md R31) and `OSC_EN` is at its reset value (R38). -/
def ReservedClear (m : PortMap) (p : Port) : Prop :=
  p.ctrl &&& ~~~m.ctrlDefined = 0 ∧ p.status &&& ~~~m.statusDefined = 0 ∧ (p.reset = 0 ∨ p.reset = m.resetAssert) ∧
    p.oscEn = 0

/-- What holds of the state after every command (R26 and the rules it is derived from). -/
structure State.Inv (s : State) : Prop where
  /-- Host memory is in its canonical form. -/
  memory : Memory.wf s.mem = true
  /-- `RESULT` holds one of the fourteen codes (30_encoding.md R120). -/
  resultCode : s.result.toNat ≤ 0x0D
  /-- UNINITIALIZED implies every instance register is zero (R26). -/
  zeroInstance : s.inst.state = .uninitialized → s.inst = Instance.zero
  /-- HEALTHY implies the configuration passed validation (R26). -/
  configured : s.inst.state = .healthy → s.inst.Configured
  /-- The PTRNG contract holds in every state (R26). -/
  ptrngContract : s.inst.PtrngContract
  /-- The two since-reseed counters move together (decision D40). -/
  counters : s.inst.randBytesSinceReseed = 32 * s.inst.generateCallsSinceReseed
  /-- A HEALTHY instance is within its seed life (R172, R173). -/
  withinLife : s.inst.state = .healthy → s.inst.WithinLife
  /-- A HEALTHY instance's hardware is not held in reset (44_port_sequences.md R292). -/
  released : s.inst.state = .healthy → s.held = false
  /-- While the instance is UNINITIALIZED or the hardware is held in reset, every port register but `RESET` and
  `CORE_OUTPUT` is at its reset value (10_state.md R37, R41; 70_reset_and_hazards.md R385). -/
  quiet : s.inst.state = .uninitialized ∨ s.held = true → s.port = Port.zeroed s.port.reset s.port.coreOutput
  /-- Reserved bits of the port registers are zero (R31) and `OSC_EN` is never written (R38). -/
  reserved : ReservedClear s.params.map s.port
  /-- The port map is a legal one (R118); no operation writes it (R30). -/
  map : MapOk s.params.map

/-! ## The environment's answers -/

/-- One burst as the environment delivers it when its ready poll succeeds at the first read: the value that poll reads,
the value the DTF check reads (HRNG and DRNG modes), the four words (41_entropy_collector.md R200). -/
structure Burst where
  ready : Word
  dtf : Word
  words : Vector Word 4
  deriving DecidableEq, Repr

/-- The draws one burst takes in a mode: PTRNG mode reads no DTF (R204). -/
def Burst.draws (m : Mode) (b : Burst) : List Word :=
  match m with
  | .hrng | .drng => b.ready :: b.dtf :: b.words.toList
  | .ptrng => b.ready :: b.words.toList

/-- The bytes of a burst (20_memory.md R74). -/
def Burst.bytes (b : Burst) : List Byte := b.words.toList.flatMap be32

/-- The poll finds `QCNT` = `QCNT_READY` and, in HRNG and DRNG modes, DTF is clear (R203, R204). -/
def Burst.Good (p : Params) (m : Mode) (b : Burst) : Prop :=
  b.ready &&& p.map.statusQcnt = p.map.burstReady ∧ (m ≠ .ptrng → b.dtf &&& p.map.statusDtf = 0)

/-- No burst repeats the one before it (R207). -/
def NoRepeat : List Burst → Prop
  | a :: b :: rest => a.words ≠ b.words ∧ NoRepeat (b :: rest)
  | _ => True

/-- All the draws of a list of bursts. -/
def burstDraws (m : Mode) (bs : List Burst) : List Word := bs.flatMap (Burst.draws m)

/-- All the bytes of a list of bursts. -/
def burstBytes (bs : List Burst) : List Byte := bs.flatMap Burst.bytes

/-- The window after bursts were read one after another (R206). -/
def windowAfter (win : Vector Word 4) (bs : List Burst) : Vector Word 4 := (bs.getLast?.map Burst.words).getD win

/-- No word of the bursts is a forbidden pattern (R212). -/
def NoForbidden (bs : List Burst) : Prop :=
  ∀ b ∈ bs, ∀ w ∈ b.words.toList, w ≠ 0xAAAAAAAA ∧ w ≠ 0x55555555

/-- The two reads of a hardware reseed that succeeds at the first poll: DONE set, then CERTF clear (R169). -/
def ReseedDone (p : Params) (done certf : Word) : Prop :=
  done &&& p.map.statusDone = p.map.statusDone ∧ certf &&& p.map.statusCertf = 0

/-- The value a read of `STATUS` returns for a draw: its reserved bits read as zero (10_state.md R31). -/
def shown (p : Params) (v : Word) : Word := v &&& p.map.statusDefined

/-- No value polled in the list shows the field as expected (44_port_sequences.md R299). -/
def NeverShows (p : Params) (mask expect : Word) (vs : List Word) : Prop := ∀ v ∈ vs, shown p v &&& mask ≠ expect

/-- `CTRL` with a selection and the start bit set (44_port_sequences.md R294, R302). -/
def started (m : PortMap) (sel : HwSel) : Word := selected m sel ||| m.ctrlStart

/-- `CTRL` after the start bit has been asserted over the value `c` (R294). -/
def withStart (m : PortMap) (c : Word) : Word := ((c &&& ~~~m.ctrlStart) ||| m.ctrlStart) &&& m.ctrlDefined

/-! ## The traces of 44_port_sequences.md R301, with the accesses of host memory (20_memory.md R89) -/

/-- The reads of a poll that do not show the field, each followed by a sleep (R299). -/
def pollEvents (p : Params) (vs : List Word) : List Event :=
  vs.flatMap fun v => [.rd (portAddr p .status) (shown p v), .sleep p.pollSleepUs]

/-- The write of host memory that stores bytes at an offset of a destination (20_memory.md R85), if it is one. -/
def putEvents (dst : Dst) (off : Nat) (b : List Byte) : List Event :=
  match dst with
  | .host a => if a = nullAddr then [] else [.memWr (a.toNat + off) b]
  | .scratch => []

/-- Words read from `CORE_OUTPUT`, each stored before the next is read (41_entropy_collector.md R200 step 2c). -/
def wordEvents (p : Params) (dst : Dst) : (off : Nat) → List Word → List Event
  | _, [] => []
  | off, w :: ws => .rd (portAddr p .coreOutput) w :: putEvents dst off (be32 w) ++ wordEvents p dst (off + 4) ws

/-- The events of one burst whose ready poll succeeds at its first read (R211), its bytes stored from an offset on. -/
def Burst.events (p : Params) (m : Mode) (dst : Dst) (off : Nat) (b : Burst) : List Event :=
  .rd (portAddr p .status) (shown p b.ready) ::
    (match m with
      | .hrng | .drng => [.rd (portAddr p .status) (shown p b.dtf)]
      | .ptrng => []) ++ wordEvents p dst off b.words.toList

/-- The value of `STATUS` the burst's last read of it showed. -/
def Burst.lastStatus (p : Params) (m : Mode) (b : Burst) : Word :=
  match m with
  | .hrng | .drng => shown p b.dtf
  | .ptrng => shown p b.ready

/-- `STATUS` and `CORE_OUTPUT` after bursts: what their last reads returned (10_state.md R33, R36; entry 16). -/
def Port.afterBursts (p : Params) (m : Mode) (bs : List Burst) (port : Port) : Port :=
  match bs.getLast? with
  | none => port
  | some b => { port with status := b.lastStatus p m, coreOutput := b.words[3] }

/-- The events of all the bursts, in order, their bytes stored from an offset on. -/
def burstEvents (p : Params) (m : Mode) (dst : Dst) : (off : Nat) → List Burst → List Event
  | _, [] => []
  | off, b :: bs => b.events p m dst off ++ burstEvents p m dst (off + 16) bs

/-- The two accesses that assert the start bit over a value of `CTRL` (R294). -/
def startEvents (p : Params) (ctrl : Word) : List Event :=
  [.rd (portAddr p .ctrl) ctrl, .wr (portAddr p .ctrl) ((ctrl &&& ~~~p.map.ctrlStart) ||| p.map.ctrlStart)]

/-- A whole collection after `HwProgram(sel)` (R301). -/
def collectEvents (p : Params) (m : Mode) (sel : HwSel) (dst : Dst) (bs : List Burst) : List Event :=
  .wr (portAddr p .ctrl) (selected p.map sel) :: startEvents p (selected p.map sel) ++ burstEvents p m dst 0 bs

/-- The reset pulse (R291). -/
def resetEvents (p : Params) : List Event :=
  [.wr (portAddr p .reset) p.map.resetAssert, .sleep p.tResetUs, .wr (portAddr p .reset) 0]

/-- The tail of a reseed, from the selection of RESEED_EXT on, when DONE shows at the first read and CERTF is clear
(R301). -/
def reseedEvents (p : Params) (done certf : Word) : List Event :=
  [.wr (portAddr p .ctrl) (selected p.map .reseedExt), .rd (portAddr p .ctrl) (selected p.map .reseedExt),
    .wr (portAddr p .ctrl) (started p.map .reseedExt), .rd (portAddr p .status) (shown p done),
    .rd (portAddr p .status) (shown p certf), .rd (portAddr p .ctrl) (started p.map .reseedExt),
    .wr (portAddr p .ctrl) (selected p.map .reseedExt)]

/-! ## Register groups and seeds -/

/-- A register group that holds 48 bytes: register `11 - k` holds bytes `4k .. 4k + 3`, big-endian (R296). -/
def groupWords (b : Vector Byte 48) : Vector Word 12 :=
  Vector.ofFn fun j =>
    b[4 * (11 - j.val)] ++ b[4 * (11 - j.val) + 1] ++ b[4 * (11 - j.val) + 2] ++ b[4 * (11 - j.val) + 3]

/-- The 48 bytes a reseed delivers to `EXT_SEED` (40_core_operations.md R168). -/
def deliveredSeed (i : Instance) (mat : List Byte) : Vector Byte 48 :=
  if i.dfDisabled then toBytes 48 mat else df Config.blockCipher mat (suppliedPers i) .seed

/-- What a reseed leaves in `PER_STRNG` (R168): written only with the DF disabled and a string supplied. -/
def deliveredPers (i : Instance) (old : Vector Word 12) : Vector Word 12 :=
  if i.dfDisabled && i.persStrPresent then groupWords i.persStr else old

/-- The instance a reseed with multiplier `m` leaves besides the window: the two since-reseed counters zero, the
multiplier and `EntropySize` of this call (40_core_operations.md R165 steps 0 and 1, R166). -/
def reseededInst (m : BitVec 4) (i : Instance) : Instance :=
  { i with
    randBytesSinceReseed := 0
    generateCallsSinceReseed := 0
    dfLenMul := m
    entropySize := BitVec.ofNat 8 (entropySizeFor i.dfDisabled m) }

/-- The port after a successful reseed with the seed material `mat` (R168, R169; 44_port_sequences.md R302). -/
def reseededPort (p : Params) (i : Instance) (mat : List Byte) (certf : Word) (port : Port) : Port :=
  { port with
    extSeed := groupWords (deliveredSeed i mat)
    perStrng := deliveredPers i port.perStrng
    ctrl := selected p.map .reseedExt
    status := shown p certf }

/-- The statistics of a successful `GENERATE` (40_core_operations.md R176): 32, 32 and 1 more, modulo 2^64. -/
def countedInst (i : Instance) : Instance :=
  { i with
    randBytesSinceReseed := i.randBytesSinceReseed + 32
    randBytesTotal := i.randBytesTotal + 32
    generateCallsSinceReseed := i.generateCallsSinceReseed + 1 }

/-! ## The operand record, byte by byte (30_encoding.md R114, R115) -/

/-- `seedLife = Σ MemRead(A0 + k, 1) * 2^(8k)`, k = 0..7 (R115). -/
def hostSeedLife (m : Memory) (a0 : HostAddr) : Nat :=
  ((List.range 8).map fun k => (memRead m (a0.toNat + k)).toNat * 2 ^ (8 * k)).sum

/-- The seed of the record: `es` bytes from offset 8 (R115). -/
def hostSeed (m : Memory) (a0 : HostAddr) (es : Nat) : List Byte :=
  (List.range es).map fun k => memRead m (a0.toNat + 8 + k)

/-- The personalization string of the record: 48 bytes from offset 168 (R115). -/
def hostPers (m : Memory) (a0 : HostAddr) : Vector Byte 48 := Vector.ofFn fun i => memRead m (a0.toNat + 168 + i.val)

/-- The eight reads of `SEEDLIFE`, one byte each (R115). -/
def hostLifeReads (m : Memory) (a0 : HostAddr) : List Event :=
  (List.range 8).map fun k => .memRd (a0.toNat + k) [memRead m (a0.toNat + k)]

/-- The read of a seed of `es` bytes (R115). -/
def hostSeedRead (m : Memory) (a0 : HostAddr) (es : Nat) : Event := .memRd (a0.toNat + 8) (hostSeed m a0 es)

/-- The reads of the seed and of the string, each only if its presence bit is set (40_core_operations.md R152 step 5). -/
def hostStoreReads (m : Memory) (dfdis : Bool) (mul : BitVec 4) (seedp persp : Bool) (a0 : HostAddr) : List Event :=
  (if seedp then [hostSeedRead m a0 (entropySizeFor dfdis mul)] else []) ++
    if persp then [.memRd (a0.toNat + 168) (hostPers m a0).toList] else []

/-- All reads of the operand record that an accepted and valid `INSTANTIATE` makes, in order (R152 steps 3 and 5). -/
def hostReads (m : Memory) (dfdis : Bool) (mul : BitVec 4) (seedp persp : Bool) (a0 : HostAddr) : List Event :=
  hostLifeReads m a0 ++ hostStoreReads m dfdis mul seedp persp a0

/-- The instance that `INSTANTIATE` stores from the zero instance (40_core_operations.md R152 step 5), with `I.State` as
given: the seed zero-padded to 160 bytes, an absent string all zero (10_state.md R23). -/
def configuredInst (st : RunState) (mode : Mode) (m : Memory) (pr dfdis : Bool) (mul : BitVec 4) (seedp persp : Bool)
    (a0 : HostAddr) : Instance :=
  { Instance.zero with
    state := st
    mode := mode
    seedLife := BitVec.ofNat 49 (hostSeedLife m a0)
    predResEn := pr
    dfDisabled := dfdis
    dfLenMul := mul
    entropySize := BitVec.ofNat 8 (entropySizeFor dfdis mul)
    initSeedPresent := seedp
    initSeed := Vector.ofFn fun i =>
      if seedp = true ∧ i.val < entropySizeFor dfdis mul then memRead m (a0.toNat + 8 + i.val) else 0
    persStrPresent := persp
    persStr := if persp then hostPers m a0 else Vector.replicate 48 0 }

/-! ## Logs -/

/-- The twelve writes of a register group, last register first (R296). -/
def groupEvents (p : Params) (g : RegGroup) (b : Vector Byte 48) : List Event :=
  (List.finRange 12).map fun k => .wr (portAddr p (groupReg g k.rev)) (groupWords b)[k.rev]

/-- The writes of a seed delivery (40_core_operations.md R168). -/
def deliveryEvents (p : Params) (i : Instance) (mat : List Byte) : List Event :=
  groupEvents p .extSeed (deliveredSeed i mat) ++
    if i.dfDisabled && i.persStrPresent then groupEvents p .perStrng i.persStr else []

/-- The twenty-four zero writes of `ZeroizeSeedRegs` (R297). -/
def zeroizeEvents (p : Params) : List Event :=
  ((List.finRange 12).map fun k => .wr (portAddr p (.extSeed k)) 0) ++
    (List.finRange 12).map fun k => .wr (portAddr p (.perStrng k)) 0

/-- The event is a `Read32` or a `Write32`: a port access. -/
def Event.isAccess : Event → Bool
  | .rd _ _ | .wr _ _ => true
  | .sleep _ | .memRd _ _ | .memWr _ _ => false

/-- The number of port accesses in a log (70_reset_and_hazards.md R411). -/
def accessCount (log : List Event) : Nat := log.countP Event.isAccess

/-- A port access the block's commands may make (20_memory.md R70, R79; 10_state.md R42): they read only `CTRL`, `STATUS` and
`CORE_OUTPUT`, they write only `CTRL`, `RESET` and the two seed groups. -/
def AllowedEvent (p : Params) : Event → Prop
  | .rd a _ => a = portAddr p .ctrl ∨ a = portAddr p .status ∨ a = portAddr p .coreOutput
  | .wr a _ =>
    a = portAddr p .ctrl ∨ a = portAddr p .reset ∨ (∃ k, a = portAddr p (.extSeed k)) ∨
      ∃ k, a = portAddr p (.perStrng k)
  | .sleep _ | .memRd _ _ | .memWr _ _ => True

/-- The most `Read32`s one poll makes: `ceil(timeout_us / POLL_SLEEP_US) + 1` (R299, R411). -/
def maxPollReads (timeoutUs sleep : Nat) : Nat := (timeoutUs + sleep - 1) / sleep + 1

/-- Byte `k` of host memory lies at offset `lo` or above and below `hi` of a destination; the transient buffers are not host
memory and null is never dereferenced (20_memory.md R71, R72, R85). -/
def Covers (dst : Dst) (lo hi k : Nat) : Prop :=
  match dst with
  | .host a => a ≠ nullAddr ∧ a.toNat + lo ≤ k ∧ k < a.toNat + hi
  | .scratch => False

/-- The bytes stand in host memory at the destination, and every other byte reads as before; the transient buffers are not
host memory and null takes nothing (20_memory.md R71, R72, R85). -/
def Stored (dst : Dst) (b : List Byte) (old new : Memory) : Prop :=
  ∀ k : Nat,
    match dst with
    | .host a =>
      memRead new k =
        if a ≠ nullAddr ∧ a.toNat ≤ k ∧ k < a.toNat + b.length then b.getD (k - a.toNat) 0 else memRead old k
    | .scratch => memRead new k = memRead old k

/-! ## Failures of an inner operation (60_exceptions.md R320, R330) -/

/-- A collection that fails, with the `RESULT` and the `I.State` its command ends with (41_entropy_collector.md R203,
R204, R207; R330). -/
def CollectFailure (e : Status) (code : BitVec 8) (st : RunState) : Prop :=
  (e = .errGenerateTimeout ∧ code = 0x08 ∧ st = .error) ∨ (e = .errCatastrophicDtf ∧ code = 0x0B ∧ st = .catastrophic) ∨
    (e = .errCatastrophicSw ∧ code = 0x0C ∧ st = .catastrophic)

/-- A reseed that fails, with the `RESULT` and the `I.State` its command ends with (40_core_operations.md R165, R167,
R169; R330): a collection's failure, a forbidden word, DONE never shown, CERTF. -/
def ReseedFailure (e : Status) (code : BitVec 8) (st : RunState) : Prop :=
  CollectFailure e code st ∨ (e = .errCertfSw ∧ code = 0x0A ∧ st = .error) ∨
    (e = .errReseedTimeout ∧ code = 0x07 ∧ st = .error) ∨ (e = .errCertfHw ∧ code = 0x09 ∧ st = .error)

/-- The state a command ends in after its inner operation failed in state `c`, with the events `before` of its own before
that operation, newest first: nothing is rolled back (60_exceptions.md R332, R340). -/
def State.failed (c : State) (code : BitVec 8) (st : RunState) (before : List Event) : State :=
  { c with inst := { c.inst with state := st }, result := code, log := c.log ++ before, ret := .none }

/-- Some aligned word of the first `n` bytes is four 0xAA or four 0x55 bytes (41_entropy_collector.md R212). -/
def ForbiddenWord (b : List Byte) (n : Nat) : Prop :=
  ∃ j < n / 4, ∃ x, (x = 0xAA ∨ x = 0x55) ∧ ∀ k < 4, b.getD (4 * j + k) 0 = x

/-- What no command changes: the parameters, the host's command list and the command index (`step` advances it). -/
structure SameOutside (s t : State) : Prop where
  params : t.params = s.params
  commands : t.commands = s.commands
  cmdIndex : t.cmdIndex = s.cmdIndex

/-- The state in which a command ended with nothing done but `RESULT <- code`. -/
def State.onlyResult (code : BitVec 8) (s : State) : State := { s with result := code, log := [], ret := .none }

/-- A command is malformed because its `A0` is `NULL` where its format requires an address (30_encoding.md R112, R113,
R122). -/
def NullOperand (c : Command) : Prop :=
  c.a0 = 0 ∧ (c.cw.extractLsb' 0 4 = 1 ∨ c.cw.extractLsb' 0 4 = 3 ∨
    (c.cw.extractLsb' 0 4 = 2 ∧ c.cw.getLsbD 12 = true))

/-- A command is malformed (R122): a reserved word, or a missing operand. -/
def Malformed (c : Command) : Prop := isReservedWord c.cw = true ∨ NullOperand c

/-- The state guard of the command an instruction is (R151, R270): the `I.State`, and for `RESEED` the mode, in which it
is accepted. Operations that are no command of the host have no guard. -/
def Accepts (i : Instr) (inst : Instance) : Prop :=
  match i with
  | .instantiate .. | .runKat | .runHealthTest => inst.state = .uninitialized
  | .reseed .. => inst.state = .healthy ∧ inst.mode ≠ .ptrng
  | .generate .. => inst.state = .healthy
  | .uninstantiate => inst.state ≠ .uninitialized
  | .reseedCore .. | .collectBurst .. | .checkSeedPattern .. | .df .. | .dfPack .. | .dfBcc .. | .dfOut ..
  | .cbcMac .. | .hwReset | .hwHoldReset | .hwProgram .. | .writeGroup .. | .zeroizeSeedRegs | .pollField ..
  | .reinstantiate .. | .reserved .. => True

/-- The `I.State` a command leaves when it succeeds (60_exceptions.md R320, row 0x00). -/
def successState : Instr → RunState
  | .instantiate .. | .reseed .. | .generate .. | .reinstantiate .. => .healthy
  | .uninstantiate | .runKat | .runHealthTest | .reseedCore .. | .collectBurst .. | .checkSeedPattern .. | .df ..
  | .dfPack .. | .dfBcc .. | .dfOut .. | .cbcMac .. | .hwReset | .hwHoldReset | .hwProgram .. | .writeGroup ..
  | .zeroizeSeedRegs | .pollField .. | .reserved .. => .uninitialized

end Sys2Proof.Machine
end

