-- ==== Sys2Proof/Certificates/Slice0/Obligations.lean ====
section
/-! DEFINITION. The statements about the machine, one `def Obligations.<Name> : Prop` each. An expected next state is
written out as the state before with the changed fields: every field not named is unchanged (the frame). `log` holds the
accesses and sleeps of the command, newest first, so it is the reverse of their order (20_memory.md R89). -/

open Sys2Proof Sys2Proof.Machine

/-! ## Encodings (30_encoding.md) -/

/-- Encoding and then decoding gives the operation back, with every operand at every value its field admits. Rests on:
decision D2, entry 26. -/
def Obligations.DecodeEncodeAgree : Prop :=
  ∀ (i : Instr) (c : Command), i.wellFormed = true → encode i = some c → decode c = i

/-- No bit of a command word is dropped: the decoded operation encodes to the same word, and to the same `A0` unless the
format is U, whose `A0` is ignored (R113). Rests on: decision D2, entry 26. -/
def Obligations.EncodeDecodeAgree : Prop :=
  ∀ c : Command, ∃ d, encode (decode c) = some d ∧ d.cw = c.cw ∧
    (d.a0 = c.a0 ∨ (d.a0 = nullAddr ∧ (c.cw = 4 ∨ c.cw = 5 ∨ c.cw = 6)))

/-- The reserved command words (R111, R112, R113, R122): `OPC` 0x0 or 0x7 to 0xF, or a must-be-zero bit set. Rests on:
decisions D2, D35, entry 26. -/
def Obligations.ReservedWordsAreRefused : Prop :=
  ∀ (cw : Word) (a0 : HostAddr), decode ⟨cw, a0⟩ = .reserved cw a0 ↔
    (cw.extractLsb' 0 4 = 0 ∨ 7 ≤ (cw.extractLsb' 0 4).toNat ∨
      (cw.extractLsb' 0 4 = 1 ∧ cw.extractLsb' 14 18 ≠ 0) ∨
      (cw.extractLsb' 0 4 = 2 ∧ (cw.extractLsb' 4 4 ≠ 0 ∨ cw.extractLsb' 13 19 ≠ 0)) ∨
      (cw.extractLsb' 0 4 = 3 ∧ cw.extractLsb' 5 3 ≠ 0) ∨
      (4 ≤ (cw.extractLsb' 0 4).toNat ∧ (cw.extractLsb' 0 4).toNat ≤ 6 ∧ cw.extractLsb' 4 28 ≠ 0))

/-- A few words written out from the formats (R112, R113, R124). Rests on: decision D2, entry 26. -/
def Obligations.SampleWordsDecode : Prop :=
  decode ⟨0x00003711, 0x1000⟩ = .instantiate 1 false false 7 true true 0x1000 ∧
    decode ⟨0x000000E1, 8⟩ = .instantiate 2 true true 0 false false 8 ∧
    decode ⟨0x00001202, 0x40⟩ = .reseed 2 true 0x40 ∧
    decode ⟨0x00002013, 0x80⟩ = .generate true 32 0x80 ∧
    decode ⟨4, 0⟩ = .uninstantiate ∧ decode ⟨5, 0⟩ = .runKat ∧ decode ⟨6, 0⟩ = .runHealthTest ∧
    decode ⟨0x00000014, 0⟩ = .reserved 0x00000014 0

/-! ## The step (10_state.md R24) -/

/-- A step runs the command at the command index as decoded and then advances the index by one; with no command there
the step is refused by name. Rests on: decision D28, entries 8, 9. -/
def Obligations.StepRunsTheDecodedCommand : Prop :=
  (∀ (s t : State) (c : Command), s.fetch = some c → exec (decode c) s = .next t →
      step s = .next { t with cmdIndex := t.cmdIndex + 1 }) ∧
    ∀ s : State, s.commands[s.cmdIndex]? = none → step s = .refused .noCommand

/-- Every command completes, whatever the state and the environment, and advances the command index by exactly 1; it
changes neither the host's list nor the parameters. Rests on: decision D28, entry 8. -/
def Obligations.EveryCommandCompletes : Prop :=
  ∀ (s : State) (c : Command), s.commands[s.cmdIndex]? = some c →
    ∃ t, step s = .next t ∧ t.cmdIndex = s.cmdIndex + 1 ∧ t.commands = s.commands ∧ t.params = s.params

/-- `BASE` is never written by any operation, internal ones and both resets included. -/
def Obligations.BaseIsNeverWritten : Prop :=
  ∀ (i : Instr) (s t : State), exec i s = .next t → t.params.base = s.params.base

/-- A malformed command is refused at decode whatever `I.State` is: `RESULT` = 0x01 and no register of the instance or
the port changes; a command that is not malformed decodes to one of the six commands, with legal or illegal field
values. Rests on: decisions D5, D35, entries 5, 26. -/
def Obligations.MalformedCommandsAreRefused : Prop :=
  (∀ (s : State) (c : Command), Malformed c → exec (decode c) s = .next (s.onlyResult 0x01)) ∧
    ∀ c : Command, ¬ Malformed c → (decode c).wellFormed = true ∧ decode c ≠ .reserved c.cw c.a0

/-- A command in a state that does not accept it writes `RESULT` = 0x02 and changes nothing else. Rests on: decisions
D5, D18, entry 25. -/
def Obligations.WrongStateCommandsChangeNothing : Prop :=
  ∀ (s : State) (c : Command), ¬ Malformed c → ¬ Accepts (decode c) s.inst →
    exec (decode c) s = .next (s.onlyResult 0x02)

/-! ## Reset and the invariant -/

/-- The machine after creation (10_state.md R41, 70_reset_and_hazards.md R381): every register of the instance, every
port register with a reset value, `RESULT`, and the default port map (30_encoding.md R118). Rests on: decisions D6, D28,
D39, entries 8, 26, 29. -/
def Obligations.ResetState : Prop :=
  State.reset.inst = Instance.zero ∧ Instance.zero.state = .uninitialized ∧ Instance.zero.mode = .hrng ∧
    Instance.zero.seedLife = 0 ∧ Instance.zero.predResEn = false ∧ Instance.zero.dfDisabled = false ∧
    Instance.zero.dfLenMul = 0 ∧ Instance.zero.persStrPresent = false ∧ Instance.zero.persStr = Vector.replicate 48 0 ∧
    Instance.zero.initSeedPresent = false ∧ Instance.zero.initSeed = Vector.replicate 160 0 ∧
    Instance.zero.entropySize = 0 ∧ Instance.zero.randBytesTotal = 0 ∧ Instance.zero.randBytesSinceReseed = 0 ∧
    Instance.zero.generateCallsSinceReseed = 0 ∧ Instance.zero.win = Vector.replicate 4 0 ∧ State.reset.result = 0 ∧
    State.reset.port.ctrl = 0 ∧ State.reset.port.status = 0 ∧ State.reset.port.reset = 0 ∧ State.reset.port.oscEn = 0 ∧
    State.reset.port.extSeed = Vector.replicate 12 0 ∧ State.reset.port.perStrng = Vector.replicate 12 0 ∧
    State.reset.cmdIndex = 0 ∧
    State.reset.params.map =
      { ctrlAt := 0x00, statusAt := 0x04, resetAt := 0x08, oscEnAt := 0x0C, coreOutputAt := 0x10, extSeedAt := 0x40,
        perStrngAt := 0x80, ctrlStart := 0x1, ctrlSel := 0x6, selShift := 1, statusDone := 0x1, statusDtf := 0x2,
        statusCertf := 0x4, statusQcnt := 0x70, qcntShift := 4, qcntReady := 4, resetAssert := 0x1, oscEnEn := 0x1 }

/-- The invariant holds after creation. Rests on: the model's invariant; canonical memory is entry 4. -/
def Obligations.InvHoldsAtReset : Prop := State.reset.Inv

/-- The invariant is kept by every step from every state that meets it. Rests on: the model's invariant; canonical
memory is entry 4, the counters decision D40, the reset behaviour decision D8. -/
def Obligations.StepKeepsInv : Prop := ∀ s t : State, s.Inv → step s = .next t → t.Inv

/-! ## The state machine (40_core_operations.md R151, 60_exceptions.md R320, R330) -/

/-- `RESULT` tells what became of `I.State`, for every command that is not malformed, from every state. Rests on:
decisions D5, D18, D19, D24, entry 25. -/
def Obligations.ResultDecidesState : Prop :=
  ∀ (s t : State) (c : Command), ¬ Malformed c → exec (decode c) s = .next t →
    (t.result = 0x00 ∧ Accepts (decode c) s.inst ∧ t.inst.state = successState (decode c)) ∨
      (t.result = 0x02 ∧ ¬ Accepts (decode c) s.inst ∧ t.inst.state = s.inst.state) ∨
      ((t.result = 0x0B ∨ t.result = 0x0C) ∧ Accepts (decode c) s.inst ∧ t.inst.state = .catastrophic) ∨
      ((t.result = 0x01 ∨ (3 ≤ t.result.toNat ∧ t.result.toNat ≤ 0x0A) ∨ t.result = 0x0D) ∧
        Accepts (decode c) s.inst ∧ t.inst.state = .error)

/-- ERROR and CATASTROPHIC are terminal: over any number of steps none of which runs `UNINSTANTIATE`, the instance, the
port and host memory stay as they are, and every command answers 0x01 or 0x02. Rests on: codes: decision D5; malformed
commands: decision D35. -/
def Obligations.OnlyUninstantiateLeavesAFailure : Prop :=
  ∀ (n : Nat) (s t : State), s.inst.state = .error ∨ s.inst.state = .catastrophic →
    (∀ k < n, ∀ c, s.commands[s.cmdIndex + k]? = some c → decode c ≠ .uninstantiate) →
    Host.Core.run Sys2Proof.core n s = .next t →
    t.inst = s.inst ∧ t.port = s.port ∧ t.mem = s.mem ∧ (0 < n → t.result = 0x01 ∨ t.result = 0x02)

/-! ## Frames over all operations -/

/-- Only `GENERATE` (into `buf[0..31]`) and a `CollectBurst` with a host destination (into its `n` bytes) change host
memory; every other byte reads as before; at the address `NULL` = 0 nothing is stored at all. Rests on: addresses do not
wrap: the model's choice, entry 3. -/
def Obligations.HostMemoryFrame : Prop :=
  ∀ (i : Instr) (s t : State), exec i s = .next t → ∀ a : Nat,
    match i with
    | .generate _ _ a0 =>
      (a0 = nullAddr ∨ a < a0.toNat ∨ a0.toNat + 32 ≤ a) → memRead t.mem a = memRead s.mem a
    | .collectBurst (.host b) n =>
      (b = nullAddr ∨ a < b.toNat ∨ b.toNat + n ≤ a) → memRead t.mem a = memRead s.mem a
    | _ => memRead t.mem a = memRead s.mem a

/-- The configuration registers are immutable between `INSTANTIATE` and `UNINSTANTIATE`: no other operation changes the
mode, the seed life, the flags, the string or the seed. Only a reseed changes the multiplier and `EntropySize`, and then
to its own multiplier `m` and the size `m` gives; a `GENERATE` never changes the multiplier, and `EntropySize` at most
by an HRNG self-heal, to the size the kept multiplier gives. -/
def Obligations.ConfigurationIsImmutable : Prop :=
  ∀ (i : Instr) (s t : State), exec i s = .next t →
    match i with
    | .instantiate .. | .uninstantiate | .runKat | .runHealthTest | .reinstantiate .. => True
    | _ =>
      t.inst.mode = s.inst.mode ∧ t.inst.seedLife = s.inst.seedLife ∧ t.inst.predResEn = s.inst.predResEn ∧
        t.inst.dfDisabled = s.inst.dfDisabled ∧ t.inst.persStrPresent = s.inst.persStrPresent ∧
        t.inst.persStr = s.inst.persStr ∧ t.inst.initSeedPresent = s.inst.initSeedPresent ∧
        t.inst.initSeed = s.inst.initSeed ∧
        (match i with
          | .reseed m .. | .reseedCore _ m =>
            (t.inst.dfLenMul = s.inst.dfLenMul ∧ t.inst.entropySize = s.inst.entropySize) ∨
              (t.inst.dfLenMul = m ∧ t.inst.entropySize = BitVec.ofNat 8 (entropySizeFor s.inst.dfDisabled m))
          | .generate .. =>
            t.inst.dfLenMul = s.inst.dfLenMul ∧
              (t.inst.entropySize = s.inst.entropySize ∨
                (s.inst.mode = .hrng ∧
                  t.inst.entropySize = BitVec.ofNat 8 (entropySizeFor s.inst.dfDisabled s.inst.dfLenMul)))
          | _ => t.inst.dfLenMul = s.inst.dfLenMul ∧ t.inst.entropySize = s.inst.entropySize)

/-- A command's port accesses are to the registers the map names for it, on every legal map, and never to `OSC_EN`; its
other events are sleeps and accesses of host memory. Rests on: decisions D6, D34, entries 15, 26, 29; port addresses of
64 bits that wrap: the model's choice, entry 37. -/
def Obligations.CommandsAccessOnlyTheirRegisters : Prop :=
  ∀ (s t : State) (c : Command), exec (decode c) s = .next t →
    (∀ e ∈ t.log, AllowedEvent s.params e) ∧
      (MapOk s.params.map →
        ∀ v, Event.rd (portAddr s.params .oscEn) v ∉ t.log ∧ Event.wr (portAddr s.params .oscEn) v ∉ t.log) ∧
      (t.port.oscEn = s.port.oscEn ∨ t.port.oscEn = 0)

/-! ## The port (20_memory.md, 44_port_sequences.md) -/

/-- A register the block can write reads back what was written, its reserved bits zero, and a write changes no other
register, while the hardware is not held in reset. Rests on: reserved bits are masked: entry 17. -/
def Obligations.PortRegistersReadBack : Prop :=
  ∀ (s : State) (v : Word), s.held = false →
    (read32 .ctrl (write32 .ctrl v s)).1 = v &&& s.params.map.ctrlDefined ∧
      (read32 .oscEn (write32 .oscEn v s)).1 = v &&& s.params.map.oscEnEn ∧
      (∀ k, (read32 (.extSeed k) (write32 (.extSeed k) v s)).1 = v) ∧
      (∀ k, (read32 (.perStrng k) (write32 (.perStrng k) v s)).1 = v) ∧
      ∀ r q : PortReg, r ≠ q → r ≠ .reset → (write32 r v s).port.stored q = s.port.stored q

/-- While `RESET.ASSERT` = 1 every other register reads as its reset value and ignores writes; writing `RESET` with
`ASSERT` set puts every register at its reset value and holds it, writing it with `ASSERT` clear releases. Rests on:
decision D8, entries 12, 18, 29. -/
def Obligations.ResetHoldsTheHardware : Prop :=
  ∀ s : State,
    (s.held = true → ∀ r : PortReg, r ≠ .reset →
      (∀ v, (write32 r v s).port = s.port) ∧ (r ≠ .coreOutput → (read32 r s).1 = 0)) ∧
    (∀ v, v &&& s.params.map.resetAssert ≠ 0 →
      (∃ w, (write32 .reset v s).port = Port.zeroed s.params.map.resetAssert w) ∧ (write32 .reset v s).held = true) ∧
    ∀ v, v &&& s.params.map.resetAssert = 0 →
      (write32 .reset v s).port = { s.port with reset := 0 } ∧ (write32 .reset v s).held = false

/-- `Sleep` changes no state of the block: it is an event between two port accesses. -/
def Obligations.SleepChangesNothing : Prop :=
  ∀ (us : Nat) (s : State), sleepUs us s = { s with log := .sleep us :: s.log }

/-- `RMW32` on `CTRL`: a read and a write of `(t & ~mask) | (v & mask)`, nothing else; while the hardware is held the
read gives 0 and the write is ignored. Rests on: decision D32, entries 18, 21. -/
def Obligations.ReadModifyWriteOfCtrl : Prop :=
  ∀ (mask v : Word) (s : State),
    (s.held = false →
      rmw32 .ctrl mask v s =
        { s with
          port :=
            { s.port with ctrl := ((s.port.ctrl &&& ~~~mask) ||| (v &&& mask)) &&& s.params.map.ctrlDefined }
          log :=
            [.wr (portAddr s.params .ctrl) ((s.port.ctrl &&& ~~~mask) ||| (v &&& mask)),
              .rd (portAddr s.params .ctrl) s.port.ctrl] ++ s.log }) ∧
    (s.held = true →
      rmw32 .ctrl mask v s =
        { s with log := [.wr (portAddr s.params .ctrl) (v &&& mask), .rd (portAddr s.params .ctrl) 0] ++ s.log })

/-- `HwReset` pulses the reset and leaves every port register at its reset value with the hardware released;
`HwHoldReset` leaves it held; the instance is untouched by both. Rests on: decisions D8, D39, entries 12, 29. -/
def Obligations.HardwareResetsCompleted : Prop :=
  ∀ s : State, MapOk s.params.map →
    (∃ w, exec .hwReset s =
      .next
        { s with
          port := Port.zeroed 0 w
          resetCount := s.resetCount + 1
          log := (resetEvents s.params).reverse
          ret := .none }) ∧
    ∃ w, exec .hwHoldReset s =
      .next
        { s with
          port := Port.zeroed s.params.map.resetAssert w
          resetCount := s.resetCount + 1
          log := [.wr (portAddr s.params .reset) s.params.map.resetAssert]
          ret := .none }

/-- `HwProgram(sel)` writes `CTRL` whole: `SEL` = sel, `START` = 0; a held hardware ignores the write. On the default
map ENTROPY, RESEED_EXT and PRNG_GEN are written as 2, 4 and 6. Rests on: decision D7, entry 29. -/
def Obligations.HwProgramSelects : Prop :=
  (∀ (sel : HwSel) (s : State), MapOk s.params.map →
    exec (.hwProgram sel) s =
      .next
        { s with
          port := if s.held then s.port else { s.port with ctrl := selected s.params.map sel }
          log := [.wr (portAddr s.params .ctrl) (selected s.params.map sel)]
          ret := .none }) ∧
    selected Config.defaultMap .entropy = 2 ∧ selected Config.defaultMap .reseedExt = 4 ∧
    selected Config.defaultMap .prngGen = 6

/-- `WriteGroup(G, b)`: register `11 - k` of the group holds bytes `4k .. 4k + 3`, big-endian, written last register
first; nothing else changes; a held hardware ignores the writes. Rests on: decisions D14, D15, entry 27. -/
def Obligations.WriteGroupPlacesBytes : Prop :=
  ∀ (g : RegGroup) (b : Vector Byte 48) (s : State),
    exec (.writeGroup g b) s =
      .next
        { s with
          port :=
            if s.held then s.port
            else
              match g with
              | .extSeed => { s.port with extSeed := groupWords b }
              | .perStrng => { s.port with perStrng := groupWords b }
          log := (groupEvents s.params g b).reverse
          ret := .none }

/-- `ZeroizeSeedRegs` writes zero to each of the 24 registers, one write each; a held hardware ignores the writes. Rests
on: decision D27, entry 24. Rests on: decision D27, entry 24. -/
def Obligations.ZeroizeClearsBothGroups : Prop :=
  ∀ s : State,
    exec .zeroizeSeedRegs s =
      .next
        { s with
          port :=
            if s.held then s.port
            else { s.port with extSeed := Vector.replicate 12 0, perStrng := Vector.replicate 12 0 }
          log := (zeroizeEvents s.params).reverse
          ret := .none } ∧
      accessCount (zeroizeEvents s.params) = 24

/-- A poll of `STATUS` ends `ready` at the first read that shows the field, if that read comes within the budget: one
read more than the sleeps, which are `vs.length`. Rests on: decision D9, entry 13; the budget as a natural number: the
model's choice, entry 38. -/
def Obligations.PollEndsAtTheFirstMatch : Prop :=
  ∀ (mask expect : Word) (timeoutUs : Nat) (s : State) (vs : List Word) (v : Word) (rest : List Word),
    MapOk s.params.map → s.held = false → 1 ≤ s.params.pollSleepUs → s.script = vs ++ v :: rest →
    NeverShows s.params mask expect vs → shown s.params v &&& mask = expect →
    vs.length ≤ (timeoutUs + s.params.pollSleepUs - 1) / s.params.pollSleepUs →
    exec (.pollField s.params.map.statusAt mask expect timeoutUs) s =
      .next
        { s with
          port := { s.port with status := shown s.params v }
          script := rest
          drawCount := s.drawCount + (vs.length + 1)
          log := (pollEvents s.params vs ++ [Event.rd (portAddr s.params .status) (shown s.params v)]).reverse
          ret := .poll true }

/-- A poll of `STATUS` never shown the field ends `timeout` after `ceil(timeout_us / POLL_SLEEP_US) + 1` reads; whatever
register of the map is polled and whatever it shows, no poll makes more reads than that. Rests on: decision D9, entry
13; registers other than STATUS and the budget as a natural number: the model's choice, entry 38. -/
def Obligations.PollTimesOut : Prop :=
  (∀ (mask expect : Word) (timeoutUs : Nat) (s : State) (vs : List Word) (v : Word) (rest : List Word),
    MapOk s.params.map → s.held = false → 1 ≤ s.params.pollSleepUs → s.script = vs ++ v :: rest →
    NeverShows s.params mask expect (vs ++ [v]) →
    vs.length = (timeoutUs + s.params.pollSleepUs - 1) / s.params.pollSleepUs →
    exec (.pollField s.params.map.statusAt mask expect timeoutUs) s =
      .next
        { s with
          port := { s.port with status := shown s.params v }
          script := rest
          drawCount := s.drawCount + (vs.length + 1)
          log := (pollEvents s.params vs ++ [Event.rd (portAddr s.params .status) (shown s.params v)]).reverse
          ret := .poll false }) ∧
    ∀ (off mask expect : Word) (timeoutUs : Nat) (s : State) (r : PortReg), MapOk s.params.map →
      off.toNat = portOffset s.params.map r →
      ∃ t b, exec (.pollField off mask expect timeoutUs) s = .next t ∧ t.ret = .poll b ∧ t.inst = s.inst ∧
        accessCount t.log ≤ maxPollReads timeoutUs s.params.pollSleepUs

/-! ## The collector (41_entropy_collector.md) -/

/-- A collection of good bursts, none a repeat of the one before, succeeds: every word enters the destination in order
and big-endian, each stored before the next is read, the window holds the last burst, the accesses are those of R211;
null takes nothing. Rests on: decisions D15, D16, entries 3, 27, 28. -/
def Obligations.CollectBurstStoresTheBursts : Prop :=
  ∀ (dst : Dst) (s : State) (bs : List Burst) (rest : List Word),
    bs ≠ [] → s.held = false → (∀ b ∈ bs, b.Good s.params s.inst.mode) → NoRepeat bs →
    s.script = burstDraws s.inst.mode bs ++ rest →
    ∃ t, exec (.collectBurst dst (16 * bs.length)) s = .next t ∧
      t =
        { s with
          inst := { s.inst with win := windowAfter s.inst.win bs }
          port :=
            { s.port with ctrl := withStart s.params.map s.port.ctrl }.afterBursts s.params s.inst.mode bs
          mem := t.mem
          script := rest
          drawCount := s.drawCount + (burstDraws s.inst.mode bs).length
          log := (startEvents s.params s.port.ctrl ++ burstEvents s.params s.inst.mode dst 0 bs).reverse
          ret := .collected none (if dst.isNull then [] else burstBytes bs) } ∧
      (Memory.wf s.mem = true → Stored dst (burstBytes bs) s.mem t.mem)

/-- The hardware detector: in HRNG and DRNG modes a burst whose DTF read is set ends the collection CATASTROPHIC; its
words are not read, and only the bursts before it are stored and in the window. Rests on: decisions D16, D24, entries
25, 28. -/
def Obligations.DtfEndsTheCollection : Prop :=
  ∀ (dst : Dst) (s : State) (bs : List Burst) (ready dtf : Word) (rest : List Word) (n : Nat),
    s.inst.mode ≠ .ptrng → s.held = false → bs.length < n → (∀ b ∈ bs, b.Good s.params s.inst.mode) → NoRepeat bs →
    ready &&& s.params.map.statusQcnt = s.params.map.burstReady → dtf &&& s.params.map.statusDtf ≠ 0 →
    s.script = burstDraws s.inst.mode bs ++ ready :: dtf :: rest →
    ∃ t, exec (.collectBurst dst (16 * n)) s = .next t ∧
      t =
        { s with
          inst := { s.inst with win := windowAfter s.inst.win bs, state := .catastrophic }
          port :=
            { ({ s.port with ctrl := withStart s.params.map s.port.ctrl }.afterBursts s.params s.inst.mode bs) with
              status := shown s.params dtf }
          mem := t.mem
          script := rest
          drawCount := s.drawCount + ((burstDraws s.inst.mode bs).length + 2)
          log :=
            (startEvents s.params s.port.ctrl ++ burstEvents s.params s.inst.mode dst 0 bs ++
              [Event.rd (portAddr s.params .status) (shown s.params ready),
                Event.rd (portAddr s.params .status) (shown s.params dtf)]).reverse
          ret := .collected (some .errCatastrophicDtf) (if dst.isNull then [] else burstBytes bs) } ∧
      (Memory.wf s.mem = true → Stored dst (burstBytes bs) s.mem t.mem)

/-- The software detector, in every mode: the first burst equal to the one before it ends the collection CATASTROPHIC,
after it has been read, stored and put into the window. The first burst of an invocation is never compared. Rests on:
decisions D16, D24, entries 25, 28. -/
def Obligations.RepeatEndsTheCollection : Prop :=
  ∀ (dst : Dst) (s : State) (bs : List Burst) (last again : Burst) (rest : List Word) (n : Nat),
    s.held = false → bs.length + 1 < n → (∀ b ∈ bs ++ [last, again], b.Good s.params s.inst.mode) →
    NoRepeat (bs ++ [last]) → again.words = last.words →
    s.script = burstDraws s.inst.mode (bs ++ [last, again]) ++ rest →
    ∃ t, exec (.collectBurst dst (16 * n)) s = .next t ∧
      t =
        { s with
          inst := { s.inst with win := again.words, state := .catastrophic }
          port :=
            { s.port with ctrl := withStart s.params.map s.port.ctrl }.afterBursts s.params s.inst.mode
              (bs ++ [last, again])
          mem := t.mem
          script := rest
          drawCount := s.drawCount + (burstDraws s.inst.mode (bs ++ [last, again])).length
          log :=
            (startEvents s.params s.port.ctrl ++
              burstEvents s.params s.inst.mode dst 0 (bs ++ [last, again])).reverse
          ret :=
            .collected (some .errCatastrophicSw) (if dst.isNull then [] else burstBytes (bs ++ [last, again])) } ∧
      (Memory.wf s.mem = true → Stored dst (burstBytes (bs ++ [last, again])) s.mem t.mem)

/-- A burst that is not ready within the budget ends the collection with the generate-timeout code; `I.State` is not
written, the bursts before it are stored. Rests on: decision D16, entry 28. -/
def Obligations.NotReadyEndsTheCollection : Prop :=
  ∀ (dst : Dst) (s : State) (bs : List Burst) (vs : List Word) (v : Word) (rest : List Word) (n : Nat),
    s.held = false → 1 ≤ s.params.pollSleepUs → bs.length < n → (∀ b ∈ bs, b.Good s.params s.inst.mode) →
    NoRepeat bs → NeverShows s.params s.params.map.statusQcnt s.params.map.burstReady (vs ++ [v]) →
    vs.length = (s.params.tBurstUs + s.params.pollSleepUs - 1) / s.params.pollSleepUs →
    s.script = burstDraws s.inst.mode bs ++ vs ++ v :: rest →
    ∃ t, exec (.collectBurst dst (16 * n)) s = .next t ∧
      t =
        { s with
          inst := { s.inst with win := windowAfter s.inst.win bs }
          port :=
            { ({ s.port with ctrl := withStart s.params.map s.port.ctrl }.afterBursts s.params s.inst.mode bs) with
              status := shown s.params v }
          mem := t.mem
          script := rest
          drawCount := s.drawCount + ((burstDraws s.inst.mode bs).length + (vs.length + 1))
          log :=
            (startEvents s.params s.port.ctrl ++ burstEvents s.params s.inst.mode dst 0 bs ++
              (pollEvents s.params vs ++ [Event.rd (portAddr s.params .status) (shown s.params v)])).reverse
          ret := .collected (some .errGenerateTimeout) (if dst.isNull then [] else burstBytes bs) } ∧
      (Memory.wf s.mem = true → Stored dst (burstBytes bs) s.mem t.mem)

/-- A collection whatever the environment answers: a bad size fails before any port access; otherwise it ends with one
of three codes or success, the instance changes only in its window and, on the two catastrophic codes alone, in
`I.State`, no register but `CTRL`, `STATUS` and `CORE_OUTPUT` changes, and the accesses are bounded. Rests on: decisions
D17, D24, entry 28. -/
def Obligations.CollectBurstIsFramedAndBounded : Prop :=
  ∀ (dst : Dst) (n : Nat) (s : State),
    ((n = 0 ∨ n % 16 ≠ 0) →
      exec (.collectBurst dst n) s =
        .next { s with log := [], ret := .collected (some .errInvalidParam) [] }) ∧
    (n ≠ 0 → n % 16 = 0 → ∃ t f b, exec (.collectBurst dst n) s = .next t ∧ t.ret = .collected f b ∧
      (f = none ∨ f = some .errGenerateTimeout ∨ (f = some .errCatastrophicDtf ∧ s.inst.mode ≠ .ptrng) ∨
        f = some .errCatastrophicSw) ∧
      t.inst =
        { s.inst with
          win := t.inst.win
          state :=
            if f = some .errCatastrophicDtf ∨ f = some .errCatastrophicSw then .catastrophic else s.inst.state } ∧
      t.result = s.result ∧ t.resetCount = s.resetCount ∧
      t.port = { s.port with ctrl := t.port.ctrl, status := t.port.status, coreOutput := t.port.coreOutput } ∧
      accessCount t.log ≤ 2 + n / 16 * (maxPollReads s.params.tBurstUs s.params.pollSleepUs + 1 + 4))

/-- The forbidden-pattern check answers bad exactly when some aligned word of the `n` bytes is four 0xAA or four 0x55
bytes; it changes nothing. -/
def Obligations.SeedPatternVerdict : Prop :=
  ∀ (buf : List Byte) (n : Nat) (s : State), n % 4 = 0 → n ≤ buf.length →
    ∃ good, exec (.checkSeedPattern buf n) s = .next { s with log := [], ret := .verdict good } ∧
      (good = false ↔ ForbiddenWord buf n)

/-! ## The derivation function (42_derivation_function.md) -/

/-- `CbcMac`: the empty message gives the chaining value (null: sixteen zero bytes); one more block is exclusive-ored in
and encrypted. Rests on: decision D13, entry 20. -/
def Obligations.CbcMacChains : Prop :=
  ∀ (key : CipherKey) (chain0 : Option Block) (msg : List Byte) (blk : Block) (s : State), msg.length % 16 = 0 →
    exec (.cbcMac key chain0 []) s =
      .next { s with log := [], ret := .bytes (chain0.getD (Vector.replicate 16 0)).toList } ∧
    ∃ c : Block, exec (.cbcMac key chain0 msg) s = .next { s with log := [], ret := .bytes c.toList } ∧
      exec (.cbcMac key chain0 (msg ++ blk.toList)) s =
        .next { s with log := [], ret := .bytes (Config.blockCipher key (c.zipWith (· ^^^ ·) blk)).toList }

/-- The packed DF Input Block, field by field (30_encoding.md R116). Rests on: decisions D11, D12, entry 20. -/
def Obligations.PackedBlockLayout : Prop :=
  ∀ (ent : List Byte) (pers : Option (Vector Byte 48)) (tag : DfTag) (s : State), validEntropyLength ent.length = true →
    ∃ b, exec (.dfPack ent pers tag) s = .next { s with log := [], ret := .bytes b } ∧ b.length = ent.length + 80 ∧
      b.take 16 = List.replicate 16 0 ∧
      (b.drop 16).take 4 = [0, 0, 0, BitVec.ofNat 8 (ent.length + 48)] ∧
      (b.drop 20).take 4 = [0, 0, 0, match tag with | .seed => 48 | .random => 32] ∧
      (b.drop 24).take ent.length = ent ∧
      (b.drop (24 + ent.length)).take 48 = (pers.getD (Vector.replicate 48 0)).toList ∧
      b.drop (72 + ent.length) = [0x80, 0, 0, 0, 0, 0, 0, 0]

/-- `DF_BCC(S, i)` is the chain under the key 00 01 .. 1F over `S` with its first word replaced by `BE32(i)`. Rests on:
decisions D11, D13, entry 20. -/
def Obligations.DfBccSetsTheIndex : Prop :=
  ∀ (packed : List Byte) (i : Fin 3) (key : CipherKey) (s : State), validPackedLength packed.length = true →
    (∀ k : Fin 32, key[k] = BitVec.ofNat 8 k.val) →
    ∃ c : Block, exec (.dfBcc packed i) s = .next { s with log := [], ret := .bytes c.toList } ∧
      exec (.cbcMac key none ([0, 0, 0, BitVec.ofNat 8 i.val] ++ packed.drop 4)) s =
        .next { s with log := [], ret := .bytes c.toList }

/-- `DF_Out(T)`: the key is the first 32 bytes, the first block encrypted the last 16, each output block encrypts the
one before. -/
def Obligations.DfOutIsAChain : Prop :=
  ∀ (key : CipherKey) (x : Block) (t : Vector Byte 48) (s : State), t.toList = key.toList ++ x.toList →
    exec (.dfOut t) s =
      .next
        { s with
          log := []
          ret :=
            .bytes
              ((Config.blockCipher key x).toList ++
                (Config.blockCipher key (Config.blockCipher key x)).toList ++
                (Config.blockCipher key (Config.blockCipher key (Config.blockCipher key x))).toList) }

/-- `DF(ent, pers, tag)` is `DF_Out` of the three `DF_BCC` blocks of `DF_Pack`; it reads and writes no register. Rests
on: its domain of entropy lengths is entry 7. Rests on: its domain of entropy lengths is entry 7. -/
def Obligations.DfComposesItsParts : Prop :=
  ∀ (ent : List Byte) (pers : Option (Vector Byte 48)) (tag : DfTag) (s : State), validEntropyLength ent.length = true →
    ∃ (b : List Byte) (c0 c1 c2 : Block) (t out : Vector Byte 48),
      exec (.dfPack ent pers tag) s = .next { s with log := [], ret := .bytes b } ∧
      exec (.dfBcc b 0) s = .next { s with log := [], ret := .bytes c0.toList } ∧
      exec (.dfBcc b 1) s = .next { s with log := [], ret := .bytes c1.toList } ∧
      exec (.dfBcc b 2) s = .next { s with log := [], ret := .bytes c2.toList } ∧
      t.toList = c0.toList ++ c1.toList ++ c2.toList ∧
      exec (.dfOut t) s = .next { s with log := [], ret := .bytes out.toList } ∧
      exec (.df ent pers tag) s = .next { s with log := [], ret := .bytes out.toList }

/-- Internal operations run on their own outside the domain their rule gives are refused by name: the model's own names
(entry 7). `ReseedCore`: a multiplier that is not validated, or in DRNG mode no seed of `EntropySize` bytes.
`PollField`: an offset that is no multiple of 4 or no register of the map; on the default map, those between or above
its registers. Rests on: the refusals are the model's, entry 7; the default map: decision D6, entry 26. -/
def Obligations.OutOfDomainOperandsAreRefused : Prop :=
  ∀ s : State,
    (∀ ent pers tag, ¬ (48 ≤ ent.length ∧ ent.length ≤ 160 ∧ ent.length % 16 = 0) →
      exec (.df ent pers tag) s = .refused .dfEntropyLength ∧
        exec (.dfPack ent pers tag) s = .refused .dfEntropyLength) ∧
    (∀ packed i, ¬ (128 ≤ packed.length ∧ packed.length ≤ 240 ∧ packed.length % 16 = 0) →
      exec (.dfBcc packed i) s = .refused .packedLength) ∧
    (∀ key chain0 msg, msg.length % 16 ≠ 0 → exec (.cbcMac key chain0 msg) s = .refused .messageLength) ∧
    (∀ buf n, n % 4 ≠ 0 ∨ buf.length < n → exec (.checkSeedPattern buf n) s = .refused .patternLength) ∧
    (∀ seed m, mulLegal s.inst.dfDisabled m = false → exec (.reseedCore seed m) s = .refused .reseedOperand) ∧
    (∀ seed m, s.inst.mode = .drng → (∀ b, seed = some b → b.length ≠ entropySizeFor s.inst.dfDisabled m) →
      exec (.reseedCore seed m) s = .refused .reseedOperand) ∧
    ∀ off mask expect timeoutUs,
      (off.toNat % 4 ≠ 0 ∨ (∀ r, portOffset s.params.map r ≠ off.toNat) ∨
        (s.params.map = Config.defaultMap ∧
          ((0x10 < off.toNat ∧ off.toNat < 0x40) ∨ (0x6C < off.toNat ∧ off.toNat < 0x80) ∨ 0xAC < off.toNat))) →
      exec (.pollField off mask expect timeoutUs) s = .refused .portOffset

/-! ## The core operations (40_core_operations.md) -/

/-- `EntropySize`: 48 with the DF disabled, `(m + 1) * 16` otherwise; for legal multipliers a multiple of 16, at most
160. -/
def Obligations.EntropySizeValues : Prop :=
  (∀ m : BitVec 4, entropySizeFor true m = 48 ∧ entropySizeFor false m = (m.toNat + 1) * 16) ∧
    ∀ (d : Bool) (m : BitVec 4), mulLegal d m = true →
      entropySizeFor d m ∈ [48, 64, 80, 96, 112, 128, 144, 160] ∧ entropySizeFor d m % 16 = 0 ∧
        entropySizeFor d m ≤ 160

/-- `INSTANTIATE` validation: the first check of V1 to V6b that fails decides the code; the instance is all zero but for
`I.State` = ERROR, the port is not touched, and of the record only `SEEDLIFE` is read. Rests on: decisions D5, D20,
entry 35. -/
def Obligations.InstantiateValidates : Prop :=
  ∀ (s : State) (mode : BitVec 2) (pr dfdis : Bool) (mul : BitVec 4) (seedp persp : Bool) (a0 : HostAddr)
      (code : BitVec 8),
    s.inst = Instance.zero → a0 ≠ nullAddr →
    code =
      (if mode = 3 then 0x01
      else if mode = 2 ∧ (hostSeedLife s.mem a0 ≠ 0 ∨ seedp = true ∨ persp = true ∨ pr = true) then 0x03
      else if mode = 1 ∧ seedp = false then 0x04
      else if mode = 0 ∧ seedp = true then 0x03
      else if mode ≠ 2 ∧ (hostSeedLife s.mem a0 < 1 ∨ 2 ^ 48 < hostSeedLife s.mem a0) then 0x01
      else if dfdis = false ∧ (mul.toNat < 2 ∨ 9 < mul.toNat) then 0x01
      else if dfdis = true ∧ mul ≠ 0 then 0x01
      else 0x00) →
    code ≠ 0x00 →
    exec (.instantiate mode pr dfdis mul seedp persp a0) s =
      .next
        { s with
          inst := { Instance.zero with state := .error }
          result := code
          log := (hostLifeReads s.mem a0).reverse
          ret := .none }

/-- `INSTANTIATE` in PTRNG mode: the configuration is stored, the port sees only the reset pulse, no reseed. Rests on:
decisions D3, D23, entries 12, 29. -/
def Obligations.InstantiatePtrng : Prop :=
  ∀ (s : State) (dfdis : Bool) (mul : BitVec 4) (a0 : HostAddr),
    MapOk s.params.map → s.inst = Instance.zero → a0 ≠ nullAddr → hostSeedLife s.mem a0 = 0 →
    mulLegal dfdis mul = true →
    ∃ w, exec (.instantiate 2 false dfdis mul false false a0) s =
      .next
        { s with
          inst := configuredInst .healthy .ptrng s.mem false dfdis mul false false a0
          port := Port.zeroed 0 w
          result := 0x00
          resetCount := s.resetCount + 1
          log := (hostLifeReads s.mem a0 ++ resetEvents s.params).reverse
          ret := .none }

/-- `INSTANTIATE` in DRNG mode: reset pulse, delivery of the record's seed, hardware reseed, HEALTHY. Rests on:
decisions D3, D14, D37, entries 12, 26, 27, 29. -/
def Obligations.InstantiateDrng : Prop :=
  ∀ (s : State) (pr dfdis : Bool) (mul : BitVec 4) (persp : Bool) (a0 : HostAddr) (done certf : Word)
      (rest : List Word) (i : Instance) (seed : List Byte),
    MapOk s.params.map → s.inst = Instance.zero → a0 ≠ nullAddr → 1 ≤ hostSeedLife s.mem a0 →
    hostSeedLife s.mem a0 ≤ 2 ^ 48 → mulLegal dfdis mul = true → ReseedDone s.params done certf →
    s.script = done :: certf :: rest → i = configuredInst .healthy .drng s.mem pr dfdis mul true persp a0 →
    seed = hostSeed s.mem a0 (entropySizeFor dfdis mul) →
    ∃ w, exec (.instantiate 1 pr dfdis mul true persp a0) s =
      .next
        { s with
          inst := i
          port := reseededPort s.params i seed certf (Port.zeroed 0 w)
          result := 0x00
          script := rest
          drawCount := s.drawCount + 2
          resetCount := s.resetCount + 1
          log :=
            (hostReads s.mem dfdis mul true persp a0 ++ resetEvents s.params ++ deliveryEvents s.params i seed ++
              reseedEvents s.params done certf).reverse
          ret := .none }

/-- `INSTANTIATE` in HRNG mode: reset pulse, `EntropySize` bytes collected with ENTROPY selected and free of the
forbidden words, delivery, hardware reseed, HEALTHY. Rests on: decisions D7, D14, D16, entries 12, 28, 29. -/
def Obligations.InstantiateHrng : Prop :=
  ∀ (s : State) (pr dfdis : Bool) (mul : BitVec 4) (persp : Bool) (a0 : HostAddr) (bs : List Burst)
      (done certf : Word) (rest : List Word) (i : Instance),
    MapOk s.params.map → s.inst = Instance.zero → a0 ≠ nullAddr → 1 ≤ hostSeedLife s.mem a0 →
    hostSeedLife s.mem a0 ≤ 2 ^ 48 → mulLegal dfdis mul = true → 16 * bs.length = entropySizeFor dfdis mul →
    (∀ b ∈ bs, b.Good s.params .hrng) → NoRepeat bs → NoForbidden bs → ReseedDone s.params done certf →
    s.script = burstDraws .hrng bs ++ done :: certf :: rest →
    i = configuredInst .healthy .hrng s.mem pr dfdis mul false persp a0 →
    ∃ w, exec (.instantiate 0 pr dfdis mul false persp a0) s =
      .next
        { s with
          inst := { i with win := windowAfter i.win bs }
          port := reseededPort s.params i (burstBytes bs) certf ((Port.zeroed 0 w).afterBursts s.params .hrng bs)
          result := 0x00
          script := rest
          drawCount := s.drawCount + ((burstDraws .hrng bs).length + 2)
          resetCount := s.resetCount + 1
          log :=
            (hostReads s.mem dfdis mul false persp a0 ++ resetEvents s.params ++
              collectEvents s.params .hrng .entropy .scratch bs ++ deliveryEvents s.params i (burstBytes bs) ++
              reseedEvents s.params done certf).reverse
          ret := .none }

/-- A failure of the reseed inside `INSTANTIATE`, in HRNG and in DRNG mode, whatever the failure: `RESULT` is its code,
`I.State` is CATASTROPHIC after 0x0B and 0x0C and ERROR otherwise, the configuration stays stored, nothing is rolled
back. `c` is where the reseed, run on its own from the configured and reset machine, ends. In particular, in DRNG mode,
CERTF read as 1 gives 0x09 and a DONE never shown gives 0x07, with the start bit still set. Rests on: decisions D5, D24,
D33, entries 6, 25, 29. -/
def Obligations.InstantiateReseedFailure : Prop :=
  ∀ (s : State) (mode : Mode) (pr dfdis : Bool) (mul : BitVec 4) (seedp persp : Bool) (a0 : HostAddr) (i : Instance)
      (seed : List Byte),
    MapOk s.params.map → s.inst = Instance.zero → a0 ≠ nullAddr → 1 ≤ hostSeedLife s.mem a0 →
    hostSeedLife s.mem a0 ≤ 2 ^ 48 → mulLegal dfdis mul = true →
    ((mode = .drng ∧ seedp = true) ∨ (mode = .hrng ∧ seedp = false)) →
    i = configuredInst .uninitialized mode s.mem pr dfdis mul seedp persp a0 →
    seed = hostSeed s.mem a0 (entropySizeFor dfdis mul) →
    (∃ w, ∀ (c : State) (e : Status) (code : BitVec 8) (st : RunState),
      exec (.reseedCore (if seedp then some seed else none) mul)
        { s with inst := i, port := Port.zeroed 0 w, resetCount := s.resetCount + 1 } = .next c →
      c.ret = .outcome (some e) → ReseedFailure e code st →
      exec (.instantiate (modeBits mode) pr dfdis mul seedp persp a0) s =
          .next (c.failed code st (hostReads s.mem dfdis mul seedp persp a0 ++ resetEvents s.params).reverse) ∧
        c.inst = { i with win := c.inst.win, state := c.inst.state }) ∧
    ∀ (vs : List Word) (v : Word) (rest : List Word) (code : BitVec 8), mode = .drng → 1 ≤ s.params.pollSleepUs →
      s.script = vs ++ v :: rest →
      ((∃ done, vs = [done] ∧ done &&& s.params.map.statusDone = s.params.map.statusDone ∧
          v &&& s.params.map.statusCertf ≠ 0 ∧ code = 0x09) ∨
        (NeverShows s.params s.params.map.statusDone s.params.map.statusDone (vs ++ [v]) ∧ code = 0x07 ∧
          vs.length = (s.params.tReseedUs + s.params.pollSleepUs - 1) / s.params.pollSleepUs)) →
      ∃ t, exec (.instantiate 1 pr dfdis mul true persp a0) s = .next t ∧ t.inst = { i with state := .error } ∧
        t.result = code ∧ t.port.ctrl = started s.params.map .reseedExt ∧ t.port.status = shown s.params v ∧
        t.held = false ∧ t.mem = s.mem ∧ t.script = rest ∧ t.port.extSeed = groupWords (deliveredSeed i seed)

/-- `RESEED`'s guards in order (missing seed, superfluous seed, multiplier, replay): each sets ERROR with its code and
touches neither the counters nor the port; only the replay check has read the seed. Rests on: decisions D5, D19, D21,
D37, entry 35. -/
def Obligations.ReseedGuards : Prop :=
  ∀ (s : State) (mul : BitVec 4) (seedp : Bool) (a0 : HostAddr) (code : BitVec 8),
    s.inst.state = .healthy → s.inst.mode ≠ .ptrng → (seedp = true → a0 ≠ nullAddr) →
    code =
      (if s.inst.mode = .drng ∧ seedp = false then 0x04
      else if s.inst.mode = .hrng ∧ seedp = true then 0x03
      else if s.inst.dfDisabled = false ∧ (mul.toNat < 2 ∨ 9 < mul.toNat) then 0x01
      else if s.inst.dfDisabled = true ∧ mul ≠ 0 then 0x01
      else if s.inst.mode = .drng ∧
          (∀ k : Fin 160, k.val < entropySizeFor s.inst.dfDisabled mul →
            memRead s.mem (a0.toNat + 8 + k.val) = s.inst.initSeed[k]) then 0x05
      else 0x00) →
    code ≠ 0x00 →
    exec (.reseed mul seedp a0) s =
      .next
        { s with
          inst := { s.inst with state := .error }
          result := code
          log := if code = 0x05 then [hostSeedRead s.mem a0 (entropySizeFor s.inst.dfDisabled mul)] else []
          ret := .none }

/-- `RESEED` in DRNG mode with a seed that differs from the initial seed in some byte: delivery and hardware reseed,
counters cleared, `I.InitSeed` kept; where the reseed, run on its own, fails in state `c`, the command ends there with
the failure's code and `I.State`. Rests on: decisions D5, D14, D21, D33, D37, entries 6, 27, 29, 35. -/
def Obligations.ReseedDrng : Prop :=
  ∀ (s : State) (mul : BitVec 4) (a0 : HostAddr) (seed : List Byte) (k : Fin 160),
    s.inst.state = .healthy → s.inst.mode = .drng → a0 ≠ nullAddr → mulLegal s.inst.dfDisabled mul = true →
    seed = hostSeed s.mem a0 (entropySizeFor s.inst.dfDisabled mul) →
    k.val < entropySizeFor s.inst.dfDisabled mul → memRead s.mem (a0.toNat + 8 + k.val) ≠ s.inst.initSeed[k] →
    (∀ (done certf : Word) (rest : List Word), MapOk s.params.map → s.held = false → ReseedDone s.params done certf →
      s.script = done :: certf :: rest →
      exec (.reseed mul true a0) s =
        .next
          { s with
            inst := reseededInst mul s.inst
            port := reseededPort s.params s.inst seed certf s.port
            result := 0x00
            script := rest
            drawCount := s.drawCount + 2
            log :=
              ([hostSeedRead s.mem a0 (entropySizeFor s.inst.dfDisabled mul)] ++
                deliveryEvents s.params s.inst seed ++ reseedEvents s.params done certf).reverse
            ret := .none }) ∧
    ∀ (c : State) (e : Status) (code : BitVec 8) (st : RunState),
      exec (.reseedCore (some seed) mul) s = .next c → c.ret = .outcome (some e) → ReseedFailure e code st →
      exec (.reseed mul true a0) s =
        .next (c.failed code st [hostSeedRead s.mem a0 (entropySizeFor s.inst.dfDisabled mul)])

/-- `RESEED` in HRNG mode: `EntropySize` bytes of fresh entropy instead of a seed. A forbidden word among them, found
after the whole collection, ends it with 0x0A and ERROR before anything is delivered; where the reseed, run on its own,
fails in state `c`, the command ends there with the failure's code and `I.State`. Rests on: decisions D5, D7, D14, D16,
D24, D33, entries 6, 25, 27, 28, 29. -/
def Obligations.ReseedHrng : Prop :=
  ∀ (s : State) (mul : BitVec 4) (a0 : HostAddr),
    s.inst.state = .healthy → s.inst.mode = .hrng → mulLegal s.inst.dfDisabled mul = true →
    (∀ (bs : List Burst) (done certf : Word) (rest : List Word), MapOk s.params.map → s.held = false →
      16 * bs.length = entropySizeFor s.inst.dfDisabled mul → (∀ b ∈ bs, b.Good s.params .hrng) → NoRepeat bs →
      NoForbidden bs → ReseedDone s.params done certf → s.script = burstDraws .hrng bs ++ done :: certf :: rest →
      exec (.reseed mul false a0) s =
        .next
          { s with
            inst := { reseededInst mul s.inst with win := windowAfter s.inst.win bs }
            port := reseededPort s.params s.inst (burstBytes bs) certf (s.port.afterBursts s.params .hrng bs)
            result := 0x00
            script := rest
            drawCount := s.drawCount + ((burstDraws .hrng bs).length + 2)
            log :=
              (collectEvents s.params .hrng .entropy .scratch bs ++ deliveryEvents s.params s.inst (burstBytes bs) ++
                reseedEvents s.params done certf).reverse
            ret := .none }) ∧
    (∀ (bs : List Burst) (rest : List Word), MapOk s.params.map → s.held = false →
      16 * bs.length = entropySizeFor s.inst.dfDisabled mul → (∀ b ∈ bs, b.Good s.params .hrng) → NoRepeat bs →
      ¬ NoForbidden bs → s.script = burstDraws .hrng bs ++ rest →
      exec (.reseed mul false a0) s =
        .next
          { s with
            inst := { reseededInst mul s.inst with win := windowAfter s.inst.win bs, state := .error }
            port := { s.port with ctrl := started s.params.map .entropy }.afterBursts s.params .hrng bs
            result := 0x0A
            script := rest
            drawCount := s.drawCount + (burstDraws .hrng bs).length
            log := (collectEvents s.params .hrng .entropy .scratch bs).reverse
            ret := .none }) ∧
    ∀ (c : State) (e : Status) (code : BitVec 8) (st : RunState),
      exec (.reseedCore none mul) s = .next c → c.ret = .outcome (some e) → ReseedFailure e code st →
      exec (.reseed mul false a0) s = .next (c.failed code st [])

/-- `ReseedCore` run on its own, in DRNG mode with a seed and in HRNG mode without one: it returns `ok`, writes neither
`I.State` nor `RESULT`. Rests on: run on its own: the model's, entry 6; decisions D14, D16, D33, entries 27, 28, 29. -/
def Obligations.ReseedCoreCompletes : Prop :=
  ∀ (s : State) (m : BitVec 4) (done certf : Word) (rest : List Word),
    MapOk s.params.map → s.held = false → mulLegal s.inst.dfDisabled m = true → ReseedDone s.params done certf →
    (∀ seed : List Byte, s.inst.mode = .drng → seed.length = entropySizeFor s.inst.dfDisabled m →
      s.script = done :: certf :: rest →
      exec (.reseedCore (some seed) m) s =
        .next
          { s with
            inst := reseededInst m s.inst
            port := reseededPort s.params s.inst seed certf s.port
            script := rest
            drawCount := s.drawCount + 2
            log := (deliveryEvents s.params s.inst seed ++ reseedEvents s.params done certf).reverse
            ret := .outcome none }) ∧
    ∀ bs : List Burst, s.inst.mode = .hrng → 16 * bs.length = entropySizeFor s.inst.dfDisabled m →
      (∀ b ∈ bs, b.Good s.params .hrng) → NoRepeat bs → NoForbidden bs →
      s.script = burstDraws .hrng bs ++ done :: certf :: rest →
      exec (.reseedCore none m) s =
        .next
          { s with
            inst := { reseededInst m s.inst with win := windowAfter s.inst.win bs }
            port := reseededPort s.params s.inst (burstBytes bs) certf (s.port.afterBursts s.params .hrng bs)
            script := rest
            drawCount := s.drawCount + ((burstDraws .hrng bs).length + 2)
            log :=
              (collectEvents s.params .hrng .entropy .scratch bs ++ deliveryEvents s.params s.inst (burstBytes bs) ++
                reseedEvents s.params done certf).reverse
            ret := .outcome none }

/-- A reseed whatever the environment answers, however it ends: the two since-reseed counters are zero, multiplier and
`EntropySize` are this call's, `I.RandBytesTotal` is kept, `I.State` is written only by a catastrophic detection, host
memory is untouched, and the accesses are bounded. In HRNG mode it begins with ENTROPY programmed (state `a`) and
`EntropySize` bytes collected (state `c`): a failed collection's code is passed on, and a forbidden word in the
collected bytes fails with `ERR_CERTF_SW`, with nothing done after it. Rests on: decisions D21, D24, entries 6, 25. -/
def Obligations.ReseedCoreIsEagerAndBounded : Prop :=
  ∀ (s : State) (seed : Option (List Byte)) (m : BitVec 4), mulLegal s.inst.dfDisabled m = true →
    (s.inst.mode = .drng → seed.map List.length = some (entropySizeFor s.inst.dfDisabled m)) →
    (∃ t f, exec (.reseedCore seed m) s = .next t ∧ t.ret = .outcome f ∧
      t.inst =
        { reseededInst m s.inst with
          win := t.inst.win
          state :=
            if f = some .errCatastrophicDtf ∨ f = some .errCatastrophicSw then .catastrophic else s.inst.state } ∧
      t.result = s.result ∧ t.mem = s.mem ∧ t.port.reset = s.port.reset ∧ t.resetCount = s.resetCount ∧
      accessCount t.log ≤
        1 + 2 + 10 * (maxPollReads s.params.tBurstUs s.params.pollSleepUs + 5) + 24 + 1 + 2 +
          maxPollReads s.params.tReseedUs s.params.pollSleepUs + 1 + 2) ∧
    (s.inst.mode = .hrng → ∀ (a c : State) (f : Option Status) (b : List Byte),
      exec (.hwProgram .entropy) { s with inst := reseededInst m s.inst } = .next a →
      exec (.collectBurst .scratch (entropySizeFor s.inst.dfDisabled m)) a = .next c → c.ret = .collected f b →
      (∀ e, f = some e →
        exec (.reseedCore seed m) s = .next { c with log := c.log ++ a.log, ret := .outcome (some e) }) ∧
      (f = none → ForbiddenWord b (entropySizeFor s.inst.dfDisabled m) →
        exec (.reseedCore seed m) s = .next { c with log := c.log ++ a.log, ret := .outcome (some .errCertfSw) }))

/-- `GENERATE`'s checks in order (size, prediction resistance in PTRNG, prediction resistance not enabled, and in DRNG
mode the seed policy): each sets ERROR with its code; the statistics, the port and the buffer are untouched. Rests on:
decisions D5, D22, D29, D40, entries 22, 35. -/
def Obligations.GenerateChecks : Prop :=
  ∀ (s : State) (pr : Bool) (size : BitVec 24) (a0 : HostAddr) (code : BitVec 8),
    s.inst.state = .healthy → a0 ≠ nullAddr →
    code =
      (if size.toNat < 32 then 0x01
      else if pr = true ∧ s.inst.mode = .ptrng then 0x03
      else if pr = true ∧ s.inst.predResEn = false then 0x01
      else if s.inst.mode = .drng ∧ s.inst.seedLife.toNat < s.inst.generateCallsSinceReseed.toNat then 0x06
      else if s.inst.mode = .drng ∧ s.params.drngSeedLifeInclusive = true ∧
          s.inst.seedLife.toNat = s.inst.generateCallsSinceReseed.toNat then 0x06
      else if s.inst.mode = .drng ∧ pr = true ∧ 1 ≤ s.inst.generateCallsSinceReseed.toNat then 0x06
      else 0x00) →
    code ≠ 0x00 →
    exec (.generate pr size a0) s =
      .next { s with inst := { s.inst with state := .error }, result := code, log := [], ret := .none }

/-- `GENERATE` in HRNG or DRNG mode within its policy: two bursts of hardware output under PRNG_GEN into `buf[0..31]`,
whatever `SIZE` from 32 on is, and the statistics. Where the collection into the buffer, run on its own after PRNG_GEN
is programmed, fails in state `c`, `GENERATE` ends there: 0x08 with ERROR, 0x0B or 0x0C with CATASTROPHIC, the buffer as
the collection left it, the statistics as they were. Rests on: decisions D5, D15, D16, D22, D24, D29, D40, entries 3, 6,
22, 25, 27, 28. -/
def Obligations.GenerateHardwareOutput : Prop :=
  ∀ (s : State) (pr : Bool) (size : BitVec 24) (a0 : HostAddr),
    s.inst.state = .healthy → s.inst.mode ≠ .ptrng → a0 ≠ nullAddr → 32 ≤ size.toNat →
    (pr = true → s.inst.predResEn = true ∧ s.inst.generateCallsSinceReseed = 0) →
    (s.inst.mode = .hrng → s.inst.generateCallsSinceReseed.toNat < s.inst.seedLife.toNat) →
    (s.inst.mode = .drng → s.inst.generateCallsSinceReseed.toNat ≤ s.inst.seedLife.toNat ∧
      (s.params.drngSeedLifeInclusive = true →
        s.inst.generateCallsSinceReseed.toNat ≠ s.inst.seedLife.toNat)) →
    (∀ (b0 b1 : Burst) (rest : List Word), MapOk s.params.map → s.held = false → b0.Good s.params s.inst.mode →
      b1.Good s.params s.inst.mode → b0.words ≠ b1.words → Memory.wf s.mem = true →
      s.script = burstDraws s.inst.mode [b0, b1] ++ rest →
      ∃ t, exec (.generate pr size a0) s = .next t ∧
        t =
          { s with
            inst := { countedInst s.inst with win := b1.words }
            port :=
              { s.port with
                ctrl := started s.params.map .prngGen
                status := shown s.params b1.dtf
                coreOutput := b1.words[3] }
            result := 0x00
            mem := t.mem
            script := rest
            drawCount := s.drawCount + 12
            log := (collectEvents s.params s.inst.mode .prngGen (.host a0) [b0, b1]).reverse
            ret := .none } ∧
        Stored (.host a0) (burstBytes [b0, b1]) s.mem t.mem) ∧
    ∀ (a c : State) (e : Status) (b : List Byte) (code : BitVec 8) (st : RunState),
      exec (.hwProgram .prngGen) s = .next a → exec (.collectBurst (.host a0) 32) a = .next c →
      c.ret = .collected (some e) b → CollectFailure e code st →
      exec (.generate pr size a0) s = .next (c.failed code st a.log)

/-- `GENERATE` in PTRNG mode: with the DF disabled two bursts of raw entropy; with it enabled the first 32 bytes of the
DF, tag 32, of `EntropySize` bytes of entropy. No DTF read, no seed policy. Where the collection (into the buffer, or
into the transient buffer the DF reads) fails in state `c`, `GENERATE` ends there with the failure's code and `I.State`,
the statistics as they were. Rests on: decisions D5, D7, D15, D16, D22, D23, D24, entries 3, 6, 23, 25, 27, 28. -/
def Obligations.GeneratePtrngOutput : Prop :=
  ∀ (s : State) (size : BitVec 24) (a0 : HostAddr),
    s.inst.state = .healthy → s.inst.mode = .ptrng → a0 ≠ nullAddr → 32 ≤ size.toNat →
    (∀ (bs : List Burst) (rest : List Word) (out : List Byte), MapOk s.params.map → s.held = false →
      (∀ b ∈ bs, b.Good s.params .ptrng) → NoRepeat bs → Memory.wf s.mem = true → bs ≠ [] →
      16 * bs.length = (if s.inst.dfDisabled then 32 else s.inst.entropySize.toNat) →
      out = (if s.inst.dfDisabled then burstBytes bs
        else (df Config.blockCipher (burstBytes bs) none .random).toList.take 32) →
      s.script = burstDraws .ptrng bs ++ rest →
      ∃ t, exec (.generate false size a0) s = .next t ∧
        t =
          { s with
            inst := { countedInst s.inst with win := windowAfter s.inst.win bs }
            port := { s.port with ctrl := started s.params.map .entropy }.afterBursts s.params .ptrng bs
            result := 0x00
            mem := t.mem
            script := rest
            drawCount := s.drawCount + 5 * bs.length
            log :=
              (if s.inst.dfDisabled then collectEvents s.params .ptrng .entropy (.host a0) bs
                else collectEvents s.params .ptrng .entropy .scratch bs ++ [Event.memWr a0.toNat out]).reverse
            ret := .none } ∧
        Stored (.host a0) out s.mem t.mem) ∧
    ∀ (a c : State) (e : Status) (b : List Byte) (code : BitVec 8) (st : RunState),
      exec (.hwProgram .entropy) s = .next a →
      exec (if s.inst.dfDisabled then .collectBurst (.host a0) 32 else .collectBurst .scratch s.inst.entropySize.toNat) a =
        .next c →
      c.ret = .collected (some e) b → CollectFailure e code st →
      exec (.generate false size a0) s = .next (c.failed code st a.log)

/-- `GENERATE` in HRNG mode when the seed life has elapsed or prediction resistance is due: the block reseeds itself
from fresh entropy with the last multiplier and then delivers; the call counter is 1 afterwards. Where the reseed, run
on its own, ends in state `c`: if it failed, `GENERATE` ends there with the failure's code and `I.State`; if it is done,
`GENERATE` goes on as a `GENERATE` from `c`. Rests on: decisions D5, D7, D14, D16, D24, D40, entries 3, 6, 25, 27, 28,
29. -/
def Obligations.GenerateSelfHeals : Prop :=
  ∀ (s : State) (pr : Bool) (size : BitVec 24) (a0 : HostAddr),
    s.inst.state = .healthy → s.inst.mode = .hrng → a0 ≠ nullAddr → 32 ≤ size.toNat →
    (pr = true → s.inst.predResEn = true) →
    (s.inst.seedLife.toNat ≤ s.inst.generateCallsSinceReseed.toNat ∨
      (pr = true ∧ 1 ≤ s.inst.generateCallsSinceReseed.toNat)) →
    (∀ (bs : List Burst) (done certf : Word) (b0 b1 : Burst) (rest : List Word),
      MapOk s.params.map → s.held = false → mulLegal s.inst.dfDisabled s.inst.dfLenMul = true →
      16 * bs.length = entropySizeFor s.inst.dfDisabled s.inst.dfLenMul →
      (∀ b ∈ bs ++ [b0, b1], b.Good s.params .hrng) → NoRepeat bs → NoForbidden bs →
      ReseedDone s.params done certf → b0.words ≠ b1.words → Memory.wf s.mem = true →
      s.script = burstDraws .hrng bs ++ done :: certf :: burstDraws .hrng [b0, b1] ++ rest →
      ∃ t, exec (.generate pr size a0) s = .next t ∧
        t =
          { s with
            inst := { countedInst (reseededInst s.inst.dfLenMul s.inst) with win := b1.words }
            port :=
              { reseededPort s.params s.inst (burstBytes bs) certf s.port with
                ctrl := started s.params.map .prngGen
                status := shown s.params b1.dtf
                coreOutput := b1.words[3] }
            result := 0x00
            mem := t.mem
            script := rest
            drawCount := s.drawCount + ((burstDraws .hrng bs).length + 14)
            log :=
              (collectEvents s.params .hrng .entropy .scratch bs ++ deliveryEvents s.params s.inst (burstBytes bs) ++
                reseedEvents s.params done certf ++
                collectEvents s.params .hrng .prngGen (.host a0) [b0, b1]).reverse
            ret := .none } ∧
        t.inst.generateCallsSinceReseed = 1 ∧ t.inst.randBytesSinceReseed = 32 ∧
        Stored (.host a0) (burstBytes [b0, b1]) s.mem t.mem) ∧
    (∀ (c : State) (e : Status) (code : BitVec 8) (st : RunState),
      exec (.reseedCore none s.inst.dfLenMul) s = .next c → c.ret = .outcome (some e) → ReseedFailure e code st →
      exec (.generate pr size a0) s = .next (c.failed code st [])) ∧
    ∀ c d : State, 1 ≤ s.inst.seedLife.toNat → exec (.reseedCore none s.inst.dfLenMul) s = .next c →
      c.ret = .outcome none → exec (.generate pr size a0) c = .next d →
      exec (.generate pr size a0) s = .next { d with log := d.log ++ c.log }

/-- The statistics: a successful `GENERATE` adds 32, 32 and 1; a failed one leaves them as they were, except that a
self-heal, once started, has zeroed the two since-reseed counters. `heals`: HRNG mode with the seed life elapsed or
prediction resistance due; `starts`: such a call that passes the checks before the seed policy. Rests on: decisions D26,
D40, entries 34, 35. -/
def Obligations.GenerateStatistics : Prop :=
  ∀ (s t : State) (pr : Bool) (size : BitVec 24) (a0 : HostAddr) (heals starts : Prop),
    exec (.generate pr size a0) s = .next t →
    (heals ↔ s.inst.mode = .hrng ∧ (s.inst.seedLife.toNat ≤ s.inst.generateCallsSinceReseed.toNat ∨
      (pr = true ∧ 1 ≤ s.inst.generateCallsSinceReseed.toNat))) →
    (starts ↔ heals ∧ s.inst.state = .healthy ∧ a0 ≠ nullAddr ∧ 32 ≤ size.toNat ∧
      (pr = true → s.inst.predResEn = true)) →
    (t.result = 0x00 →
      t.inst.randBytesTotal = s.inst.randBytesTotal + 32 ∧
        (¬ heals → t.inst.randBytesSinceReseed = s.inst.randBytesSinceReseed + 32 ∧
          t.inst.generateCallsSinceReseed = s.inst.generateCallsSinceReseed + 1) ∧
        (heals → t.inst.randBytesSinceReseed = 32 ∧ t.inst.generateCallsSinceReseed = 1)) ∧
    (t.result ≠ 0x00 →
      t.inst.randBytesTotal = s.inst.randBytesTotal ∧
        (¬ starts → t.inst.randBytesSinceReseed = s.inst.randBytesSinceReseed ∧
          t.inst.generateCallsSinceReseed = s.inst.generateCallsSinceReseed) ∧
        (starts → t.inst.randBytesSinceReseed = 0 ∧ t.inst.generateCallsSinceReseed = 0))

/-- `UNINSTANTIATE` from every state but UNINITIALIZED: 24 zero writes, then the hardware held in reset, then the
instance all zero. Rests on: decisions D8, D27, entries 12, 24, 29. -/
def Obligations.UninstantiateZeroesEverything : Prop :=
  ∀ s : State, MapOk s.params.map → s.inst.state ≠ .uninitialized →
    ∃ w, exec .uninstantiate s =
      .next
        { s with
          inst := Instance.zero
          port := Port.zeroed s.params.map.resetAssert w
          result := 0x00
          resetCount := s.resetCount + 1
          log :=
            (zeroizeEvents s.params ++ [Event.wr (portAddr s.params .reset) s.params.map.resetAssert]).reverse
          ret := .none } ∧
      accessCount
        ((zeroizeEvents s.params ++ [Event.wr (portAddr s.params .reset) s.params.map.resetAssert]).reverse) = 25

/-- `RUNKAT` on a hardware that reseeds and delivers two different bursts: with bytes equal to `KAT_EXPECTED` it
succeeds and leaves the instance zero and the hardware held; with any other bytes it answers 0x0D and leaves ERROR.
Rests on: decision D25, entries 11, 30. -/
def Obligations.RunKatComparesTheOutput : Prop :=
  ∀ (s : State) (done certf : Word) (b0 b1 : Burst) (rest : List Word),
    MapOk s.params.map → s.inst = Instance.zero → 2 ≤ s.params.katMul.toNat → s.params.katMul.toNat ≤ 9 →
    1 ≤ s.params.katLife.toNat → s.params.katLife.toNat ≤ 2 ^ 48 → ReseedDone s.params done certf →
    b0.Good s.params .drng → b1.Good s.params .drng → b0.words ≠ b1.words →
    s.script = done :: certf :: burstDraws .drng [b0, b1] ++ rest →
    (burstBytes [b0, b1] = s.params.katExpected.toList →
      ∃ w tr, exec .runKat s =
        .next
          { s with
            inst := Instance.zero
            port := Port.zeroed s.params.map.resetAssert w
            result := 0x00
            script := rest
            drawCount := s.drawCount + 14
            resetCount := s.resetCount + 2
            log := tr
            ret := .none } ∧ accessCount tr = 21 + 15 + 25) ∧
    (burstBytes [b0, b1] ≠ s.params.katExpected.toList →
      ∃ t, exec .runKat s = .next t ∧ t.result = 0x0D ∧ t.inst.state = .error ∧ t.inst.mode = .drng ∧
        t.inst.randBytesTotal = 32 ∧ t.inst.generateCallsSinceReseed = 1 ∧ t.mem = s.mem ∧
        t.port.ctrl = started s.params.map .prngGen ∧ t.held = false ∧ accessCount t.log = 21 + 15)

/-- `RUNHEALTHTEST` on eight good, different bursts and a reseed that is done without CERTF: success, instance zero,
hardware held. Rests on: decision D25, entries 11, 30. -/
def Obligations.RunHealthTestPasses : Prop :=
  ∀ (s : State) (bs : List Burst) (done certf : Word) (rest : List Word),
    MapOk s.params.map → s.inst = Instance.zero → 1 ≤ s.params.healthSeedLife.toNat →
    s.params.healthSeedLife.toNat ≤ 2 ^ 48 → bs.length = 8 → (∀ b ∈ bs, b.Good s.params .hrng) → NoRepeat bs →
    NoForbidden bs → ReseedDone s.params done certf → s.script = burstDraws .hrng bs ++ done :: certf :: rest →
    ∃ w tr, exec .runHealthTest s =
      .next
        { s with
          inst := Instance.zero
          port := Port.zeroed s.params.map.resetAssert w
          result := 0x00
          script := rest
          drawCount := s.drawCount + 50
          resetCount := s.resetCount + 2
          log := tr
          ret := .none } ∧ accessCount tr = 5 + 6 * 8 + 12 + 7 + 25

/-- `REINSTANTIATE` of a legal PTRNG configuration from every state but UNINITIALIZED: nothing of the old instance
survives. Rests on: decisions D8, D27, entries 12, 19, 24, 29. -/
def Obligations.ReinstantiateStartsAfresh : Prop :=
  ∀ (s : State) (dfdis : Bool) (mul : BitVec 4) (a0 : HostAddr),
    MapOk s.params.map → s.inst.state ≠ .uninitialized → a0 ≠ nullAddr → hostSeedLife s.mem a0 = 0 →
    mulLegal dfdis mul = true →
    ∃ w, exec (.reinstantiate 2 false dfdis mul false false a0) s =
      .next
        { s with
          inst := configuredInst .healthy .ptrng s.mem false dfdis mul false false a0
          port := Port.zeroed 0 w
          result := 0x00
          resetCount := s.resetCount + 2
          log :=
            (zeroizeEvents s.params ++ [Event.wr (portAddr s.params .reset) s.params.map.resetAssert] ++
              hostLifeReads s.mem a0 ++ resetEvents s.params).reverse
          ret := .none }

/-- `REINSTANTIATE` is `UNINSTANTIATE` followed by `INSTANTIATE`, in every form and from every state, whatever the first
answers: the same next state, with the events of both. Rests on: whatever the first answers: the model's reading, entry
19. -/
def Obligations.ReinstantiateIsBothInOrder : Prop :=
  ∀ (s : State) (mode : BitVec 2) (pr dfdis : Bool) (mul : BitVec 4) (seedp persp : Bool) (a0 : HostAddr),
    ∃ t u, exec .uninstantiate s = .next t ∧ exec (.instantiate mode pr dfdis mul seedp persp a0) t = .next u ∧
      exec (.reinstantiate mode pr dfdis mul seedp persp a0) s = .next { u with log := u.log ++ t.log }
end

