-- ==== Sys2Proof/Laws/Memory.lean ====
section
/-! SUPPORT. The laws of host memory (20_memory.md R84): a read after a write, every other byte unchanged, the canonical
form kept. -/

namespace Sys2Proof.Machine

/-- Every listed address is above `n`. -/
def Memory.above (n : Nat) (m : Memory) : Prop := ∀ c ∈ m, n < c.1

/-- The canonical form of a non-empty memory, entry by entry. -/
theorem Memory.wf_cons (a : Nat) (v : Byte) (m : Memory) :
    Memory.wf ((a, v) :: m) = true ↔ v ≠ Config.unwrittenByte ∧ Memory.above a m ∧ Memory.wf m = true := by
  induction m generalizing a v with
  | nil => simp [Memory.wf, Memory.above]
  | cons c m ih =>
    obtain ⟨b, w⟩ := c
    rw [Memory.wf]
    simp only [Bool.and_eq_true, bne_iff_ne, decide_eq_true_eq, ih]
    constructor
    · rintro ⟨⟨hv, hab⟩, hw, hb, hm⟩
      exact ⟨hv, by
        intro c hc
        rcases List.mem_cons.1 hc with rfl | hc
        · exact hab
        · exact hab.trans (hb c hc), hw, hb, hm⟩
    · rintro ⟨hv, ha, hw, hb, hm⟩
      exact ⟨⟨hv, ha _ (List.mem_cons_self ..)⟩, hw, hb, hm⟩

/-- An address at or below a bound of the listed ones is unlisted. -/
theorem memRead_of_above {a : Nat} {m : Memory} (h : Memory.above a m) {b : Nat} (hb : b ≤ a) :
    memRead m b = Config.unwrittenByte := by
  induction m with
  | nil => rfl
  | cons c m ih =>
    obtain ⟨k, w⟩ := c
    have := h (k, w) (List.mem_cons_self ..)
    simp only at this
    rw [memRead, if_neg (by omega)]
    exact ih fun c hc => h c (List.mem_cons_of_mem _ hc)

/-- A write leaves every other byte alone, in any memory. -/
theorem memRead_memWrite_ne (m : Memory) {a b : Nat} (v : Byte) (h : b ≠ a) :
    memRead (memWrite m a v) b = memRead m b := by
  induction m with
  | nil =>
    unfold memWrite
    split
    · rfl
    · simp only [memRead]; rw [if_neg (Ne.symm h)]
  | cons c m ih =>
    obtain ⟨k, w⟩ := c
    unfold memWrite
    split_ifs with h1 h2 h3 h4
    · rfl
    · rw [memRead, if_neg (Ne.symm h)]
    · subst h3; rw [memRead, if_neg (Ne.symm h)]
    · subst h3; rw [memRead, memRead, if_neg (Ne.symm h), if_neg (Ne.symm h)]
    · rw [memRead, memRead, ih]

/-- A byte reads as it was written. -/
theorem memRead_memWrite_self (m : Memory) (h : Memory.wf m = true) (a : Nat) (v : Byte) :
    memRead (memWrite m a v) a = v := by
  induction m with
  | nil =>
    unfold memWrite
    split_ifs with h1
    · exact h1.symm
    · rw [memRead, if_pos rfl]
  | cons c m ih =>
    obtain ⟨k, w⟩ := c
    rw [Memory.wf_cons] at h
    obtain ⟨-, hk, hm⟩ := h
    unfold memWrite
    split_ifs with h1 h2 h3 h4
    · rw [h2, memRead, if_neg (by omega)]; exact memRead_of_above hk h1.le
    · rw [memRead, if_pos rfl]
    · rw [h4]; exact memRead_of_above hk h3.le
    · rw [memRead, if_pos rfl]
    · rw [memRead, if_neg (Ne.symm h3)]; exact ih hm

/-- Reading one byte after writing one byte. -/
theorem memRead_memWrite (m : Memory) (h : Memory.wf m = true) (a b : Nat) (v : Byte) :
    memRead (memWrite m a v) b = if b = a then v else memRead m b := by
  split_ifs with hb
  · subst hb; exact memRead_memWrite_self m h _ v
  · exact memRead_memWrite_ne m v hb

/-- A write above a bound keeps the bound. -/
theorem memWrite_above {n a : Nat} {m : Memory} (h : Memory.above n m) (ha : n < a) (v : Byte) :
    Memory.above n (memWrite m a v) := by
  induction m with
  | nil => unfold memWrite Memory.above; split_ifs <;> simp [ha]
  | cons c m ih =>
    obtain ⟨k, w⟩ := c
    have h1 := h (k, w) (List.mem_cons_self ..)
    have h2 : Memory.above n m := fun c hc => h c (List.mem_cons_of_mem _ hc)
    unfold memWrite Memory.above
    split_ifs <;> intro c hc
    · exact h c hc
    · rcases List.mem_cons.1 hc with rfl | hc; exacts [ha, h c hc]
    · exact h2 c hc
    · rcases List.mem_cons.1 hc with rfl | hc; exacts [ha, h2 c hc]
    · rcases List.mem_cons.1 hc with rfl | hc; exacts [h1, ih h2 c hc]

/-- A write keeps the canonical form. -/
theorem memWrite_wf (m : Memory) (h : Memory.wf m = true) (a : Nat) (v : Byte) : Memory.wf (memWrite m a v) = true := by
  induction m with
  | nil => unfold memWrite; split_ifs with h1; exacts [h, by rw [Memory.wf]; exact bne_iff_ne.2 h1]
  | cons c m ih =>
    obtain ⟨k, w⟩ := c
    have h' := h
    rw [Memory.wf_cons] at h
    obtain ⟨hw, hk, hm⟩ := h
    unfold memWrite
    split_ifs with h1 h2 h3 h4
    · exact h'
    · rw [Memory.wf_cons]
      refine ⟨h2, ?_, h'⟩
      intro c hc
      rcases List.mem_cons.1 hc with rfl | hc
      exacts [h1, h1.trans (hk c hc)]
    · exact hm
    · rw [Memory.wf_cons]; exact ⟨h4, h3 ▸ hk, hm⟩
    · rw [Memory.wf_cons]; exact ⟨hw, memWrite_above hk (by omega) v, ih hm⟩

/-- A write of a byte string keeps the canonical form. -/
theorem memWriteBytes_wf (m : Memory) (h : Memory.wf m = true) (a : Nat) (b : List Byte) :
    Memory.wf (memWriteBytes m a b) = true := by
  induction b generalizing m a with
  | nil => exact h
  | cons v b ih => exact ih _ (memWrite_wf m h a v) _

/-- Reading one byte after writing a byte string. -/
theorem memRead_memWriteBytes (m : Memory) (h : Memory.wf m = true) (a : Nat) (b : List Byte) (k : Nat) :
    memRead (memWriteBytes m a b) k = if a ≤ k ∧ k < a + b.length then b.getD (k - a) 0 else memRead m k := by
  induction b generalizing m a with
  | nil => simp [memWriteBytes]
  | cons v b ih =>
    rw [memWriteBytes, ih _ (memWrite_wf m h a v), memRead_memWrite m h]
    by_cases hk : k = a
    · subst hk
      rw [if_neg (by omega), if_pos rfl, if_pos (by simp)]; simp
    · simp only [List.length_cons, if_neg hk]
      by_cases h2 : a + 1 ≤ k ∧ k < a + 1 + b.length
      · rw [if_pos h2, if_pos (by omega)]
        obtain ⟨j, rfl⟩ : ∃ j, k = a + (j + 1) := ⟨k - a - 1, by omega⟩
        have : a + (j + 1) - a = j + 1 := by omega
        have h3 : a + (j + 1) - (a + 1) = j := by omega
        rw [this, h3]; simp
      · rw [if_neg h2, if_neg (by omega)]

/-- A write of a byte string leaves every byte outside it alone, in any memory. -/
theorem memRead_memWriteBytes_outside (m : Memory) (a : Nat) (b : List Byte) (k : Nat)
    (hk : k < a ∨ a + b.length ≤ k) : memRead (memWriteBytes m a b) k = memRead m k := by
  induction b generalizing m a with
  | nil => rfl
  | cons v b ih =>
    simp only [List.length_cons] at hk
    rw [memWriteBytes, ih _ _ (by omega), memRead_memWrite_ne m v (by omega)]

/-- Writing two byte strings one after the other is writing their concatenation. -/
theorem memWriteBytes_append (m : Memory) (a : Nat) (b c : List Byte) :
    memWriteBytes m a (b ++ c) = memWriteBytes (memWriteBytes m a b) (a + b.length) c := by
  induction b generalizing m a with
  | nil => rfl
  | cons v b ih => simp only [List.cons_append, memWriteBytes, ih, List.length_cons]; congr 1; omega

/-- The reset memory is in canonical form. -/
theorem reset_memory_wf : Memory.wf State.reset.mem = true := rfl

end Sys2Proof.Machine
end

