-- ==== Sys2Proof/Laws/State.lean ====
section
/-! SUPPORT. One lemma per field per update of the state, true by `rfl`, so that no proof unfolds a record update. -/

namespace Sys2Proof.Machine

@[simp] theorem State.beginCommand_inst (s : State) : s.beginCommand.inst = s.inst := rfl
@[simp] theorem State.beginCommand_port (s : State) : s.beginCommand.port = s.port := rfl
@[simp] theorem State.beginCommand_result (s : State) : s.beginCommand.result = s.result := rfl
@[simp] theorem State.beginCommand_params (s : State) : s.beginCommand.params = s.params := rfl
@[simp] theorem State.beginCommand_mem (s : State) : s.beginCommand.mem = s.mem := rfl
@[simp] theorem State.beginCommand_commands (s : State) : s.beginCommand.commands = s.commands := rfl
@[simp] theorem State.beginCommand_cmdIndex (s : State) : s.beginCommand.cmdIndex = s.cmdIndex := rfl
@[simp] theorem State.beginCommand_script (s : State) : s.beginCommand.script = s.script := rfl
@[simp] theorem State.beginCommand_drawCount (s : State) : s.beginCommand.drawCount = s.drawCount := rfl
@[simp] theorem State.beginCommand_resetCount (s : State) : s.beginCommand.resetCount = s.resetCount := rfl
@[simp] theorem State.beginCommand_log (s : State) : s.beginCommand.log = [] := rfl
@[simp] theorem State.beginCommand_ret (s : State) : s.beginCommand.ret = .none := rfl

@[simp] theorem State.logEvent_inst (e : Event) (s : State) : (s.logEvent e).inst = s.inst := rfl
@[simp] theorem State.logEvent_port (e : Event) (s : State) : (s.logEvent e).port = s.port := rfl
@[simp] theorem State.logEvent_result (e : Event) (s : State) : (s.logEvent e).result = s.result := rfl
@[simp] theorem State.logEvent_params (e : Event) (s : State) : (s.logEvent e).params = s.params := rfl
@[simp] theorem State.logEvent_mem (e : Event) (s : State) : (s.logEvent e).mem = s.mem := rfl
@[simp] theorem State.logEvent_commands (e : Event) (s : State) : (s.logEvent e).commands = s.commands := rfl
@[simp] theorem State.logEvent_cmdIndex (e : Event) (s : State) : (s.logEvent e).cmdIndex = s.cmdIndex := rfl
@[simp] theorem State.logEvent_script (e : Event) (s : State) : (s.logEvent e).script = s.script := rfl
@[simp] theorem State.logEvent_drawCount (e : Event) (s : State) : (s.logEvent e).drawCount = s.drawCount := rfl
@[simp] theorem State.logEvent_resetCount (e : Event) (s : State) : (s.logEvent e).resetCount = s.resetCount := rfl
@[simp] theorem State.logEvent_log (e : Event) (s : State) : (s.logEvent e).log = e :: s.log := rfl
@[simp] theorem State.logEvent_ret (e : Event) (s : State) : (s.logEvent e).ret = s.ret := rfl

@[simp] theorem State.logEvents_inst (es : List Event) (s : State) : (s.logEvents es).inst = s.inst := rfl
@[simp] theorem State.logEvents_port (es : List Event) (s : State) : (s.logEvents es).port = s.port := rfl
@[simp] theorem State.logEvents_result (es : List Event) (s : State) : (s.logEvents es).result = s.result := rfl
@[simp] theorem State.logEvents_params (es : List Event) (s : State) : (s.logEvents es).params = s.params := rfl
@[simp] theorem State.logEvents_mem (es : List Event) (s : State) : (s.logEvents es).mem = s.mem := rfl
@[simp] theorem State.logEvents_commands (es : List Event) (s : State) : (s.logEvents es).commands = s.commands := rfl
@[simp] theorem State.logEvents_cmdIndex (es : List Event) (s : State) : (s.logEvents es).cmdIndex = s.cmdIndex := rfl
@[simp] theorem State.logEvents_script (es : List Event) (s : State) : (s.logEvents es).script = s.script := rfl
@[simp] theorem State.logEvents_drawCount (es : List Event) (s : State) : (s.logEvents es).drawCount = s.drawCount := rfl
@[simp] theorem State.logEvents_resetCount (es : List Event) (s : State) : (s.logEvents es).resetCount = s.resetCount := rfl
@[simp] theorem State.logEvents_log (es : List Event) (s : State) : (s.logEvents es).log = es.reverse ++ s.log := rfl
@[simp] theorem State.logEvents_ret (es : List Event) (s : State) : (s.logEvents es).ret = s.ret := rfl

@[simp] theorem State.memWriteAt_inst (a : Nat) (b : List Byte) (s : State) :
    (s.memWriteAt a b).inst = s.inst := rfl
@[simp] theorem State.memWriteAt_port (a : Nat) (b : List Byte) (s : State) :
    (s.memWriteAt a b).port = s.port := rfl
@[simp] theorem State.memWriteAt_result (a : Nat) (b : List Byte) (s : State) :
    (s.memWriteAt a b).result = s.result := rfl
@[simp] theorem State.memWriteAt_params (a : Nat) (b : List Byte) (s : State) :
    (s.memWriteAt a b).params = s.params := rfl
@[simp] theorem State.memWriteAt_mem (a : Nat) (b : List Byte) (s : State) :
    (s.memWriteAt a b).mem = memWriteBytes s.mem a b := rfl
@[simp] theorem State.memWriteAt_commands (a : Nat) (b : List Byte) (s : State) :
    (s.memWriteAt a b).commands = s.commands := rfl
@[simp] theorem State.memWriteAt_cmdIndex (a : Nat) (b : List Byte) (s : State) :
    (s.memWriteAt a b).cmdIndex = s.cmdIndex := rfl
@[simp] theorem State.memWriteAt_script (a : Nat) (b : List Byte) (s : State) :
    (s.memWriteAt a b).script = s.script := rfl
@[simp] theorem State.memWriteAt_drawCount (a : Nat) (b : List Byte) (s : State) :
    (s.memWriteAt a b).drawCount = s.drawCount := rfl
@[simp] theorem State.memWriteAt_resetCount (a : Nat) (b : List Byte) (s : State) :
    (s.memWriteAt a b).resetCount = s.resetCount := rfl
@[simp] theorem State.memWriteAt_log (a : Nat) (b : List Byte) (s : State) :
    (s.memWriteAt a b).log = .memWr a b :: s.log := rfl
@[simp] theorem State.memWriteAt_ret (a : Nat) (b : List Byte) (s : State) :
    (s.memWriteAt a b).ret = s.ret := rfl

@[simp] theorem State.returning_inst (r : Ret) (s : State) : (s.returning r).inst = s.inst := rfl
@[simp] theorem State.returning_port (r : Ret) (s : State) : (s.returning r).port = s.port := rfl
@[simp] theorem State.returning_result (r : Ret) (s : State) : (s.returning r).result = s.result := rfl
@[simp] theorem State.returning_params (r : Ret) (s : State) : (s.returning r).params = s.params := rfl
@[simp] theorem State.returning_mem (r : Ret) (s : State) : (s.returning r).mem = s.mem := rfl
@[simp] theorem State.returning_commands (r : Ret) (s : State) : (s.returning r).commands = s.commands := rfl
@[simp] theorem State.returning_cmdIndex (r : Ret) (s : State) : (s.returning r).cmdIndex = s.cmdIndex := rfl
@[simp] theorem State.returning_script (r : Ret) (s : State) : (s.returning r).script = s.script := rfl
@[simp] theorem State.returning_drawCount (r : Ret) (s : State) : (s.returning r).drawCount = s.drawCount := rfl
@[simp] theorem State.returning_resetCount (r : Ret) (s : State) : (s.returning r).resetCount = s.resetCount := rfl
@[simp] theorem State.returning_log (r : Ret) (s : State) : (s.returning r).log = s.log := rfl
@[simp] theorem State.returning_ret (r : Ret) (s : State) : (s.returning r).ret = r := rfl

@[simp] theorem State.advance_inst (s : State) : s.advance.inst = s.inst := rfl
@[simp] theorem State.advance_port (s : State) : s.advance.port = s.port := rfl
@[simp] theorem State.advance_result (s : State) : s.advance.result = s.result := rfl
@[simp] theorem State.advance_params (s : State) : s.advance.params = s.params := rfl
@[simp] theorem State.advance_mem (s : State) : s.advance.mem = s.mem := rfl
@[simp] theorem State.advance_commands (s : State) : s.advance.commands = s.commands := rfl
@[simp] theorem State.advance_cmdIndex (s : State) : s.advance.cmdIndex = s.cmdIndex + 1 := rfl
@[simp] theorem State.advance_script (s : State) : s.advance.script = s.script := rfl
@[simp] theorem State.advance_drawCount (s : State) : s.advance.drawCount = s.drawCount := rfl
@[simp] theorem State.advance_resetCount (s : State) : s.advance.resetCount = s.resetCount := rfl
@[simp] theorem State.advance_log (s : State) : s.advance.log = s.log := rfl
@[simp] theorem State.advance_ret (s : State) : s.advance.ret = s.ret := rfl

@[simp] theorem State.refuseMalformed_inst (s : State) : s.refuseMalformed.inst = s.inst := rfl
@[simp] theorem State.refuseMalformed_port (s : State) : s.refuseMalformed.port = s.port := rfl
@[simp] theorem State.refuseMalformed_result (s : State) : s.refuseMalformed.result = statusCode .errInvalidParam := rfl
@[simp] theorem State.refuseMalformed_params (s : State) : s.refuseMalformed.params = s.params := rfl
@[simp] theorem State.refuseMalformed_mem (s : State) : s.refuseMalformed.mem = s.mem := rfl
@[simp] theorem State.refuseMalformed_commands (s : State) : s.refuseMalformed.commands = s.commands := rfl
@[simp] theorem State.refuseMalformed_cmdIndex (s : State) : s.refuseMalformed.cmdIndex = s.cmdIndex := rfl
@[simp] theorem State.refuseMalformed_script (s : State) : s.refuseMalformed.script = s.script := rfl
@[simp] theorem State.refuseMalformed_drawCount (s : State) : s.refuseMalformed.drawCount = s.drawCount := rfl
@[simp] theorem State.refuseMalformed_resetCount (s : State) : s.refuseMalformed.resetCount = s.resetCount := rfl
@[simp] theorem State.refuseMalformed_log (s : State) : s.refuseMalformed.log = s.log := rfl
@[simp] theorem State.refuseMalformed_ret (s : State) : s.refuseMalformed.ret = s.ret := rfl

@[simp] theorem State.setRunState_inst (r : RunState) (s : State) : (s.setRunState r).inst = { s.inst with state := r } := rfl
@[simp] theorem State.setRunState_port (r : RunState) (s : State) : (s.setRunState r).port = s.port := rfl
@[simp] theorem State.setRunState_result (r : RunState) (s : State) : (s.setRunState r).result = s.result := rfl
@[simp] theorem State.setRunState_params (r : RunState) (s : State) : (s.setRunState r).params = s.params := rfl
@[simp] theorem State.setRunState_mem (r : RunState) (s : State) : (s.setRunState r).mem = s.mem := rfl
@[simp] theorem State.setRunState_commands (r : RunState) (s : State) : (s.setRunState r).commands = s.commands := rfl
@[simp] theorem State.setRunState_cmdIndex (r : RunState) (s : State) : (s.setRunState r).cmdIndex = s.cmdIndex := rfl
@[simp] theorem State.setRunState_script (r : RunState) (s : State) : (s.setRunState r).script = s.script := rfl
@[simp] theorem State.setRunState_drawCount (r : RunState) (s : State) : (s.setRunState r).drawCount = s.drawCount := rfl
@[simp] theorem State.setRunState_resetCount (r : RunState) (s : State) : (s.setRunState r).resetCount = s.resetCount := rfl
@[simp] theorem State.setRunState_log (r : RunState) (s : State) : (s.setRunState r).log = s.log := rfl
@[simp] theorem State.setRunState_ret (r : RunState) (s : State) : (s.setRunState r).ret = s.ret := rfl

@[simp] theorem State.zeroInstance_inst (s : State) : s.zeroInstance.inst = Instance.zero := rfl
@[simp] theorem State.zeroInstance_port (s : State) : s.zeroInstance.port = s.port := rfl
@[simp] theorem State.zeroInstance_result (s : State) : s.zeroInstance.result = s.result := rfl
@[simp] theorem State.zeroInstance_params (s : State) : s.zeroInstance.params = s.params := rfl
@[simp] theorem State.zeroInstance_mem (s : State) : s.zeroInstance.mem = s.mem := rfl
@[simp] theorem State.zeroInstance_commands (s : State) : s.zeroInstance.commands = s.commands := rfl
@[simp] theorem State.zeroInstance_cmdIndex (s : State) : s.zeroInstance.cmdIndex = s.cmdIndex := rfl
@[simp] theorem State.zeroInstance_script (s : State) : s.zeroInstance.script = s.script := rfl
@[simp] theorem State.zeroInstance_drawCount (s : State) : s.zeroInstance.drawCount = s.drawCount := rfl
@[simp] theorem State.zeroInstance_resetCount (s : State) : s.zeroInstance.resetCount = s.resetCount := rfl
@[simp] theorem State.zeroInstance_log (s : State) : s.zeroInstance.log = s.log := rfl
@[simp] theorem State.zeroInstance_ret (s : State) : s.zeroInstance.ret = s.ret := rfl

@[simp] theorem State.raise_inst (e : Status) (s : State) : (s.raise e).2.inst = { s.inst with state := raisedState e s.inst.state } := rfl
@[simp] theorem State.raise_port (e : Status) (s : State) : (s.raise e).2.port = s.port := rfl
@[simp] theorem State.raise_result (e : Status) (s : State) : (s.raise e).2.result = statusCode e := rfl
@[simp] theorem State.raise_params (e : Status) (s : State) : (s.raise e).2.params = s.params := rfl
@[simp] theorem State.raise_mem (e : Status) (s : State) : (s.raise e).2.mem = s.mem := rfl
@[simp] theorem State.raise_commands (e : Status) (s : State) : (s.raise e).2.commands = s.commands := rfl
@[simp] theorem State.raise_cmdIndex (e : Status) (s : State) : (s.raise e).2.cmdIndex = s.cmdIndex := rfl
@[simp] theorem State.raise_script (e : Status) (s : State) : (s.raise e).2.script = s.script := rfl
@[simp] theorem State.raise_drawCount (e : Status) (s : State) : (s.raise e).2.drawCount = s.drawCount := rfl
@[simp] theorem State.raise_resetCount (e : Status) (s : State) : (s.raise e).2.resetCount = s.resetCount := rfl
@[simp] theorem State.raise_log (e : Status) (s : State) : (s.raise e).2.log = s.log := rfl
@[simp] theorem State.raise_ret (e : Status) (s : State) : (s.raise e).2.ret = s.ret := rfl

@[simp] theorem State.succeed_inst (s : State) : s.succeed.2.inst = s.inst := rfl
@[simp] theorem State.succeed_port (s : State) : s.succeed.2.port = s.port := rfl
@[simp] theorem State.succeed_result (s : State) : s.succeed.2.result = statusCode .success := rfl
@[simp] theorem State.succeed_params (s : State) : s.succeed.2.params = s.params := rfl
@[simp] theorem State.succeed_mem (s : State) : s.succeed.2.mem = s.mem := rfl
@[simp] theorem State.succeed_commands (s : State) : s.succeed.2.commands = s.commands := rfl
@[simp] theorem State.succeed_cmdIndex (s : State) : s.succeed.2.cmdIndex = s.cmdIndex := rfl
@[simp] theorem State.succeed_script (s : State) : s.succeed.2.script = s.script := rfl
@[simp] theorem State.succeed_drawCount (s : State) : s.succeed.2.drawCount = s.drawCount := rfl
@[simp] theorem State.succeed_resetCount (s : State) : s.succeed.2.resetCount = s.resetCount := rfl
@[simp] theorem State.succeed_log (s : State) : s.succeed.2.log = s.log := rfl
@[simp] theorem State.succeed_ret (s : State) : s.succeed.2.ret = s.ret := rfl

@[simp] theorem State.raise_status (e : Status) (s : State) : (s.raise e).1 = e := rfl
@[simp] theorem State.succeed_status (s : State) : s.succeed.1 = .success := rfl

@[simp] theorem beginReseed_port (m : BitVec 4) (s : State) : (beginReseed m s).port = s.port := rfl
@[simp] theorem beginReseed_result (m : BitVec 4) (s : State) : (beginReseed m s).result = s.result := rfl
@[simp] theorem beginReseed_params (m : BitVec 4) (s : State) : (beginReseed m s).params = s.params := rfl
@[simp] theorem beginReseed_mem (m : BitVec 4) (s : State) : (beginReseed m s).mem = s.mem := rfl
@[simp] theorem beginReseed_commands (m : BitVec 4) (s : State) : (beginReseed m s).commands = s.commands := rfl
@[simp] theorem beginReseed_cmdIndex (m : BitVec 4) (s : State) : (beginReseed m s).cmdIndex = s.cmdIndex := rfl
@[simp] theorem beginReseed_script (m : BitVec 4) (s : State) : (beginReseed m s).script = s.script := rfl
@[simp] theorem beginReseed_drawCount (m : BitVec 4) (s : State) : (beginReseed m s).drawCount = s.drawCount := rfl
@[simp] theorem beginReseed_resetCount (m : BitVec 4) (s : State) : (beginReseed m s).resetCount = s.resetCount := rfl
@[simp] theorem beginReseed_log (m : BitVec 4) (s : State) : (beginReseed m s).log = s.log := rfl
@[simp] theorem beginReseed_ret (m : BitVec 4) (s : State) : (beginReseed m s).ret = s.ret := rfl

@[simp] theorem clearStatistics_port (s : State) : (clearStatistics s).port = s.port := rfl
@[simp] theorem clearStatistics_result (s : State) : (clearStatistics s).result = s.result := rfl
@[simp] theorem clearStatistics_params (s : State) : (clearStatistics s).params = s.params := rfl
@[simp] theorem clearStatistics_mem (s : State) : (clearStatistics s).mem = s.mem := rfl
@[simp] theorem clearStatistics_commands (s : State) : (clearStatistics s).commands = s.commands := rfl
@[simp] theorem clearStatistics_cmdIndex (s : State) : (clearStatistics s).cmdIndex = s.cmdIndex := rfl
@[simp] theorem clearStatistics_script (s : State) : (clearStatistics s).script = s.script := rfl
@[simp] theorem clearStatistics_drawCount (s : State) : (clearStatistics s).drawCount = s.drawCount := rfl
@[simp] theorem clearStatistics_resetCount (s : State) : (clearStatistics s).resetCount = s.resetCount := rfl
@[simp] theorem clearStatistics_log (s : State) : (clearStatistics s).log = s.log := rfl
@[simp] theorem clearStatistics_ret (s : State) : (clearStatistics s).ret = s.ret := rfl

@[simp] theorem storeConfig_port (c : InstConfig) (s : State) : (storeConfig c s).port = s.port := rfl
@[simp] theorem storeConfig_result (c : InstConfig) (s : State) : (storeConfig c s).result = s.result := rfl
@[simp] theorem storeConfig_params (c : InstConfig) (s : State) : (storeConfig c s).params = s.params := rfl
@[simp] theorem storeConfig_mem (c : InstConfig) (s : State) : (storeConfig c s).mem = s.mem := rfl
@[simp] theorem storeConfig_commands (c : InstConfig) (s : State) : (storeConfig c s).commands = s.commands := rfl
@[simp] theorem storeConfig_cmdIndex (c : InstConfig) (s : State) : (storeConfig c s).cmdIndex = s.cmdIndex := rfl
@[simp] theorem storeConfig_script (c : InstConfig) (s : State) : (storeConfig c s).script = s.script := rfl
@[simp] theorem storeConfig_drawCount (c : InstConfig) (s : State) : (storeConfig c s).drawCount = s.drawCount := rfl
@[simp] theorem storeConfig_resetCount (c : InstConfig) (s : State) : (storeConfig c s).resetCount = s.resetCount := rfl
@[simp] theorem storeConfig_log (c : InstConfig) (s : State) : (storeConfig c s).log = s.log := rfl
@[simp] theorem storeConfig_ret (c : InstConfig) (s : State) : (storeConfig c s).ret = s.ret := rfl

@[simp] theorem countGenerate_port (s : State) : (countGenerate s).port = s.port := rfl
@[simp] theorem countGenerate_result (s : State) : (countGenerate s).result = s.result := rfl
@[simp] theorem countGenerate_params (s : State) : (countGenerate s).params = s.params := rfl
@[simp] theorem countGenerate_mem (s : State) : (countGenerate s).mem = s.mem := rfl
@[simp] theorem countGenerate_commands (s : State) : (countGenerate s).commands = s.commands := rfl
@[simp] theorem countGenerate_cmdIndex (s : State) : (countGenerate s).cmdIndex = s.cmdIndex := rfl
@[simp] theorem countGenerate_script (s : State) : (countGenerate s).script = s.script := rfl
@[simp] theorem countGenerate_drawCount (s : State) : (countGenerate s).drawCount = s.drawCount := rfl
@[simp] theorem countGenerate_resetCount (s : State) : (countGenerate s).resetCount = s.resetCount := rfl
@[simp] theorem countGenerate_log (s : State) : (countGenerate s).log = s.log := rfl
@[simp] theorem countGenerate_ret (s : State) : (countGenerate s).ret = s.ret := rfl

/-- `HwReset` and the other port sequences start from a command's begin; beginning twice is beginning once. -/
@[simp] theorem State.beginCommand_beginCommand (s : State) : s.beginCommand.beginCommand = s.beginCommand := rfl

/-- A released reset register holds nothing, whatever the map (10_state.md R37). -/
theorem State.held_of_released {s : State} (h : s.port.reset = 0) : s.held = false := by
  simp [State.held, h]

/-- An asserted one holds the hardware, on a legal map. -/
theorem State.held_of_asserted {s : State} (h : s.port.reset = s.params.map.resetAssert)
    (hm : s.params.map.resetAssert ≠ 0) : s.held = true := by
  rw [State.held, h, BitVec.and_self, bne_iff_ne]; exact hm

/-- Whether the hardware is held depends on `RESET` and the map alone. -/
theorem State.held_congr {s t : State} (h : t.port.reset = s.port.reset) (hp : t.params = s.params) : t.held = s.held := by
  unfold State.held; rw [h, hp]

end Sys2Proof.Machine
end

