-- ==== Sys2Proof/Laws/Port.lean ====
section
/-! SUPPORT. What the port operations can do: each one's frame, stated once, and its effect when the environment's
answer is the next word of the script. -/

namespace Sys2Proof.Machine

/-- What no port operation changes: the instance, `RESULT`, the parameters, host memory, the host's commands, what an
internal operation returned. -/
structure PortFrame (s t : State) : Prop where
  inst : t.inst = s.inst
  result : t.result = s.result
  params : t.params = s.params
  mem : t.mem = s.mem
  commands : t.commands = s.commands
  cmdIndex : t.cmdIndex = s.cmdIndex
  ret : t.ret = s.ret

theorem PortFrame.refl (s : State) : PortFrame s s := ⟨rfl, rfl, rfl, rfl, rfl, rfl, rfl⟩

theorem PortFrame.trans {s t u : State} (h : PortFrame s t) (k : PortFrame t u) : PortFrame s u :=
  ⟨k.inst.trans h.inst, k.result.trans h.result, k.params.trans h.params, k.mem.trans h.mem,
    k.commands.trans h.commands, k.cmdIndex.trans h.cmdIndex, k.ret.trans h.ret⟩

/-- What a read of the port leaves alone besides: every register but `STATUS` and `CORE_OUTPUT`, and the count of
resets. -/
structure ReadFrame (s t : State) : Prop extends PortFrame s t where
  ctrl : t.port.ctrl = s.port.ctrl
  reset : t.port.reset = s.port.reset
  oscEn : t.port.oscEn = s.port.oscEn
  extSeed : t.port.extSeed = s.port.extSeed
  perStrng : t.port.perStrng = s.port.perStrng
  resetCount : t.resetCount = s.resetCount

theorem ReadFrame.refl (s : State) : ReadFrame s s := ⟨.refl s, rfl, rfl, rfl, rfl, rfl, rfl⟩

theorem ReadFrame.trans {s t u : State} (h : ReadFrame s t) (k : ReadFrame t u) : ReadFrame s u :=
  ⟨h.toPortFrame.trans k.toPortFrame, k.ctrl.trans h.ctrl, k.reset.trans h.reset, k.oscEn.trans h.oscEn,
    k.extSeed.trans h.extSeed, k.perStrng.trans h.perStrng, k.resetCount.trans h.resetCount⟩

theorem ReadFrame.held {s t : State} (h : ReadFrame s t) : t.held = s.held := State.held_congr h.reset h.params

/-! ## Draws and reads -/

theorem draw_of_script {s : State} {w : Word} {rest : List Word} (h : s.script = w :: rest) :
    s.draw = (w, { s with script := rest, drawCount := s.drawCount + 1 }) := by
  unfold State.draw; rw [h]

theorem draw_frame (s : State) : ReadFrame s s.draw.2 ∧ s.draw.2.port = s.port ∧ s.draw.2.log = s.log := by
  unfold State.draw
  split <;> exact ⟨⟨⟨rfl, rfl, rfl, rfl, rfl, rfl, rfl⟩, rfl, rfl, rfl, rfl, rfl, rfl⟩, rfl, rfl⟩

theorem readPort_frame (r : PortReg) (s : State) : ReadFrame s (readPort r s).2 ∧ (readPort r s).2.log = s.log := by
  obtain ⟨h, -, hl⟩ := draw_frame s
  unfold readPort
  split
  · exact ⟨⟨⟨h.inst, h.result, h.params, h.mem, h.commands, h.cmdIndex, h.ret⟩, rfl, rfl, rfl, rfl, rfl,
      h.resetCount⟩, hl⟩
  · split
    · exact ⟨.refl s, rfl⟩
    · exact ⟨⟨⟨h.inst, h.result, h.params, h.mem, h.commands, h.cmdIndex, h.ret⟩, rfl, rfl, rfl, rfl, rfl,
        h.resetCount⟩, hl⟩
  all_goals exact ⟨.refl s, rfl⟩

/-- Everything a `Read32` leaves alone (20_memory.md R80). -/
theorem read32_frame (r : PortReg) (s : State) : ReadFrame s (read32 r s).2 :=
  have h := (readPort_frame r s).1
  ⟨⟨h.inst, h.result, h.params, h.mem, h.commands, h.cmdIndex, h.ret⟩, h.ctrl, h.reset, h.oscEn, h.extSeed,
    h.perStrng, h.resetCount⟩

/-- A `Read32` is one event of the log. -/
theorem read32_log (r : PortReg) (s : State) :
    (read32 r s).2.log = .rd (portAddr s.params r) (read32 r s).1 :: s.log := by
  simp only [read32, State.logEvent_log, (readPort_frame r s).2]

/-- Reading `STATUS` takes the next word of the script, its reserved bits cleared (10_state.md R31, R33). -/
theorem read32_status {s : State} {w : Word} {rest : List Word} (h : s.script = w :: rest)
    (hh : s.held = false) :
    read32 .status s =
      (shown s.params w,
        { s with
          script := rest
          drawCount := s.drawCount + 1
          port := { s.port with status := shown s.params w }
          log := .rd (portAddr s.params .status) (shown s.params w) :: s.log }) := by
  simp only [read32, readPort, hh, draw_of_script h, State.logEvent, Bool.false_eq_true, if_false, shown]

/-- Reading `CORE_OUTPUT` takes the next word of the script (10_state.md R36). -/
theorem read32_coreOutput {s : State} {w : Word} {rest : List Word} (h : s.script = w :: rest) :
    read32 .coreOutput s =
      (w,
        { s with
          script := rest
          drawCount := s.drawCount + 1
          port := { s.port with coreOutput := w }
          log := .rd (portAddr s.params .coreOutput) w :: s.log }) := by
  simp only [read32, readPort, draw_of_script h, State.logEvent]

/-- Reading `CTRL` back gives what it holds (20_memory.md R80). -/
theorem read32_ctrl {s : State} (hh : s.held = false) :
    read32 .ctrl s = (s.port.ctrl, { s with log := .rd (portAddr s.params .ctrl) s.port.ctrl :: s.log }) := by
  simp [read32, readPort, hh, Port.stored, State.logEvent]

/-! ## Writes -/

/-- Everything a `Write32` leaves alone (20_memory.md R81). -/
theorem write32_frame (r : PortReg) (v : Word) (s : State) :
    PortFrame s (write32 r v s) ∧ (write32 r v s).script = s.script ∧ (write32 r v s).drawCount = s.drawCount ∧
      (write32 r v s).log = .wr (portAddr s.params r) v :: s.log := by
  unfold write32 writePort
  split_ifs <;> exact ⟨⟨rfl, rfl, rfl, rfl, rfl, rfl, rfl⟩, rfl, rfl, rfl⟩

/-- While the hardware is held in reset a write of another register is only recorded (10_state.md R37). -/
theorem write32_held {r : PortReg} (hr : r ≠ .reset) (v : Word) {s : State} (hh : s.held = true) :
    write32 r v s = { s with log := .wr (portAddr s.params r) v :: s.log } := by
  unfold write32 writePort; rw [if_neg hr, if_pos hh]; rfl

/-- Otherwise it is stored. -/
theorem write32_released {r : PortReg} (hr : r ≠ .reset) (v : Word) {s : State} (hh : s.held = false) :
    write32 r v s = { s with port := s.port.store s.params.map r v, log := .wr (portAddr s.params r) v :: s.log } := by
  unfold write32 writePort; rw [if_neg hr, if_neg (by simp [hh])]; rfl

/-- Asserting the reset returns every other port register to its reset value (10_state.md R37, R41). -/
theorem write32_assert {s : State} (hm : s.params.map.resetAssert ≠ 0) :
    write32 .reset s.params.map.resetAssert s =
      { s with
        port := Port.zeroed s.params.map.resetAssert (Config.coreOutputAfterReset s.resetCount)
        resetCount := s.resetCount + 1
        log := .wr (portAddr s.params .reset) s.params.map.resetAssert :: s.log } := by
  unfold write32 writePort
  rw [if_pos rfl, BitVec.and_self, if_pos (bne_iff_ne.2 hm)]
  rfl

/-- Releasing the reset changes nothing else. -/
theorem write32_release (s : State) :
    write32 .reset 0 s =
      { s with port := { s.port with reset := 0 }, log := .wr (portAddr s.params .reset) 0 :: s.log } := by
  simp [write32, writePort, State.logEvent]

/-- Storing in a register other than `RESET` neither holds nor releases the hardware. -/
theorem held_store (s : State) (r : PortReg) (v : Word) (l : List Event) :
    State.held { s with port := s.port.store s.params.map r v, log := l } = s.held := by
  cases r <;> rfl

/-- A read-modify-write of `CTRL` when the hardware is not held (20_memory.md R82). -/
theorem rmw32_ctrl (mask v : Word) {s : State} (hh : s.held = false) :
    rmw32 .ctrl mask v s =
      { s with
        port := { s.port with ctrl := ((s.port.ctrl &&& ~~~mask) ||| (v &&& mask)) &&& s.params.map.ctrlDefined }
        log :=
          .wr (portAddr s.params .ctrl) ((s.port.ctrl &&& ~~~mask) ||| (v &&& mask)) ::
            .rd (portAddr s.params .ctrl) s.port.ctrl :: s.log } := by
  unfold rmw32
  rw [read32_ctrl hh]
  exact write32_released (by simp) _ hh

theorem rmw32_frame (r : PortReg) (mask v : Word) (s : State) : PortFrame s (rmw32 r mask v s) :=
  (read32_frame r s).toPortFrame.trans (write32_frame r _ _).1

/-! ## The poll -/

theorem pollLoop_frame (r : PortReg) (mask expect : Word) (sleep n : Nat) (s : State) :
    ReadFrame s (pollLoop r mask expect sleep n s).2 := by
  induction n generalizing s with
  | zero => exact read32_frame r s
  | succ n ih =>
    unfold pollLoop
    split
    · exact read32_frame r s
    · have h := read32_frame r s
      refine h.trans (ReadFrame.trans ?_ (ih _))
      exact ⟨⟨rfl, rfl, rfl, rfl, rfl, rfl, rfl⟩, rfl, rfl, rfl, rfl, rfl, rfl⟩

/-- Everything a poll leaves alone (44_port_sequences.md R299). -/
theorem pollField_frame (r : PortReg) (mask expect : Word) (timeoutUs : Nat) (s : State) :
    ReadFrame s (pollField r mask expect timeoutUs s).2 :=
  pollLoop_frame _ _ _ _ _ _

/-- A poll whose first read shows the field is ready after that read. -/
theorem pollField_ready {r : PortReg} {mask expect : Word} {s : State} (timeoutUs : Nat)
    (h : (read32 r s).1 &&& mask = expect) : pollField r mask expect timeoutUs s = (true, (read32 r s).2) := by
  unfold pollField
  cases pollSleeps timeoutUs s.params.pollSleepUs with
  | zero => simp [pollLoop, h]
  | succ n => simp [pollLoop, h]

/-! ## Register groups -/

theorem writeGroup_frame (g : RegGroup) (b : Vector Byte 48) (s : State) : PortFrame s (writeGroup g b s) := by
  unfold writeGroup
  generalize List.finRange 12 = l
  induction l generalizing s with
  | nil => exact .refl s
  | cons k l ih => exact (write32_frame _ _ _).1.trans (ih _)

/-- The released write of one register of a group. -/
theorem write32_groupReg (g : RegGroup) (k : Fin 12) (v : Word) {s : State} (hh : s.held = false) :
    write32 (groupReg g k) v s =
      { s with port := s.port.store s.params.map (groupReg g k) v, log := .wr (portAddr s.params (groupReg g k)) v :: s.log } :=
  write32_released (by cases g <;> simp [groupReg]) v hh

/-- A sequence of writes of stored registers is their effect on the port and their events (20_memory.md R89). -/
theorem foldl_write32 {α : Type} (l : List α) (r : α → PortReg) (v : α → Word) (hr : ∀ k ∈ l, r k ≠ .reset) (s : State)
    (hh : s.held = false) :
    l.foldl (fun s k => write32 (r k) (v k) s) s =
      { s with
        port := l.foldl (fun p k => p.store s.params.map (r k) (v k)) s.port
        log := (l.map fun k => Event.wr (portAddr s.params (r k)) (v k)).reverse ++ s.log } := by
  induction l generalizing s with
  | nil => rfl
  | cons k l ih =>
    rw [List.foldl_cons, write32_released (hr k (List.mem_cons_self ..)) _ hh, ih (fun j hj => hr j
      (List.mem_cons_of_mem _ hj))]
    · simp
    · exact (held_store s (r k) (v k) _).trans hh

/-- A sequence of writes while the hardware is held in reset is only recorded. -/
theorem foldl_write32_held {α : Type} (l : List α) (r : α → PortReg) (v : α → Word) (hr : ∀ k ∈ l, r k ≠ .reset)
    (s : State) (hh : s.held = true) :
    l.foldl (fun s k => write32 (r k) (v k) s) s =
      { s with log := (l.map fun k => Event.wr (portAddr s.params (r k)) (v k)).reverse ++ s.log } := by
  induction l generalizing s with
  | nil => rfl
  | cons k l ih =>
    rw [List.foldl_cons, write32_held (hr k (List.mem_cons_self ..)) _ hh, ih (fun j hj => hr j
      (List.mem_cons_of_mem _ hj)) _ (by exact hh)]
    simp

/-- Asserting the start bit when the hardware is not held (44_port_sequences.md R294). -/
theorem assertStart_released {s : State} (hh : s.held = false) :
    assertStart s =
      { s with
        port := { s.port with ctrl := withStart s.params.map s.port.ctrl }
        log := (startEvents s.params s.port.ctrl).reverse ++ s.log } := by
  unfold assertStart; rw [rmw32_ctrl _ _ hh, BitVec.and_self]; rfl

/-- On a legal map the bits of a selection are defined bits of `CTRL` (10_state.md R32). -/
theorem selected_defined {m : PortMap} (h : MapOk m) (sel : HwSel) :
    selected m sel &&& m.ctrlDefined = selected m sel := by
  have h1 : selected m sel &&& m.ctrlStart = 0 := by
    rw [← h.selFits sel, BitVec.and_assoc, BitVec.and_comm m.ctrlSel, h.ctrlFields]; simp
  rw [PortMap.ctrlDefined, BitVec.and_or_distrib_left, h1, h.selFits]; simp

/-- Programming a selection when the hardware is not held (R293). -/
theorem hwProgram_released (sel : HwSel) {s : State} (hm : MapOk s.params.map) (hh : s.held = false) :
    hwProgram sel s =
      { s with
        port := { s.port with ctrl := selected s.params.map sel }
        log := .wr (portAddr s.params .ctrl) (selected s.params.map sel) :: s.log } := by
  unfold hwProgram
  rw [write32_released (by simp) _ hh]
  simp only [Port.store, selected_defined hm]

/-- The reset pulse (R291). -/
theorem hwReset_eq {s : State} (hm : s.params.map.resetAssert ≠ 0) :
    hwReset s =
      { s with
        port := Port.zeroed 0 (Config.coreOutputAfterReset s.resetCount)
        resetCount := s.resetCount + 1
        log := (resetEvents s.params).reverse ++ s.log } := by
  unfold hwReset
  rw [write32_assert hm]
  exact write32_release _

/-- The held reset (R292). -/
theorem hwHoldReset_eq {s : State} (hm : s.params.map.resetAssert ≠ 0) :
    hwHoldReset s =
      { s with
        port := Port.zeroed s.params.map.resetAssert (Config.coreOutputAfterReset s.resetCount)
        resetCount := s.resetCount + 1
        log := .wr (portAddr s.params .reset) s.params.map.resetAssert :: s.log } :=
  write32_assert hm

/-- Word `k` of 48 bytes is what its register of a group holds. -/
theorem wordOfBytes_groupWords (b : Vector Byte 48) (k : Fin 12) :
    wordOfBytes b.toList (4 * k.val) = (groupWords b)[k.rev] := by
  have h : 11 - k.rev.val = k.val := by simp [Fin.val_rev]; omega
  simp only [groupWords, Fin.getElem_fin, Vector.getElem_ofFn, h, wordOfBytes]
  have hk := k.isLt
  simp [List.getD_eq_getElem?_getD, show 4 * k.val < 48 by omega,
    show 4 * k.val + 1 < 48 by omega, show 4 * k.val + 2 < 48 by omega, show 4 * k.val + 3 < 48 by omega]

/-- A register group of the port. -/
def Port.setGroup (p : Port) (g : RegGroup) (v : Vector Word 12) : Port :=
  match g with
  | .extSeed => { p with extSeed := v }
  | .perStrng => { p with perStrng := v }

theorem foldl_set_all {l : List (Fin 12)} (hl : ∀ k : Fin 12, k ∈ l) (w v : Vector Word 12) :
    l.foldl (fun u k => u.set k.rev v[k.rev]) w = v := by
  have gen : ∀ (l : List (Fin 12)) (w : Vector Word 12) (j : Fin 12), (w[j] = v[j] ∨ ∃ k ∈ l, k.rev = j) →
      (l.foldl (fun u k => u.set k.rev v[k.rev]) w)[j] = v[j] := by
    intro l
    induction l with
    | nil => intro w j h; simpa using h
    | cons k l ih =>
      intro w j h
      rw [List.foldl_cons]
      apply ih
      by_cases hk : k.rev = j
      · left; subst hk; simp
      · rcases h with h | ⟨i, hi, hij⟩
        · left
          have : k.rev.val ≠ j.val := fun e => hk (Fin.ext e)
          simp only [Fin.getElem_fin] at h ⊢
          rw [Vector.getElem_set_ne _ _ this]; exact h
        · rcases List.mem_cons.1 hi with rfl | hi
          · exact absurd hij hk
          · exact .inr ⟨i, hi, hij⟩
  apply Vector.ext
  intro i hi
  exact gen l w ⟨i, hi⟩ (.inr ⟨(⟨i, hi⟩ : Fin 12).rev, hl _, Fin.rev_rev _⟩)

theorem foldl_store_group (m : PortMap) (g : RegGroup) (l : List (Fin 12)) (v : Vector Word 12) (p : Port) :
    l.foldl (fun p k => p.store m (groupReg g k.rev) v[k.rev]) p =
      p.setGroup g (l.foldl (fun u k => u.set k.rev v[k.rev])
        (match g with | .extSeed => p.extSeed | .perStrng => p.perStrng)) := by
  induction l generalizing p with
  | nil => cases g <;> rfl
  | cons k l ih => rw [List.foldl_cons, ih]; cases g <;> rfl

/-- `WriteGroup` when the hardware is not held: the group holds the bytes, by twelve writes (R296). -/
theorem writeGroup_released (g : RegGroup) (b : Vector Byte 48) {s : State} (hh : s.held = false) :
    writeGroup g b s =
      { s with
        port := s.port.setGroup g (groupWords b)
        log := (groupEvents s.params g b).reverse ++ s.log } := by
  unfold writeGroup
  simp only [wordOfBytes_groupWords]
  rw [foldl_write32 _ (fun k : Fin 12 => groupReg g k.rev) (fun k => (groupWords b)[k.rev])
    (by intro k _; cases g <;> simp [groupReg]) s hh, foldl_store_group,
    foldl_set_all (fun k => List.mem_finRange k)]
  rfl

/-- `WriteGroup` while the hardware is held in reset (10_state.md R37). -/
theorem writeGroup_held (g : RegGroup) (b : Vector Byte 48) {s : State} (hh : s.held = true) :
    writeGroup g b s = { s with log := (groupEvents s.params g b).reverse ++ s.log } := by
  unfold writeGroup
  simp only [wordOfBytes_groupWords]
  rw [foldl_write32_held _ (fun k : Fin 12 => groupReg g k.rev) (fun k => (groupWords b)[k.rev])
    (by intro k _; cases g <;> simp [groupReg]) s hh]
  rfl

theorem foldl_set_zero (w : Vector Word 12) :
    (List.finRange 12).foldl (fun u (k : Fin 12) => u.set k 0) w = Vector.replicate 12 0 := by
  rw [show List.finRange 12 = [0, 1, 2, 3, 4, 5, 6, 7, 8, 9, 10, 11] from rfl]
  simp only [List.foldl_cons, List.foldl_nil]
  apply Vector.ext
  intro i hi
  interval_cases i <;> simp

theorem foldl_store_zero_ext (m : PortMap) (l : List (Fin 12)) (p : Port) :
    l.foldl (fun p k => p.store m (.extSeed k) 0) p =
      { p with extSeed := l.foldl (fun u (k : Fin 12) => u.set k 0) p.extSeed } := by
  induction l generalizing p with
  | nil => rfl
  | cons k l ih => rw [List.foldl_cons, ih]; rfl

theorem foldl_store_zero_pers (m : PortMap) (l : List (Fin 12)) (p : Port) :
    l.foldl (fun p k => p.store m (.perStrng k) 0) p =
      { p with perStrng := l.foldl (fun u (k : Fin 12) => u.set k 0) p.perStrng } := by
  induction l generalizing p with
  | nil => rfl
  | cons k l ih => rw [List.foldl_cons, ih]; rfl

/-- `ZeroizeSeedRegs` when the hardware is not held (R297). -/
theorem zeroizeSeedRegs_released {s : State} (hh : s.held = false) :
    zeroizeSeedRegs s =
      { s with
        port := { s.port with extSeed := Vector.replicate 12 0, perStrng := Vector.replicate 12 0 }
        log := (zeroizeEvents s.params).reverse ++ s.log } := by
  unfold zeroizeSeedRegs
  rw [foldl_write32 _ (fun k : Fin 12 => PortReg.extSeed k) (fun _ => 0) (by simp) s hh, foldl_store_zero_ext,
    foldl_set_zero,
    foldl_write32 _ (fun k : Fin 12 => PortReg.perStrng k) (fun _ => 0) (by simp) _ (by exact hh),
    foldl_store_zero_pers, foldl_set_zero]
  simp [zeroizeEvents]

/-- `ZeroizeSeedRegs` while the hardware is held in reset (R297). -/
theorem zeroizeSeedRegs_held {s : State} (hh : s.held = true) :
    zeroizeSeedRegs s = { s with log := (zeroizeEvents s.params).reverse ++ s.log } := by
  unfold zeroizeSeedRegs
  rw [foldl_write32_held _ (fun k : Fin 12 => PortReg.extSeed k) (fun _ => 0) (by simp) s hh,
    foldl_write32_held _ (fun k : Fin 12 => PortReg.perStrng k) (fun _ => 0) (by simp) _ (by exact hh)]
  simp [zeroizeEvents]

theorem zeroizeSeedRegs_frame (s : State) : PortFrame s (zeroizeSeedRegs s) := by
  cases hh : s.held
  · rw [zeroizeSeedRegs_released hh]; exact ⟨rfl, rfl, rfl, rfl, rfl, rfl, rfl⟩
  · rw [zeroizeSeedRegs_held hh]; exact ⟨rfl, rfl, rfl, rfl, rfl, rfl, rfl⟩

/-! ## The poll, in full -/

/-- A poll of `STATUS` that is shown `vs`, none of them as expected, then `v` as expected, with budget left (R299). -/
theorem pollLoop_ready (mask expect : Word) (vs : List Word) (v : Word) (rest : List Word) (n : Nat) {s : State}
    (hh : s.held = false) (hn : vs.length ≤ n) (hvs : NeverShows s.params mask expect vs) (hv : shown s.params v &&& mask = expect)
    (h : s.script = vs ++ v :: rest) :
    pollLoop .status mask expect s.params.pollSleepUs n s =
      (true,
        { s with
          port := { s.port with status := shown s.params v }
          script := rest
          drawCount := s.drawCount + (vs.length + 1)
          log := (pollEvents s.params vs ++ [Event.rd (portAddr s.params .status) (shown s.params v)]).reverse ++ s.log }) := by
  induction vs generalizing n s with
  | nil =>
    have hr := read32_status (s := s) h hh
    have h1 : ((read32 .status s).1 &&& mask == expect) = true := by rw [hr]; simpa using hv
    cases n <;> (simp only [pollLoop, h1, if_true]; rw [hr]; rfl)
  | cons u vs ih =>
    obtain ⟨n, rfl⟩ : ∃ m, n = m + 1 := ⟨n - 1, by simp at hn; omega⟩
    have hr := read32_status (s := s) (by simpa using h) hh
    have h1 : ((read32 .status s).1 &&& mask == expect) = false := by
      rw [hr]; simpa using hvs u (List.mem_cons_self ..)
    rw [pollLoop, h1, hr]
    simp only [Bool.false_eq_true, if_false]
    refine (ih (s := sleepUs s.params.pollSleepUs 
      { s with
        script := vs ++ v :: rest
        drawCount := s.drawCount + 1
        port := { s.port with status := shown s.params u }
        log := .rd (portAddr s.params .status) (shown s.params u) :: s.log }) n hh (by simp at hn; omega) (fun w hw => hvs w
      (List.mem_cons_of_mem _ hw)) hv rfl).trans ?_
    simp [sleepUs, State.logEvent, pollEvents, Nat.add_assoc, Nat.add_comm, Nat.add_left_comm]

/-- A poll of `STATUS` never shown the field: one read more than the sleeps its budget allows, then the timeout (R299). -/
theorem pollLoop_timeout (mask expect : Word) (vs : List Word) (v : Word) (rest : List Word) {s : State}
    (hh : s.held = false) (hvs : NeverShows s.params mask expect (vs ++ [v])) (h : s.script = vs ++ v :: rest) :
    pollLoop .status mask expect s.params.pollSleepUs vs.length s =
      (false,
        { s with
          port := { s.port with status := shown s.params v }
          script := rest
          drawCount := s.drawCount + (vs.length + 1)
          log := (pollEvents s.params vs ++ [Event.rd (portAddr s.params .status) (shown s.params v)]).reverse ++ s.log }) := by
  induction vs generalizing s with
  | nil =>
    have hr := read32_status (s := s) h hh
    have h1 : ((read32 .status s).1 &&& mask == expect) = false := by
      rw [hr]; simpa using hvs v (by simp)
    simp only [List.length_nil, pollLoop, h1]; rw [hr]; rfl
  | cons u vs ih =>
    have hr := read32_status (s := s) (by simpa using h) hh
    have h1 : ((read32 .status s).1 &&& mask == expect) = false := by
      rw [hr]; simpa using hvs u (by simp)
    rw [List.length_cons, pollLoop, h1, hr]
    simp only [Bool.false_eq_true, if_false]
    refine (ih (s := sleepUs s.params.pollSleepUs 
      { s with
        script := vs ++ v :: rest
        drawCount := s.drawCount + 1
        port := { s.port with status := shown s.params u }
        log := .rd (portAddr s.params .status) (shown s.params u) :: s.log }) hh (fun w hw => hvs w (by simp at hw ⊢; tauto)) rfl).trans ?_
    simp [sleepUs, State.logEvent, pollEvents, Nat.add_assoc, Nat.add_comm, Nat.add_left_comm]

theorem accessCount_cons (e : Event) (l : List Event) :
    accessCount (e :: l) = accessCount l + if e.isAccess then 1 else 0 := by
  unfold accessCount; rw [List.countP_cons]

/-- Whatever is shown, a poll reads at most once more than it sleeps (R299). -/
theorem pollLoop_accesses (r : PortReg) (mask expect : Word) (sleep n : Nat) (s : State) :
    accessCount (pollLoop r mask expect sleep n s).2.log ≤ accessCount s.log + (n + 1) := by
  induction n generalizing s with
  | zero => simp [pollLoop, read32_log, accessCount_cons, Event.isAccess]
  | succ n ih =>
    rw [pollLoop]
    split
    · simp only [read32_log, accessCount_cons, Event.isAccess, if_true]; omega
    · refine (ih _).trans ?_
      simp only [sleepUs, State.logEvent_log, read32_log, accessCount_cons, Event.isAccess, if_true]
      simp; omega

/-! ## The port map -/

/-- The offsets of the default port map (30_encoding.md R118). -/
theorem portOffset_default (r : PortReg) :
    portOffset Config.defaultMap r =
      match r with
      | .ctrl => 0x00
      | .status => 0x04
      | .reset => 0x08
      | .oscEn => 0x0C
      | .coreOutput => 0x10
      | .extSeed k => 0x40 + 4 * k.val
      | .perStrng k => 0x80 + 4 * k.val := by
  cases r <;> rfl

/-- The default port map is a legal one (R118). -/
theorem defaultMap_ok : MapOk Config.defaultMap where
  aligned r := by rw [portOffset_default]; cases r <;> simp only <;> omega
  inRange r := by rw [portOffset_default]; cases r <;> simp only <;> omega
  distinct r q h := by
    rw [portOffset_default, portOffset_default] at h
    cases r <;> cases q <;> simp only at h <;>
      first
        | rfl
        | omega
        | (congr 1; apply Fin.ext; omega)
  start := by decide
  ctrlFields := by decide
  selFits sel := by cases sel <;> decide
  selDistinct a b := by cases a <;> cases b <;> decide
  selNotIdle sel := by cases sel <;> decide
  flags := by decide
  statusFields := by decide
  ready := by decide
  assert := by decide
  enable := by decide

/-- On a legal map different registers lie at different addresses, wherever `BASE` is (20_memory.md R70). -/
theorem portAddr_inj {p : Params} (h : MapOk p.map) {r q : PortReg} (e : portAddr p r = portAddr p q) : r = q := by
  have hr := h.inRange r
  have hq := h.inRange q
  apply h.distinct
  have e' := congrArg BitVec.toNat ((BitVec.add_right_inj p.base).1 e)
  simp only [BitVec.toNat_ofNat] at e'
  omega

theorem mem_portRegs (r : PortReg) : r ∈ portRegs := by
  cases r <;> simp [portRegs]

/-- On a legal map the register at an offset is the one the map puts there (20_memory.md R76). -/
theorem portRegAt_eq_some {m : PortMap} (h : MapOk m) {off : Word} {r : PortReg} :
    portRegAt m off = some r ↔ off.toNat = portOffset m r := by
  unfold portRegAt
  constructor
  · intro e
    split at e
    · exact (by simpa using List.find?_some e : portOffset m r = off.toNat).symm
    · cases e
  · intro e
    rw [if_pos (by rw [e]; exact h.aligned r)]
    cases hf : portRegs.find? fun r => portOffset m r == off.toNat with
    | none => simpa [e] using List.find?_eq_none.1 hf r (mem_portRegs r)
    | some q =>
      have : portOffset m q = off.toNat := by simpa using List.find?_some hf
      rw [h.distinct q r (this.trans e)]

/-- No register of the map lies at the offset, or it is no multiple of 4 (20_memory.md R76). -/
theorem portRegAt_eq_none {m : PortMap} {off : Word} :
    portRegAt m off = none ↔ off.toNat % 4 ≠ 0 ∨ ∀ r, portOffset m r ≠ off.toNat := by
  unfold portRegAt
  split
  · next h =>
    rw [List.find?_eq_none]
    exact ⟨fun k => .inr fun r => by simpa using k r (mem_portRegs r),
      fun k r _ => by simpa using (k.resolve_left (not_not_intro h)) r⟩
  · next h => exact ⟨fun _ => .inl h, fun _ => rfl⟩

end Sys2Proof.Machine
end

