-- ==== Sys2Proof/Laws/Collector.lean ====
section
/-! SUPPORT. What a collection can do (41_entropy_collector.md): one burst, a list of good bursts, each way of failing,
and its frame whatever the environment answers. -/

namespace Sys2Proof.Machine

/-! ## One burst -/

/-- Host memory after bytes were stored at an offset of a destination (20_memory.md R85). -/
def putMem (dst : Dst) (off : Nat) (b : List Byte) (m : Memory) : Memory :=
  match dst with
  | .host a => if a = nullAddr then m else memWriteBytes m (a.toNat + off) b
  | .scratch => m

/-- What storing at a destination can do: host memory and, if it was written, one event (R85, R89). -/
theorem putBytes_eq (dst : Dst) (off : Nat) (b : List Byte) (s : State) :
    putBytes dst off b s = { s with mem := putMem dst off b s.mem, log := (putEvents dst off b).reverse ++ s.log } := by
  cases dst with
  | host a => simp only [putBytes, putMem, putEvents]; split <;> rfl
  | scratch => rfl

theorem putMem_append (dst : Dst) (off : Nat) (b c : List Byte) (m : Memory) :
    putMem dst off (b ++ c) m = putMem dst (off + b.length) c (putMem dst off b m) := by
  cases dst with
  | host a =>
    simp only [putMem]
    split
    · rfl
    · rw [memWriteBytes_append]; congr 1; omega
  | scratch => rfl

theorem putMem_nil (dst : Dst) (off : Nat) (m : Memory) : putMem dst off [] m = m := by
  cases dst with
  | host a => simp only [putMem]; split <;> rfl
  | scratch => rfl

/-- The state after the four words of burst `b` (R205, R206). -/
def afterWords (dst : Dst) (b : Nat) (w : Vector Word 4) (rest : List Word) (s : State) : State :=
  { s with
    inst := { s.inst with win := w }
    port := { s.port with coreOutput := w[3] }
    mem := putMem dst (16 * b) (w.toList.flatMap be32) s.mem
    script := rest
    drawCount := s.drawCount + 4
    log := (wordEvents s.params dst (16 * b) w.toList).reverse ++ s.log }

theorem be32_length (w : Word) : (be32 w).length = 4 := rfl

theorem vec4_toList (w : Vector Word 4) : w.toList = [w[0], w[1], w[2], w[3]] := by
  apply List.ext_getElem
  · simp
  · intro i h1 h2
    simp only [Vector.length_toList] at h1
    interval_cases i <;> simp [Vector.getElem_toList]

theorem vec4_eq {v w : Vector Word 4} : v = w ↔ v[0] = w[0] ∧ v[1] = w[1] ∧ v[2] = w[2] ∧ v[3] = w[3] := by
  constructor
  · rintro rfl; simp
  · rintro ⟨h0, h1, h2, h3⟩
    apply Vector.ext
    intro i hi
    interval_cases i <;> assumption

/-- One word: it is compared with the window, enters it and is stored (R206, R205). -/
theorem readBurstWord_script (dst : Dst) (b : Nat) (k : Fin 4) {r : BurstRead} {w : Word} {rest : List Word}
    (h : r.state.script = w :: rest) :
    readBurstWord dst b k r =
      ⟨r.same && w == r.state.inst.win[k], r.bytes ++ keptBytes dst (be32 w),
        { r.state with
          inst := { r.state.inst with win := r.state.inst.win.set k w }
          port := { r.state.port with coreOutput := w }
          mem := putMem dst (16 * b + 4 * k.val) (be32 w) r.state.mem
          script := rest
          drawCount := r.state.drawCount + 1
          log := (putEvents dst (16 * b + 4 * k.val) (be32 w)).reverse ++
            .rd (portAddr r.state.params .coreOutput) w :: r.state.log }⟩ := by
  unfold readBurstWord
  rw [read32_coreOutput h]
  simp only
  rw [putBytes_eq]

theorem set4 (v w : Vector Word 4) :
    (((v.set 0 w[0]).set 1 w[1]).set 2 w[2]).set 3 w[3] = w := by
  rw [vec4_eq]; simp

/-- Four words stored one after another are their bytes stored at once. -/
theorem putMem_four (dst : Dst) (off : Nat) (w : Vector Word 4) (m : Memory) :
    putMem dst off (w.toList.flatMap be32) m =
      putMem dst (off + 4 * 3) (be32 w[3]) (putMem dst (off + 4 * 2) (be32 w[2])
        (putMem dst (off + 4 * 1) (be32 w[1]) (putMem dst (off + 4 * 0) (be32 w[0]) m))) := by
  rw [vec4_toList, List.flatMap_cons, List.flatMap_cons, List.flatMap_cons, List.flatMap_cons, List.flatMap_nil,
    List.append_nil, putMem_append, putMem_append, putMem_append]
  simp only [be32_length, Nat.add_assoc]
  norm_num

/-- A burst is always read whole: its verdict is equality with the window (R205, R206). -/
theorem readBurst_script (dst : Dst) (b : Nat) {s : State} {w : Vector Word 4} {rest : List Word}
    (h : s.script = w.toList ++ rest) :
    readBurst dst b s =
      ⟨decide (s.inst.win = w), keptBytes dst (w.toList.flatMap be32), afterWords dst b w rest s⟩ := by
  have hw := vec4_toList w
  rw [hw] at h
  simp only [List.cons_append, List.nil_append] at h
  unfold readBurst
  rw [readBurstWord_script dst b 0 (r := ⟨true, [], s⟩) h]
  rw [readBurstWord_script dst b 1 (w := w[1]) (rest := w[2] :: w[3] :: rest) rfl]
  rw [readBurstWord_script dst b 2 (w := w[2]) (rest := w[3] :: rest) rfl]
  rw [readBurstWord_script dst b 3 (w := w[3]) (rest := rest) rfl]
  have hs : (true && w[0] == s.inst.win[0] && w[1] == s.inst.win[1] && w[2] == s.inst.win[2] &&
      w[3] == s.inst.win[3]) = decide (s.inst.win = w) := by
    rw [Bool.eq_iff_iff]
    simp only [Bool.true_and, Bool.and_eq_true, beq_iff_eq, decide_eq_true_eq, vec4_eq]
    constructor
    · rintro ⟨⟨⟨a, b⟩, c⟩, d⟩; exact ⟨a.symm, b.symm, c.symm, d.symm⟩
    · rintro ⟨a, b, c, d⟩; exact ⟨⟨⟨a.symm, b.symm⟩, c.symm⟩, d.symm⟩
  have hset := set4 s.inst.win w
  refine BurstRead.mk.injEq .. |>.mpr ⟨by rw [← hs]; simp, ?_, ?_⟩
  · simp only [keptBytes]; split <;> simp [hw]
  · unfold afterWords
    rw [putMem_four, ← hset]
    simp only [hset, hw, wordEvents]
    simp [hset, Nat.add_assoc]

/-! ## A list of bursts -/

/-- The state after bursts that were all stored, the first of them at burst index `b` (R200). -/
def afterBursts (dst : Dst) (b : Nat) (bs : List Burst) (rest : List Word) (s : State) : State :=
  { s with
    inst := { s.inst with win := windowAfter s.inst.win bs }
    port := s.port.afterBursts s.params s.inst.mode bs
    mem := putMem dst (16 * b) (burstBytes bs) s.mem
    script := rest
    drawCount := s.drawCount + (burstDraws s.inst.mode bs).length
    log := (burstEvents s.params s.inst.mode dst (16 * b) bs).reverse ++ s.log }

/-- What a read shows of a field of `STATUS` is what was drawn: the fields are among the defined bits. -/
theorem and_shown (p : Params) (v f : Word) (h : p.map.statusDefined &&& f = f) : shown p v &&& f = v &&& f := by
  rw [shown, BitVec.and_assoc, h]

theorem or_and_self_right (a b : Word) : (a ||| b) &&& b = b := by
  apply BitVec.eq_of_getLsbD_eq
  intro i _
  rw [BitVec.getLsbD_and, BitVec.getLsbD_or]
  cases a.getLsbD i <;> cases b.getLsbD i <;> rfl

theorem or_and_self_left (a b : Word) : (a ||| b) &&& a = a := by rw [BitVec.or_comm, or_and_self_right]

/-- The fields of `STATUS` lie in its defined bits, on every map (10_state.md R33). -/
theorem statusDefined_fields (m : PortMap) :
    m.statusDefined &&& m.statusDone = m.statusDone ∧ m.statusDefined &&& m.statusDtf = m.statusDtf ∧
      m.statusDefined &&& m.statusCertf = m.statusCertf ∧ m.statusDefined &&& m.statusQcnt = m.statusQcnt := by
  unfold PortMap.statusDefined
  refine ⟨?_, ?_, ?_, or_and_self_right _ _⟩
  · rw [BitVec.or_assoc, BitVec.or_assoc, or_and_self_left]
  · rw [BitVec.or_comm m.statusDone, BitVec.or_assoc, BitVec.or_assoc, or_and_self_left]
  · rw [BitVec.or_assoc, BitVec.or_comm, BitVec.or_assoc, or_and_self_left]

theorem and_shown_qcnt (p : Params) (v : Word) : shown p v &&& p.map.statusQcnt = v &&& p.map.statusQcnt :=
  and_shown p v _ (statusDefined_fields p.map).2.2.2

theorem dtfFlag_shown (p : Params) (v : Word) : dtfFlag p.map (shown p v) = dtfFlag p.map v := by
  unfold dtfFlag; rw [and_shown p v _ (statusDefined_fields p.map).2.1]

theorem certfFlag_shown (p : Params) (v : Word) : certfFlag p.map (shown p v) = certfFlag p.map v := by
  unfold certfFlag; rw [and_shown p v _ (statusDefined_fields p.map).2.2.1]

theorem and_shown_done (p : Params) (v : Word) : shown p v &&& p.map.statusDone = v &&& p.map.statusDone :=
  and_shown p v _ (statusDefined_fields p.map).1

/-- The poll of a burst that is ready at the first read (R203). -/
theorem pollBurst_ready {s : State} {v : Word} {rest : List Word} (hh : s.held = false)
    (h : s.script = v :: rest) (hv : v &&& s.params.map.statusQcnt = s.params.map.burstReady) :
    pollBurst s =
      (true,
        { s with
          script := rest
          drawCount := s.drawCount + 1
          port := { s.port with status := shown s.params v }
          log := .rd (portAddr s.params .status) (shown s.params v) :: s.log }) := by
  unfold pollBurst
  rw [pollField_ready]
  · rw [read32_status h hh]
  · rw [read32_status h hh]; exact (and_shown_qcnt _ v).trans hv

/-- The DTF read (R204), in HRNG and DRNG modes. -/
theorem checkDtf_script {s : State} {v : Word} {rest : List Word} (hm : s.inst.mode ≠ .ptrng)
    (hh : s.held = false) (h : s.script = v :: rest) :
    checkDtf s =
      (dtfFlag s.params.map v,
        { s with
          script := rest
          drawCount := s.drawCount + 1
          port := { s.port with status := shown s.params v }
          log := .rd (portAddr s.params .status) (shown s.params v) :: s.log }) := by
  unfold checkDtf
  rw [read32_status h hh]
  split
  · exact congrArg₂ Prod.mk (dtfFlag_shown s.params v) rfl
  · exact congrArg₂ Prod.mk (dtfFlag_shown s.params v) rfl
  · contradiction

/-- No DTF read in PTRNG mode (R204). -/
theorem checkDtf_ptrng {s : State} (hm : s.inst.mode = .ptrng) : checkDtf s = (false, s) := by
  unfold checkDtf; rw [hm]

theorem dtfFlag_clear {m : PortMap} {v : Word} (h : v &&& m.statusDtf = 0) : dtfFlag m v = false := by
  unfold dtfFlag; rw [h]; rfl

/-- The state after the reads of a burst that was ready at the first read. -/
theorem afterWords_burst (dst : Dst) (b : Nat) (x : Burst) (rest : List Word) {s t : State} (k : Nat)
    (ev : List Event)
    (ht : t =
      { s with
        script := x.words.toList ++ rest
        drawCount := s.drawCount + k
        port := { s.port with status := x.lastStatus s.params s.inst.mode }
        log := ev ++ s.log })
    (hk : k + 4 = (x.draws s.inst.mode).length)
    (hev : (wordEvents s.params dst (16 * b) x.words.toList).reverse ++ ev =
      (x.events s.params s.inst.mode dst (16 * b)).reverse) :
    afterWords dst b x.words rest t = afterBursts dst b [x] rest s := by
  subst ht
  unfold afterWords afterBursts
  simp only [burstDraws, burstEvents, burstBytes, List.flatMap_cons, List.flatMap_nil, List.append_nil, ← hk,
    windowAfter, Port.afterBursts, List.getLast?_singleton, Option.map_some, Option.getD_some, ← hev,
    List.append_assoc, Burst.bytes]
  rfl

/-- The outcome of the reads of one good burst `x` at burst index `b`: a repeat after the first burst ends the collection,
anything else goes on (R200 steps 2c, 2d). -/
theorem collectLoop_burst (dst : Dst) (n b : Nat) (acc : List Byte) {s : State} {x : Burst} {rest : List Word}
    (hh : s.held = false) (hx : x.Good s.params s.inst.mode) (h : s.script = x.draws s.inst.mode ++ rest) :
    collectLoop dst (n + 1) b acc s =
      if 0 < b ∧ s.inst.win = x.words then
        ⟨some .errCatastrophicSw, acc ++ keptBytes dst x.bytes,
          (afterBursts dst b [x] rest s).setRunState .catastrophic⟩
      else collectLoop dst n (b + 1) (acc ++ keptBytes dst x.bytes) (afterBursts dst b [x] rest s) := by
  obtain ⟨hq, hd⟩ := hx
  have key : ∀ u : State, u.inst = s.inst → afterWords dst b x.words rest u = afterBursts dst b [x] rest s →
      u.script = x.words.toList ++ rest →
      (if (decide (0 < b) && (readBurst dst b u).same) = true then
        (⟨some .errCatastrophicSw, acc ++ (readBurst dst b u).bytes,
          (readBurst dst b u).state.setRunState .catastrophic⟩ : Collected)
      else collectLoop dst n (b + 1) (acc ++ (readBurst dst b u).bytes) (readBurst dst b u).state) =
      if 0 < b ∧ s.inst.win = x.words then
        ⟨some .errCatastrophicSw, acc ++ keptBytes dst x.bytes,
          (afterBursts dst b [x] rest s).setRunState .catastrophic⟩
      else collectLoop dst n (b + 1) (acc ++ keptBytes dst x.bytes) (afterBursts dst b [x] rest s) := by
    intro u hi hu hs
    rw [readBurst_script dst b hs, hu, hi]
    simp only [Bool.and_eq_true, decide_eq_true_eq, Burst.bytes]
  rw [collectLoop]
  by_cases hm : s.inst.mode = .ptrng
  · rw [hm] at h
    simp only [Burst.draws, List.cons_append] at h
    rw [pollBurst_ready hh h hq]
    simp only [if_true]
    rw [checkDtf_ptrng (by exact hm)]
    simp only [Bool.false_eq_true, if_false]
    refine key _ rfl (afterWords_burst dst b x rest 1 [.rd (portAddr s.params .status) (shown s.params x.ready)] ?_ ?_ ?_) rfl
    · simp [Burst.lastStatus, hm]
    · simp [Burst.draws, hm]
    · simp [Burst.events, hm]
  · have hdr : x.draws s.inst.mode = x.ready :: x.dtf :: x.words.toList := by
      unfold Burst.draws; cases hmm : s.inst.mode <;> simp_all
    have hst : x.lastStatus s.params s.inst.mode = shown s.params x.dtf := by
      unfold Burst.lastStatus; cases hmm : s.inst.mode <;> simp_all
    have hev : x.events s.params s.inst.mode dst (16 * b) =
        .rd (portAddr s.params .status) (shown s.params x.ready) :: .rd (portAddr s.params .status) (shown s.params x.dtf) ::
          wordEvents s.params dst (16 * b) x.words.toList := by
      unfold Burst.events; cases hmm : s.inst.mode <;> simp_all
    rw [hdr] at h
    simp only [List.cons_append] at h
    rw [pollBurst_ready hh h hq]
    simp only [if_true]
    rw [checkDtf_script (v := x.dtf) (rest := x.words.toList ++ rest) (by exact hm) (by exact hh) rfl,
      dtfFlag_clear (hd hm)]
    simp only [Bool.false_eq_true, if_false]
    refine key _ rfl (afterWords_burst dst b x rest 2
      [.rd (portAddr s.params .status) (shown s.params x.dtf), .rd (portAddr s.params .status) (shown s.params x.ready)] ?_ ?_ ?_) rfl
    · simp [hst]
    · simp [hdr]
    · simp [hev]

theorem keptBytes_append (dst : Dst) (a b : List Byte) : keptBytes dst (a ++ b) = keptBytes dst a ++ keptBytes dst b := by
  simp only [keptBytes]; split <;> rfl

theorem Burst.bytes_length (x : Burst) : x.bytes.length = 16 := by
  simp [Burst.bytes, vec4_toList, be32_length]

theorem burstBytes_length (bs : List Burst) : (burstBytes bs).length = 16 * bs.length := by
  induction bs with
  | nil => rfl
  | cons x bs ih =>
    simp only [burstBytes, List.flatMap_cons, List.length_append, Burst.bytes_length, List.length_cons] at ih ⊢
    omega

theorem Port.afterBursts_cons (q : Params) (m : Mode) (x : Burst) (bs : List Burst) (p : Port) :
    p.afterBursts q m (x :: bs) = (p.afterBursts q m [x]).afterBursts q m bs := by
  cases bs with
  | nil => rfl
  | cons y bs =>
    simp only [Port.afterBursts, List.getLast?_cons_cons, List.getLast?_singleton]
    cases hl : (y :: bs).getLast? <;> simp_all

theorem windowAfter_cons (w : Vector Word 4) (x : Burst) (bs : List Burst) :
    windowAfter w (x :: bs) = windowAfter x.words bs := by
  cases bs with
  | nil => rfl
  | cons y bs =>
    simp only [windowAfter, List.getLast?_cons_cons]
    cases hl : (y :: bs).getLast? <;> simp_all

/-- The state after one burst and then others. -/
theorem afterBursts_cons (dst : Dst) (b : Nat) (x : Burst) (bs : List Burst) (rest rest' : List Word) (s : State) :
    afterBursts dst (b + 1) bs rest (afterBursts dst b [x] rest' s) = afterBursts dst b (x :: bs) rest s := by
  have hb : burstBytes (x :: bs) = x.bytes ++ burstBytes bs := rfl
  have h1 : burstBytes [x] = x.bytes := by simp [burstBytes]
  unfold afterBursts
  simp only [windowAfter_cons _ x bs, Port.afterBursts_cons _ _ x bs, hb, h1, putMem_append, Burst.bytes_length]
  simp [burstDraws, burstEvents, windowAfter, Nat.add_assoc, Nat.mul_add]

theorem afterBursts_nil (dst : Dst) (b : Nat) (s : State) : afterBursts dst b [] s.script s = s := by
  unfold afterBursts
  rw [show burstBytes [] = [] from rfl, putMem_nil]
  rfl

/-- Bursts neither hold nor release the hardware. -/
theorem held_afterBursts (dst : Dst) (b : Nat) (bs : List Burst) (rest : List Word) (s : State) :
    (afterBursts dst b bs rest s).held = s.held := by
  refine State.held_congr ?_ rfl
  unfold afterBursts Port.afterBursts
  simp only
  split <;> rfl

/-- A run of good bursts none of which repeats the one before it is stored, and the collection goes on (R200). -/
theorem collectLoop_good (dst : Dst) (n : Nat) (bs : List Burst) (b : Nat) (acc : List Byte) {s : State}
    {rest : List Word} (hh : s.held = false) (hg : ∀ x ∈ bs, x.Good s.params s.inst.mode)
    (hw : 0 < b → ∀ x ∈ bs.head?, s.inst.win ≠ x.words) (hr : NoRepeat bs)
    (h : s.script = burstDraws s.inst.mode bs ++ rest) :
    collectLoop dst (bs.length + n) b acc s =
      collectLoop dst n (b + bs.length) (acc ++ keptBytes dst (burstBytes bs)) (afterBursts dst b bs rest s) := by
  induction bs generalizing b acc s with
  | nil =>
    have : rest = s.script := by simpa [burstDraws] using h.symm
    subst this
    rw [afterBursts_nil]
    simp [keptBytes, burstBytes]
  | cons x bs ih =>
    have hcons : (x :: bs).length + n = (bs.length + n) + 1 := by simp; omega
    have hs : s.script = x.draws s.inst.mode ++ (burstDraws s.inst.mode bs ++ rest) := by
      rw [h]; simp [burstDraws]
    rw [hcons, collectLoop_burst dst _ b acc hh (hg x (List.mem_cons_self ..)) hs,
      if_neg (by rintro ⟨hb, he⟩; exact hw hb x (by simp) he)]
    have hmode : (afterBursts dst b [x] (burstDraws s.inst.mode bs ++ rest) s).inst.mode = s.inst.mode := rfl
    rw [ih (b + 1) _ (s := afterBursts dst b [x] (burstDraws s.inst.mode bs ++ rest) s)]
    · rw [afterBursts_cons]
      congr 1
      · simp; omega
      · simp [burstBytes, keptBytes_append]
    · exact (held_afterBursts ..).trans hh
    · exact fun y hy => hg y (List.mem_cons_of_mem _ hy)
    · intro _ y hy
      cases bs with
      | nil => simp at hy
      | cons z bs =>
        simp only [List.head?_cons, Option.mem_some_iff] at hy
        subst hy
        exact hr.1
    · cases bs with
      | nil => trivial
      | cons z bs => exact hr.2
    · rfl

/-! ## The whole invocation -/

/-- The burst-ready poll that is never shown `QCNT` = 4 (R203). -/
theorem pollBurst_timeout {s : State} (vs : List Word) (v : Word) (rest : List Word) (hh : s.held = false)
    (hn : vs.length = pollSleeps s.params.tBurstUs s.params.pollSleepUs)
    (hvs : NeverShows s.params s.params.map.statusQcnt s.params.map.burstReady (vs ++ [v])) (h : s.script = vs ++ v :: rest) :
    pollBurst s =
      (false,
        { s with
          port := { s.port with status := shown s.params v }
          script := rest
          drawCount := s.drawCount + (vs.length + 1)
          log := (pollEvents s.params vs ++ [Event.rd (portAddr s.params .status) (shown s.params v)]).reverse ++ s.log }) := by
  unfold pollBurst pollField
  rw [← hn]
  exact pollLoop_timeout _ _ _ _ _ hh hvs h

/-- The size rule, once (R201). -/
theorem collectBurst_size {n : Nat} (dst : Dst) (hn : n ≠ 0) (h16 : n % 16 = 0) (s : State) :
    collectBurst dst n s = collectLoop dst (n / 16) 0 [] (assertStart s) := by
  unfold collectBurst; simp [hn, h16]

theorem assertStart_frame (s : State) : PortFrame s (assertStart s) := rmw32_frame _ _ _ s

/-- A collection of good bursts, none of which repeats the one before it (R200). -/
theorem collectBurst_good (dst : Dst) (bs : List Burst) {s : State} {rest : List Word} (hne : bs ≠ [])
    (hh : s.held = false) (hg : ∀ x ∈ bs, x.Good s.params s.inst.mode) (hr : NoRepeat bs)
    (h : s.script = burstDraws s.inst.mode bs ++ rest) :
    collectBurst dst (16 * bs.length) s =
      ⟨none, keptBytes dst (burstBytes bs), afterBursts dst 0 bs rest (assertStart s)⟩ := by
  have hl : 0 < bs.length := List.length_pos_iff.2 hne
  rw [collectBurst_size dst (by omega) (by omega)]
  have h1 : 16 * bs.length / 16 = bs.length + 0 := by omega
  rw [h1]
  rw [assertStart_released hh]
  exact collectLoop_good dst 0 bs 0 [] (s := { s with port := _, log := _ }) hh hg (by simp) hr h

/-- The burst window after a collection holds its last burst (R206). -/
theorem afterBursts_win (dst : Dst) (b : Nat) (bs : List Burst) (rest : List Word) (s : State) :
    (afterBursts dst b bs rest s).inst.win = windowAfter s.inst.win bs := rfl

/-! ## Whatever the environment answers -/

/-- What a collection leaves alone: all of the instance but the window and `I.State`, every port register but `CTRL`'s
start bit, `STATUS` and `CORE_OUTPUT`. -/
structure CollectFrame (s t : State) : Prop where
  inst : t.inst = { s.inst with win := t.inst.win, state := t.inst.state }
  result : t.result = s.result
  params : t.params = s.params
  commands : t.commands = s.commands
  cmdIndex : t.cmdIndex = s.cmdIndex
  ret : t.ret = s.ret
  resetCount : t.resetCount = s.resetCount
  ctrl : t.port.ctrl = s.port.ctrl
  reset : t.port.reset = s.port.reset
  oscEn : t.port.oscEn = s.port.oscEn
  extSeed : t.port.extSeed = s.port.extSeed
  perStrng : t.port.perStrng = s.port.perStrng

theorem CollectFrame.refl (s : State) : CollectFrame s s := ⟨rfl, rfl, rfl, rfl, rfl, rfl, rfl, rfl, rfl, rfl, rfl, rfl⟩

theorem CollectFrame.trans {s t u : State} (h : CollectFrame s t) (k : CollectFrame t u) : CollectFrame s u :=
  ⟨by rw [k.inst, h.inst], k.result.trans h.result, k.params.trans h.params, k.commands.trans h.commands,
    k.cmdIndex.trans h.cmdIndex, k.ret.trans h.ret, k.resetCount.trans h.resetCount, k.ctrl.trans h.ctrl,
    k.reset.trans h.reset, k.oscEn.trans h.oscEn, k.extSeed.trans h.extSeed, k.perStrng.trans h.perStrng⟩

theorem ReadFrame.collect {s t : State} (h : ReadFrame s t) : CollectFrame s t :=
  ⟨by rw [h.inst], h.result, h.params, h.commands, h.cmdIndex, h.ret, h.resetCount, h.ctrl, h.reset, h.oscEn, h.extSeed,
    h.perStrng⟩

theorem CollectFrame.setRunState {s t : State} (h : CollectFrame s t) (r : RunState) :
    CollectFrame s (t.setRunState r) :=
  ⟨by simp only [State.setRunState]; rw [h.inst], h.result, h.params, h.commands, h.cmdIndex, h.ret, h.resetCount, h.ctrl,
    h.reset, h.oscEn, h.extSeed, h.perStrng⟩

theorem Covers.mono {dst : Dst} {lo hi lo' hi' k : Nat} (h : Covers dst lo hi k) (h1 : lo' ≤ lo) (h2 : hi ≤ hi') :
    Covers dst lo' hi' k := by
  cases dst <;> simp only [Covers] at h ⊢
  exact ⟨h.1, by omega, by omega⟩

/-- Storing changes no byte outside the destination. -/
theorem putMem_outside {dst : Dst} {off k : Nat} {b : List Byte} {m : Memory}
    (h : ¬ Covers dst off (off + b.length) k) : memRead (putMem dst off b m) k = memRead m k := by
  cases dst with
  | host a =>
    simp only [Covers] at h
    simp only [putMem]
    split
    · rfl
    · next ha => exact memRead_memWriteBytes_outside _ _ _ _ (by
      by_contra hc
      exact h ⟨ha, by omega, by omega⟩)
  | scratch => rfl

/-- Storing keeps the canonical form of host memory. -/
theorem putMem_wf {dst : Dst} {off : Nat} {b : List Byte} {m : Memory} (h : Memory.wf m = true) :
    Memory.wf (putMem dst off b m) = true := by
  cases dst with
  | host a =>
    simp only [putMem]
    split
    exacts [h, memWriteBytes_wf _ h _ _]
  | scratch => exact h

/-- Storing is no port access. -/
theorem accessCount_putEvents (dst : Dst) (off : Nat) (b : List Byte) (l : List Event) :
    accessCount ((putEvents dst off b).reverse ++ l) = accessCount l := by
  cases dst with
  | host a => simp only [putEvents]; split <;> simp [accessCount, Event.isAccess]
  | scratch => rfl

theorem readBurstWord_frame (dst : Dst) (b : Nat) (k : Fin 4) (r : BurstRead) :
    CollectFrame r.state (readBurstWord dst b k r).state ∧
      (readBurstWord dst b k r).state.inst.state = r.state.inst.state ∧
      accessCount (readBurstWord dst b k r).state.log = accessCount r.state.log + 1 ∧
      (Memory.wf r.state.mem = true → Memory.wf (readBurstWord dst b k r).state.mem = true) ∧
      (∀ j, ¬ Covers dst (16 * b) (16 * (b + 1)) j →
        memRead (readBurstWord dst b k r).state.mem j = memRead r.state.mem j) ∧
      (dst = .scratch → (readBurstWord dst b k r).state.mem = r.state.mem) := by
  have h := read32_frame .coreOutput r.state
  have hl := read32_log .coreOutput r.state
  unfold readBurstWord
  simp only
  rw [putBytes_eq]
  refine ⟨⟨?_, h.result, h.params, h.commands, h.cmdIndex, h.ret, h.resetCount, h.ctrl, h.reset, h.oscEn, h.extSeed,
    h.perStrng⟩, ?_, ?_, ?_, ?_, ?_⟩
  · simp only [h.inst]
  · simp only [h.inst]
  · simp only [accessCount_putEvents, hl, accessCount_cons, Event.isAccess, if_true]
  · intro hm
    exact putMem_wf (by simpa [h.mem] using hm)
  · intro j hj
    refine (putMem_outside ?_).trans (by simp [h.mem])
    intro hc
    exact hj (Covers.mono hc (by omega) (by have := k.isLt; simp only [be32_length]; omega))
  · rintro rfl; exact h.mem

/-- The four reads of a burst, whatever they return. -/
theorem readBurst_frame (dst : Dst) (b : Nat) (s : State) :
    CollectFrame s (readBurst dst b s).state ∧ (readBurst dst b s).state.inst.state = s.inst.state ∧
      accessCount (readBurst dst b s).state.log = accessCount s.log + 4 ∧
      (Memory.wf s.mem = true → Memory.wf (readBurst dst b s).state.mem = true) ∧
      (∀ j, ¬ Covers dst (16 * b) (16 * (b + 1)) j → memRead (readBurst dst b s).state.mem j = memRead s.mem j) ∧
      (dst = .scratch → (readBurst dst b s).state.mem = s.mem) := by
  unfold readBurst
  obtain ⟨f0, i0, a0, w0, m0, e0⟩ := readBurstWord_frame dst b 0 ⟨true, [], s⟩
  obtain ⟨f1, i1, a1, w1, m1, e1⟩ := readBurstWord_frame dst b 1 (readBurstWord dst b 0 ⟨true, [], s⟩)
  obtain ⟨f2, i2, a2, w2, m2, e2⟩ := readBurstWord_frame dst b 2 (readBurstWord dst b 1 (readBurstWord dst b 0 ⟨true, [], s⟩))
  obtain ⟨f3, i3, a3, w3, m3, e3⟩ := readBurstWord_frame dst b 3
    (readBurstWord dst b 2 (readBurstWord dst b 1 (readBurstWord dst b 0 ⟨true, [], s⟩)))
  refine ⟨((f0.trans f1).trans f2).trans f3, by rw [i3, i2, i1, i0], by rw [a3, a2, a1, a0], fun h => w3 (w2 (w1 (w0 h))),
    fun j hj => by rw [m3 j hj, m2 j hj, m1 j hj, m0 j hj], fun h => by rw [e3 h, e2 h, e1 h, e0 h]⟩

/-- `I.State` after an internal operation: only a catastrophic failure has written it (R209). -/
def stateAfter (fail : Option Status) (old : RunState) : RunState :=
  match fail with
  | some e => if isCatastrophic e then .catastrophic else old
  | none => old

/-- Everything a collection can do (R200, R208, R209, R411). -/
structure CollectOutcome (dst : Dst) (b n : Nat) (s : State) (c : Collected) : Prop where
  frame : CollectFrame s c.state
  /-- `I.State` is written only by a catastrophic detection (R209). -/
  state : c.state.inst.state = stateAfter c.fail s.inst.state
  code : ∀ e, c.fail = some e → e = .errGenerateTimeout ∨ (e = .errCatastrophicDtf ∧ s.inst.mode ≠ .ptrng) ∨
    e = .errCatastrophicSw
  accesses : accessCount c.state.log ≤
    accessCount s.log + n * (maxPollReads s.params.tBurstUs s.params.pollSleepUs + 5)
  wf : Memory.wf s.mem = true → Memory.wf c.state.mem = true
  outside : ∀ j, ¬ Covers dst (16 * b) (16 * (b + n)) j → memRead c.state.mem j = memRead s.mem j
  scratch : dst = .scratch → c.state.mem = s.mem

theorem checkDtf_frame (s : State) :
    ReadFrame s (checkDtf s).2 ∧ accessCount (checkDtf s).2.log ≤ accessCount s.log + 1 ∧
      ((checkDtf s).1 = true → s.inst.mode ≠ .ptrng) := by
  unfold checkDtf
  split
  · next h => exact ⟨read32_frame .status s, by simp [read32_log, accessCount_cons, Event.isAccess], by simp [h]⟩
  · next h => exact ⟨read32_frame .status s, by simp [read32_log, accessCount_cons, Event.isAccess], by simp [h]⟩
  · next h => exact ⟨.refl s, Nat.le_succ _, by simp⟩

theorem pollBurst_frame (s : State) :
    ReadFrame s (pollBurst s).2 ∧ accessCount (pollBurst s).2.log ≤
      accessCount s.log + maxPollReads s.params.tBurstUs s.params.pollSleepUs :=
  ⟨pollField_frame .status _ _ _ s, pollLoop_accesses _ _ _ _ _ _⟩

theorem collectLoop_outcome (dst : Dst) (n b : Nat) (acc : List Byte) (s : State) :
    CollectOutcome dst b n s (collectLoop dst n b acc s) := by
  induction n generalizing b acc s with
  | zero => exact ⟨.refl s, rfl, by simp [collectLoop], by simp [collectLoop], id, fun _ _ => rfl,
      fun _ => rfl⟩
  | succ n ih =>
    obtain ⟨fp, ap⟩ := pollBurst_frame s
    obtain ⟨fd, ad, md⟩ := checkDtf_frame (pollBurst s).2
    obtain ⟨fr, ir, ar, wr, mr, er⟩ := readBurst_frame dst b (checkDtf (pollBurst s).2).2
    have hn : ∀ c, (n + 1) * c = n * c + c := fun c => Nat.succ_mul n c
    rw [collectLoop]
    simp only
    split_ifs with h1 h2 h3
    · refine ⟨(fp.trans fd).collect.setRunState _, rfl, ?_, ?_, ?_, ?_, ?_⟩
      · intro e he; cases he; exact .inr (.inl ⟨rfl, by have := md h2; rwa [fp.inst] at this⟩)
      · simp only [State.setRunState]; rw [hn]; omega
      · intro h; simpa [State.setRunState, fd.mem, fp.mem] using h
      · intro j _; simp [State.setRunState, fd.mem, fp.mem]
      · intro _; simp [State.setRunState, fd.mem, fp.mem]
    · refine ⟨((fp.trans fd).collect.trans fr).setRunState _, rfl, ?_, ?_, ?_, ?_, ?_⟩
      · intro e he; cases he; exact .inr (.inr rfl)
      · simp only [State.setRunState]; rw [hn]; omega
      · intro h; exact wr (by simpa [fd.mem, fp.mem] using h)
      · intro j hj
        exact (mr j fun hc => hj (Covers.mono hc (by omega) (by omega))).trans (by rw [fd.mem, fp.mem])
      · intro h; exact (er h).trans (by rw [fd.mem, fp.mem])
    · have hf := (fp.trans fd).collect.trans fr
      have o := ih (b + 1) (acc ++ (readBurst dst b (checkDtf (pollBurst s).2).2).bytes)
        (readBurst dst b (checkDtf (pollBurst s).2).2).state
      refine ⟨hf.trans o.frame, ?_, ?_, ?_, ?_, ?_, ?_⟩
      · rw [o.state, ir, fd.inst, fp.inst]
      · intro e he
        have := o.code e he
        have hm : (readBurst dst b (checkDtf (pollBurst s).2).2).state.inst.mode = s.inst.mode := by rw [hf.inst]
        rwa [hm] at this
      · have := o.accesses
        rw [hf.params] at this
        rw [hn]; omega
      · intro h; exact o.wf (wr (by simpa [fd.mem, fp.mem] using h))
      · intro j hj
        refine (o.outside j fun hc => hj (Covers.mono hc (by omega) (by omega))).trans ?_
        exact (mr j fun hc => hj (Covers.mono hc (by omega) (by omega))).trans (by rw [fd.mem, fp.mem])
      · intro h; rw [o.scratch h, er h, fd.mem, fp.mem]
    · refine ⟨fp.collect, ?_, ?_, ?_, ?_, ?_, ?_⟩
      · simp [stateAfter, isCatastrophic, fp.inst]
      · intro e he; cases he; exact .inl rfl
      · rw [hn]; simp only; omega
      · intro h; simpa [fp.mem] using h
      · intro j _; simp [fp.mem]
      · intro _; simp [fp.mem]

end Sys2Proof.Machine
end

