-- ==== Sys2Proof/Laws/Core.lean ====
section
/-! SUPPORT. What the core operations can do: the accesses they make and the reserved bits they keep, the outcome of
`ReseedCore` whatever the environment answers, and its successful runs. -/

namespace Sys2Proof.Machine

/-! ## Accesses and reserved bits -/

/-- The port's reserved bits are clear and every event of the log is one the commands may make. -/
def State.Clean (s : State) : Prop := ReservedClear s.params.map s.port ∧ ∀ e ∈ s.log, AllowedEvent s.params e

theorem State.Clean.of_eq {s t : State} (h : s.Clean) (hp : t.port = s.port) (hl : t.log = s.log)
    (hq : t.params = s.params) : t.Clean := by
  unfold State.Clean; rw [hp, hl, hq]; exact h

theorem and_and_not (v m : Word) : v &&& m &&& ~~~m = 0 := by
  rw [BitVec.and_assoc]; simp

theorem clean_cons {s : State} {e : Event} (h : ∀ x ∈ s.log, AllowedEvent s.params x) (he : AllowedEvent s.params e) :
    ∀ x ∈ e :: s.log, AllowedEvent s.params x := by
  intro x hx
  rcases List.mem_cons.1 hx with rfl | hx
  exacts [he, h x hx]

theorem clean_read32 {r : PortReg} (hr : r = .ctrl ∨ r = .status ∨ r = .coreOutput) {s : State} (h : s.Clean) :
    (read32 r s).2.Clean := by
  have hf := read32_frame r s
  obtain ⟨⟨hc, hs, hre, ho⟩, hl⟩ := h
  unfold State.Clean
  rw [hf.params]
  refine ⟨⟨by rw [hf.ctrl]; exact hc, ?_, by rw [hf.reset]; exact hre, by rw [hf.oscEn]; exact ho⟩, ?_⟩
  · unfold read32 readPort
    rcases hr with rfl | rfl | rfl
    · exact hs
    · simp only [State.logEvent_port]
      split
      · exact hs
      · exact and_and_not _ _
    · exact hs
  · rw [read32_log]
    refine clean_cons hl ?_
    rcases hr with rfl | rfl | rfl
    exacts [.inl rfl, .inr (.inl rfl), .inr (.inr rfl)]

theorem clean_write32 {r : PortReg} (hr : r = .ctrl ∨ r = .reset ∨ (∃ k, r = .extSeed k) ∨ ∃ k, r = .perStrng k)
    (v : Word) {s : State} (h : s.Clean) : (write32 r v s).Clean := by
  obtain ⟨hf, -, -, hlog⟩ := write32_frame r v s
  obtain ⟨⟨hc, hs, hre, ho⟩, hl⟩ := h
  unfold State.Clean
  rw [hf.params]
  refine ⟨?_, ?_⟩
  · unfold write32 writePort
    simp only [State.logEvent_port]
    rcases hr with rfl | rfl | ⟨k, rfl⟩ | ⟨k, rfl⟩
    · rw [if_neg (by simp)]
      split
      · exact ⟨hc, hs, hre, ho⟩
      · exact ⟨and_and_not _ _, hs, hre, ho⟩
    · rw [if_pos rfl]
      split
      · exact ⟨by simp [Port.zeroed], by simp [Port.zeroed], .inr rfl, rfl⟩
      · exact ⟨hc, hs, .inl rfl, ho⟩
    all_goals
      rw [if_neg (by simp)]
      split <;> exact ⟨hc, hs, hre, ho⟩
  · rw [hlog]
    refine clean_cons hl ?_
    rcases hr with rfl | rfl | ⟨k, rfl⟩ | ⟨k, rfl⟩
    exacts [.inl rfl, .inr (.inl rfl), .inr (.inr (.inl ⟨k, rfl⟩)), .inr (.inr (.inr ⟨k, rfl⟩))]

theorem clean_sleep {us : Nat} {s : State} (h : s.Clean) : (sleepUs us s).Clean :=
  ⟨h.1, clean_cons h.2 trivial⟩

theorem clean_rmw (mask v : Word) {s : State} (h : s.Clean) : (rmw32 .ctrl mask v s).Clean :=
  clean_write32 (.inl rfl) _ (clean_read32 (.inl rfl) h)

theorem clean_poll (mask expect : Word) (sleep n : Nat) {s : State} (h : s.Clean) :
    (pollLoop .status mask expect sleep n s).2.Clean := by
  induction n generalizing s with
  | zero => exact clean_read32 (.inr (.inl rfl)) h
  | succ n ih =>
    rw [pollLoop]
    split
    · exact clean_read32 (.inr (.inl rfl)) h
    · exact ih (clean_sleep (clean_read32 (.inr (.inl rfl)) h))

theorem clean_foldl {α : Type} (l : List α) (r : α → PortReg) (v : α → Word)
    (hr : ∀ k, r k = .ctrl ∨ r k = .reset ∨ (∃ j, r k = .extSeed j) ∨ ∃ j, r k = .perStrng j) {s : State} (h : s.Clean) :
    (l.foldl (fun s k => write32 (r k) (v k) s) s).Clean := by
  induction l generalizing s with
  | nil => exact h
  | cons k l ih => exact ih (clean_write32 (hr k) _ h)

theorem clean_writeGroup (g : RegGroup) (b : Vector Byte 48) {s : State} (h : s.Clean) : (writeGroup g b s).Clean :=
  clean_foldl _ (fun k : Fin 12 => groupReg g k.rev) _ (by
    intro k
    cases g
    exacts [.inr (.inr (.inl ⟨_, rfl⟩)), .inr (.inr (.inr ⟨_, rfl⟩))]) h

theorem clean_zeroize {s : State} (h : s.Clean) : (zeroizeSeedRegs s).Clean :=
  clean_foldl _ (fun k : Fin 12 => PortReg.perStrng k) (fun _ => 0) (fun _ => .inr (.inr (.inr ⟨_, rfl⟩)))
    (clean_foldl _ (fun k : Fin 12 => PortReg.extSeed k) (fun _ => 0) (fun _ => .inr (.inr (.inl ⟨_, rfl⟩))) h)

theorem clean_putBytes {dst : Dst} {off : Nat} {b : List Byte} {s : State} (h : s.Clean) :
    (putBytes dst off b s).Clean := by
  rw [putBytes_eq]
  refine ⟨h.1, ?_⟩
  cases dst with
  | host a =>
    simp only [putEvents]
    split
    exacts [h.2, clean_cons h.2 trivial]
  | scratch => exact h.2

theorem clean_readBurst (dst : Dst) (b : Nat) {s : State} (h : s.Clean) : (readBurst dst b s).state.Clean := by
  have step : ∀ (k : Fin 4) (r : BurstRead), r.state.Clean → (readBurstWord dst b k r).state.Clean := by
    intro k r hr
    exact clean_putBytes ((clean_read32 (.inr (.inr rfl)) hr).of_eq rfl rfl rfl)
  exact step _ _ (step _ _ (step _ _ (step _ _ h)))

theorem clean_checkDtf {s : State} (h : s.Clean) : (checkDtf s).2.Clean := by
  unfold checkDtf
  split
  exacts [clean_read32 (.inr (.inl rfl)) h, clean_read32 (.inr (.inl rfl)) h, h]

theorem clean_collectLoop (dst : Dst) (n b : Nat) (acc : List Byte) {s : State} (h : s.Clean) :
    (collectLoop dst n b acc s).state.Clean := by
  induction n generalizing b acc s with
  | zero => exact h
  | succ n ih =>
    have h1 : (pollBurst s).2.Clean := clean_poll _ _ _ _ h
    have h2 := clean_checkDtf h1
    have h3 := clean_readBurst dst b h2
    rw [collectLoop]
    simp only
    split_ifs
    · exact h2.of_eq rfl rfl rfl
    · exact h3.of_eq rfl rfl rfl
    · exact ih _ _ h3
    · exact h1

theorem clean_collectBurst (dst : Dst) (n : Nat) {s : State} (h : s.Clean) : (collectBurst dst n s).state.Clean := by
  unfold collectBurst
  split
  · exact h
  · exact clean_collectLoop _ _ _ _ (clean_rmw _ _ h)

theorem clean_hwProgram (sel : HwSel) {s : State} (h : s.Clean) : (hwProgram sel s).Clean :=
  clean_write32 (.inl rfl) _ h

theorem clean_hwReset {s : State} (h : s.Clean) : (hwReset s).Clean :=
  clean_write32 (.inr (.inl rfl)) _ (clean_sleep (clean_write32 (.inr (.inl rfl)) _ h))

theorem clean_hwHoldReset {s : State} (h : s.Clean) : (hwHoldReset s).Clean := clean_write32 (.inr (.inl rfl)) _ h

theorem clean_seedMaterial (seed : Option (List Byte)) {s : State} (h : s.Clean) : (seedMaterial seed s).state.Clean := by
  have h1 := clean_collectBurst .scratch s.inst.entropySize.toNat (clean_hwProgram .entropy h)
  unfold seedMaterial
  split
  · exact h
  all_goals
    simp only
    split
    · exact h1
    · split <;> exact h1

theorem clean_deliverSeed (mat : List Byte) {s : State} (h : s.Clean) : (deliverSeed mat s).Clean := by
  unfold deliverSeed
  split
  · simp only
    split
    · exact clean_writeGroup _ _ (clean_writeGroup _ _ h)
    · exact clean_writeGroup _ _ h
  · exact clean_writeGroup _ _ h

theorem clean_hardwareReseed {s : State} (h : s.Clean) : (hardwareReseed s).2.Clean := by
  have h1 : (pollDone (assertStart (hwProgram .reseedExt s))).2.Clean :=
    clean_poll _ _ _ _ (clean_rmw _ _ (clean_hwProgram _ h))
  have h2 := clean_read32 (.inr (.inl rfl)) h1
  unfold hardwareReseed
  simp only
  split_ifs
  exacts [h2, clean_rmw _ _ h2, h1]

theorem clean_reseedCore (seed : Option (List Byte)) (m : BitVec 4) {s : State} (h : s.Clean) :
    (reseedCore seed m s).2.Clean := by
  have h1 : (seedMaterial seed (beginReseed m s)).state.Clean := clean_seedMaterial _ (h.of_eq rfl rfl rfl)
  unfold reseedCore
  simp only
  split
  exacts [h1, clean_hardwareReseed (clean_deliverSeed _ h1)]

theorem clean_orRaise {r : Option Status × State} {go : State → Status × State} (h : r.2.Clean)
    (hg : ∀ t, t.Clean → (go t).2.Clean) : (orRaise r go).2.Clean := by
  unfold orRaise
  split
  exacts [h.of_eq rfl rfl rfl, hg _ h]

/-- Recording accesses that a command may make keeps the log clean. -/
theorem clean_logEvents {es : List Event} {s : State} (h : s.Clean) (he : ∀ e ∈ es, AllowedEvent s.params e) :
    (s.logEvents es).Clean := by
  refine ⟨h.1, fun e hm => ?_⟩
  rcases List.mem_append.1 hm with hm | hm
  exacts [he e (List.mem_reverse.1 hm), h.2 e hm]

/-- The reads of an operand record are no port accesses. -/
def InstConfig.ReadsMemory (c : InstConfig) : Prop :=
  ∀ (p : Params), ∀ e ∈ c.readsLife ++ c.readsStored, AllowedEvent p e

theorem readsMemory_record (m : Memory) (mode : BitVec 2) (pr dfdis : Bool) (mul : BitVec 4) (seedp persp : Bool)
    (a0 : HostAddr) : (instConfigOfRecord m mode pr dfdis mul seedp persp a0).ReadsMemory := by
  intro p e he
  simp only [instConfigOfRecord, lifeReads, storeReads, seedRead, persRead, List.mem_append, List.mem_map] at he
  rcases he with ⟨k, -, rfl⟩ | he | he
  · trivial
  · split at he
    · obtain rfl := List.mem_singleton.1 he; trivial
    · cases he
  · split at he
    · obtain rfl := List.mem_singleton.1 he; trivial
    · cases he

theorem clean_opInstantiate {c : InstConfig} (hc : c.ReadsMemory) {s : State} (h : s.Clean) :
    (opInstantiate c s).2.Clean := by
  have h0 : ((clearStatistics s).logEvents c.readsLife).Clean :=
    clean_logEvents (h.of_eq rfl rfl rfl) fun e he => hc _ e (List.mem_append_left _ he)
  unfold opInstantiate
  split
  · exact h.of_eq rfl rfl rfl
  · simp only
    split
    · exact h0.of_eq rfl rfl rfl
    · have h1 := clean_hwReset (s := storeConfig c (((clearStatistics s).logEvents c.readsLife).logEvents c.readsStored))
        ((clean_logEvents h0 fun e he => hc _ e (List.mem_append_right _ he)).of_eq rfl rfl rfl)
      unfold finishInstantiate
      split
      · exact h1.of_eq rfl rfl rfl
      all_goals exact clean_orRaise (clean_reseedCore _ _ h1) fun t ht => ht.of_eq rfl rfl rfl

theorem clean_opReseed (mul : BitVec 4) (seedp : Bool) (a0 : HostAddr) {s : State} (h : s.Clean) :
    (opReseed mul seedp a0 s).2.Clean := by
  unfold opReseed
  split
  · exact h.of_eq rfl rfl rfl
  · split
    · exact h.of_eq rfl rfl rfl
    · split
      · have h1 : (s.logEvent (seedRead s.mem a0 (entropySizeFor s.inst.dfDisabled mul))).Clean :=
          ⟨h.1, clean_cons h.2 trivial⟩
        unfold reseedWithSeed
        simp only
        split
        · exact h1.of_eq rfl rfl rfl
        · exact clean_orRaise (clean_reseedCore _ _ h1) fun t ht => ht.of_eq rfl rfl rfl
      all_goals exact clean_orRaise (clean_reseedCore _ _ h) fun t ht => ht.of_eq rfl rfl rfl

theorem clean_generatePolicy (pr : Bool) {s : State} (h : s.Clean) : (generatePolicy pr s).2.Clean := by
  unfold generatePolicy
  split
  · split
    exacts [clean_reseedCore _ _ h, h]
  · split_ifs <;> exact h
  · exact h

theorem clean_generateOutput (dst : Dst) {s : State} (h : s.Clean) : (generateOutput dst s).state.Clean := by
  unfold generateOutput
  split
  · split
    · exact clean_collectBurst _ _ (clean_hwProgram _ h)
    · have h1 := clean_collectBurst .scratch s.inst.entropySize.toNat (clean_hwProgram .entropy h)
      simp only
      split
      exacts [h1, clean_putBytes h1]
  all_goals exact clean_collectBurst _ _ (clean_hwProgram _ h)

theorem clean_opGenerate (dst : Dst) (size : Nat) (pr : Bool) {s : State} (h : s.Clean) :
    (opGenerate dst size pr s).state.Clean := by
  unfold opGenerate
  split
  · exact h.of_eq rfl rfl rfl
  · split
    · exact h.of_eq rfl rfl rfl
    · simp only
      split
      · exact (clean_generatePolicy pr h).of_eq rfl rfl rfl
      · have h1 := clean_generateOutput dst (clean_generatePolicy pr h)
        split <;> exact h1.of_eq rfl rfl rfl

theorem clean_succeed_zero {s : State} (h : s.Clean) : s.zeroInstance.succeed.2.Clean := h.of_eq rfl rfl rfl

theorem clean_opUninstantiate {s : State} (h : s.Clean) : (opUninstantiate s).2.Clean := by
  have h1 := clean_succeed_zero (clean_hwHoldReset (clean_zeroize h))
  have h2 : (s.raise .errInvalidState).2.Clean := h.of_eq rfl rfl rfl
  unfold opUninstantiate
  split
  · exact h2
  · exact h1

theorem clean_opRunKat {s : State} (h : s.Clean) : (opRunKat s).2.Clean := by
  have h1 := clean_opInstantiate (c := katConfig s.params) (fun _ _ he => by cases he) h
  have h2 := clean_opGenerate .scratch 32 false h1
  unfold opRunKat
  simp only
  split_ifs
  exacts [h1, h2, h2.of_eq rfl rfl rfl, clean_opUninstantiate h2]

theorem clean_opRunHealthTest {s : State} (h : s.Clean) : (opRunHealthTest s).2.Clean := by
  have h1 := clean_opInstantiate (c := healthConfig s.params) (fun _ _ he => by cases he) h
  unfold opRunHealthTest
  simp only
  split_ifs
  exacts [h1, clean_opUninstantiate h1]

/-! ## Operations that never touch `RESET` -/

/-- What an operation that only reads the port and writes registers other than `RESET` leaves alone. -/
structure KeepFrame (s t : State) : Prop extends PortFrame s t where
  reset : t.port.reset = s.port.reset
  resetCount : t.resetCount = s.resetCount

theorem KeepFrame.refl (s : State) : KeepFrame s s := ⟨.refl s, rfl, rfl⟩

theorem KeepFrame.trans {s t u : State} (h : KeepFrame s t) (k : KeepFrame t u) : KeepFrame s u :=
  ⟨h.toPortFrame.trans k.toPortFrame, k.reset.trans h.reset, k.resetCount.trans h.resetCount⟩

theorem ReadFrame.keep {s t : State} (h : ReadFrame s t) : KeepFrame s t := ⟨h.toPortFrame, h.reset, h.resetCount⟩

theorem keep_write32 {r : PortReg} (hr : r ≠ .reset) (v : Word) (s : State) : KeepFrame s (write32 r v s) := by
  refine ⟨(write32_frame r v s).1, ?_, ?_⟩
  all_goals
    unfold write32 writePort
    rw [if_neg hr]
    simp only [State.logEvent_port, State.logEvent_resetCount]
    split
    · rfl
    · cases r <;> rfl

theorem keep_rmw (mask v : Word) (s : State) : KeepFrame s (rmw32 .ctrl mask v s) :=
  (read32_frame .ctrl s).keep.trans (keep_write32 (by simp) _ _)

theorem keep_foldl {α : Type} (l : List α) (r : α → PortReg) (v : α → Word) (hr : ∀ k, r k ≠ .reset) (s : State) :
    KeepFrame s (l.foldl (fun s k => write32 (r k) (v k) s) s) := by
  induction l generalizing s with
  | nil => exact .refl s
  | cons k l ih => exact (keep_write32 (hr k) _ _).trans (ih _)

theorem keep_writeGroup (g : RegGroup) (b : Vector Byte 48) (s : State) : KeepFrame s (writeGroup g b s) :=
  keep_foldl _ (fun k : Fin 12 => groupReg g k.rev) _ (by intro k; cases g <;> simp [groupReg]) s

theorem keep_deliverSeed (mat : List Byte) (s : State) : KeepFrame s (deliverSeed mat s) := by
  unfold deliverSeed
  split
  · simp only
    split
    · exact (keep_writeGroup _ _ _).trans (keep_writeGroup _ _ _)
    · exact keep_writeGroup _ _ _
  · exact keep_writeGroup _ _ _

theorem keep_hwProgram (sel : HwSel) (s : State) : KeepFrame s (hwProgram sel s) := keep_write32 (by simp) _ s

theorem hardwareReseed_keep (s : State) : KeepFrame s (hardwareReseed s).2 := by
  have h1 : KeepFrame s (pollDone (assertStart (hwProgram .reseedExt s))).2 :=
    ((keep_hwProgram _ s).trans (keep_rmw _ _ _)).trans (pollField_frame .status _ _ _ _).keep
  have h2 := h1.trans (read32_frame .status _).keep
  unfold hardwareReseed
  simp only
  split_ifs
  exacts [h2, h2.trans (keep_rmw _ _ _), h1]

theorem hardwareReseed_code (s : State) :
    (hardwareReseed s).1 = none ∨ (hardwareReseed s).1 = some .errReseedTimeout ∨
      (hardwareReseed s).1 = some .errCertfHw := by
  unfold hardwareReseed
  simp only
  split_ifs <;> simp

/-! ## Accesses counted (70_reset_and_hazards.md R411) -/

theorem access_read32 (r : PortReg) (s : State) : accessCount (read32 r s).2.log = accessCount s.log + 1 := by
  rw [read32_log, accessCount_cons]; rfl

theorem access_write32 (r : PortReg) (v : Word) (s : State) : accessCount (write32 r v s).log = accessCount s.log + 1 := by
  rw [(write32_frame r v s).2.2.2, accessCount_cons]; rfl

theorem access_rmw (mask v : Word) (s : State) : accessCount (rmw32 .ctrl mask v s).log = accessCount s.log + 2 := by
  unfold rmw32; rw [access_write32, access_read32]

theorem access_foldl {α : Type} (l : List α) (r : α → PortReg) (v : α → Word) (s : State) :
    accessCount (l.foldl (fun s k => write32 (r k) (v k) s) s).log = accessCount s.log + l.length := by
  induction l generalizing s with
  | nil => rfl
  | cons k l ih => rw [List.foldl_cons, ih, access_write32, List.length_cons]; omega

theorem access_writeGroup (g : RegGroup) (b : Vector Byte 48) (s : State) :
    accessCount (writeGroup g b s).log = accessCount s.log + 12 :=
  access_foldl (List.finRange 12) (fun k : Fin 12 => groupReg g k.rev) _ s

theorem access_zeroize (s : State) : accessCount (zeroizeSeedRegs s).log = accessCount s.log + 24 := by
  have h1 := access_foldl (List.finRange 12) (fun k : Fin 12 => PortReg.extSeed k) (fun _ => 0) s
  have h2 := access_foldl (List.finRange 12) (fun k : Fin 12 => PortReg.perStrng k) (fun _ => 0)
    ((List.finRange 12).foldl (fun s k => write32 (.extSeed k) 0 s) s)
  unfold zeroizeSeedRegs
  rw [h2, h1]; simp

theorem access_deliverSeed (mat : List Byte) (s : State) :
    accessCount (deliverSeed mat s).log ≤ accessCount s.log + 24 := by
  unfold deliverSeed
  split
  · simp only
    split
    · rw [access_writeGroup, access_writeGroup]
    · rw [access_writeGroup]; omega
  · rw [access_writeGroup]; omega

theorem access_hardwareReseed (s : State) :
    accessCount (hardwareReseed s).2.log ≤
      accessCount s.log + (1 + 2 + maxPollReads s.params.tReseedUs s.params.pollSleepUs + 1 + 2) := by
  have hp : (assertStart (hwProgram .reseedExt s)).params = s.params :=
    ((keep_hwProgram .reseedExt s).trans (keep_rmw _ _ _)).params
  have h1 : accessCount (pollDone (assertStart (hwProgram .reseedExt s))).2.log ≤
      accessCount (assertStart (hwProgram .reseedExt s)).log +
        maxPollReads s.params.tReseedUs s.params.pollSleepUs := by
    have := pollLoop_accesses .status (assertStart (hwProgram .reseedExt s)).params.map.statusDone
      (assertStart (hwProgram .reseedExt s)).params.map.statusDone
      (assertStart (hwProgram .reseedExt s)).params.pollSleepUs
      (pollSleeps (assertStart (hwProgram .reseedExt s)).params.tReseedUs
        (assertStart (hwProgram .reseedExt s)).params.pollSleepUs) (assertStart (hwProgram .reseedExt s))
    unfold pollDone pollField
    rw [hp] at this ⊢
    exact this
  have h2 : accessCount (assertStart (hwProgram .reseedExt s)).log = accessCount s.log + 1 + 2 := by
    unfold assertStart hwProgram; rw [access_rmw, access_write32]
  unfold hardwareReseed
  simp only
  split_ifs
  · simp only [access_read32]; omega
  · simp only [deassertStart, access_rmw, access_read32]; omega
  · simp only; omega

/-! ## ReseedCore, whatever the environment answers (40_core_operations.md R165) -/

/-- Everything a collection of `n` bytes can do (R200, R201). -/
theorem collectBurst_outcome (dst : Dst) (n : Nat) (s : State) :
    ((collectBurst dst n s).fail = some .errInvalidParam ∧ (n = 0 ∨ n % 16 ≠ 0) ∧ (collectBurst dst n s).state = s) ∨
      CollectOutcome dst 0 (n / 16) (assertStart s) (collectBurst dst n s) := by
  unfold collectBurst
  split
  · next h => exact .inl ⟨rfl, by simpa using h, rfl⟩
  · exact .inr (collectLoop_outcome _ _ _ _ _)

/-- What a successful or failed collection keeps: all of the instance but window and `I.State`, `RESET`, host memory
outside its destination. -/
structure CollectKeep (dst : Dst) (n : Nat) (s : State) (c : Collected) : Prop where
  inst : c.state.inst = { s.inst with win := c.state.inst.win, state := c.state.inst.state }
  result : c.state.result = s.result
  params : c.state.params = s.params
  commands : c.state.commands = s.commands
  cmdIndex : c.state.cmdIndex = s.cmdIndex
  ret : c.state.ret = s.ret
  resetCount : c.state.resetCount = s.resetCount
  reset : c.state.port.reset = s.port.reset
  state : c.state.inst.state = stateAfter c.fail s.inst.state
  code : ∀ e, c.fail = some e → e = .errInvalidParam ∨ e = .errGenerateTimeout ∨
    (e = .errCatastrophicDtf ∧ s.inst.mode ≠ .ptrng) ∨ e = .errCatastrophicSw
  accesses : accessCount c.state.log ≤
    accessCount s.log + (2 + n / 16 * (maxPollReads s.params.tBurstUs s.params.pollSleepUs + 5))
  wf : Memory.wf s.mem = true → Memory.wf c.state.mem = true
  outside : ∀ j, ¬ Covers dst 0 n j → memRead c.state.mem j = memRead s.mem j
  scratch : dst = .scratch → c.state.mem = s.mem

theorem collectBurst_keep (dst : Dst) (n : Nat) (s : State) : CollectKeep dst n s (collectBurst dst n s) := by
  rcases collectBurst_outcome dst n s with ⟨hf, -, hs⟩ | o
  · refine ⟨by rw [hs], by rw [hs], by rw [hs], by rw [hs], by rw [hs], by rw [hs], by rw [hs], by rw [hs], ?_, ?_, ?_, ?_, ?_,
      fun _ => by rw [hs]⟩
    · rw [hs, hf]; rfl
    · intro e he; rw [hf] at he; cases he; exact .inl rfl
    · rw [hs]; omega
    · rw [hs]; exact id
    · intro j _; rw [hs]
  · have k : KeepFrame s (assertStart s) := keep_rmw _ _ s
    refine ⟨by rw [o.frame.inst, k.inst], o.frame.result.trans k.result, o.frame.params.trans k.params,
      o.frame.commands.trans k.commands, o.frame.cmdIndex.trans k.cmdIndex, o.frame.ret.trans k.ret,
      o.frame.resetCount.trans k.resetCount, o.frame.reset.trans k.reset, by rw [o.state, k.inst], ?_, ?_, ?_, ?_,
      fun h => by rw [o.scratch h, k.mem]⟩
    · intro e he
      have := o.code e he
      rw [k.inst] at this
      exact .inr this
    · have := o.accesses
      rw [k.params] at this
      have h2 : accessCount (assertStart s).log = accessCount s.log + 2 := access_rmw _ _ s
      omega
    · intro h; exact o.wf (by rw [k.mem]; exact h)
    · intro j hj
      rw [o.outside j fun hc => hj (Covers.mono hc (by omega) (by omega)), k.mem]

/-- Everything `ReseedCore` can do: the two since-reseed counters are zero, multiplier and `EntropySize` are the given
ones, nothing else of the instance but the window and, on a catastrophic detection, `I.State` changes (R165, R166). -/
structure ReseedOutcome (m : BitVec 4) (s : State) (r : Option Status × State) : Prop where
  inst : r.2.inst = { (beginReseed m s).inst with win := r.2.inst.win, state := r.2.inst.state }
  result : r.2.result = s.result
  params : r.2.params = s.params
  mem : r.2.mem = s.mem
  commands : r.2.commands = s.commands
  cmdIndex : r.2.cmdIndex = s.cmdIndex
  ret : r.2.ret = s.ret
  resetCount : r.2.resetCount = s.resetCount
  reset : r.2.port.reset = s.port.reset
  state : r.2.inst.state = stateAfter r.1 s.inst.state
  code : ∀ e, r.1 = some e → e ≠ .success ∧ e ≠ .errInvalidState
  accesses : mulLegal s.inst.dfDisabled m = true → accessCount r.2.log ≤
    accessCount s.log + (1 + 2 + 10 * (maxPollReads s.params.tBurstUs s.params.pollSleepUs + 5) + 24 + 1 + 2 +
      maxPollReads s.params.tReseedUs s.params.pollSleepUs + 1 + 2)

theorem entropySize_toNat {dfdis : Bool} {m : BitVec 4} (h : mulLegal dfdis m = true) :
    (BitVec.ofNat 8 (entropySizeFor dfdis m)).toNat = entropySizeFor dfdis m := by
  cases dfdis <;> revert h <;> revert m <;> decide

theorem entropySizeFor_legal {dfdis : Bool} {m : BitVec 4} (h : mulLegal dfdis m = true) :
    48 ≤ entropySizeFor dfdis m ∧ entropySizeFor dfdis m ≤ 160 ∧ entropySizeFor dfdis m % 16 = 0 := by
  cases dfdis <;> revert h <;> revert m <;> decide

/-- Everything the seed material step can do (R167). -/
structure SeedKeep (s : State) (c : Collected) : Prop where
  inst : c.state.inst = { s.inst with win := c.state.inst.win, state := c.state.inst.state }
  result : c.state.result = s.result
  params : c.state.params = s.params
  mem : c.state.mem = s.mem
  commands : c.state.commands = s.commands
  cmdIndex : c.state.cmdIndex = s.cmdIndex
  ret : c.state.ret = s.ret
  resetCount : c.state.resetCount = s.resetCount
  reset : c.state.port.reset = s.port.reset
  state : c.state.inst.state = stateAfter c.fail s.inst.state
  code : ∀ e, c.fail = some e → e ≠ .success ∧ e ≠ .errInvalidState
  accesses : accessCount c.state.log ≤ accessCount s.log +
    (3 + s.inst.entropySize.toNat / 16 * (maxPollReads s.params.tBurstUs s.params.pollSleepUs + 5))

theorem seedMaterial_keep (seed : Option (List Byte)) (s : State) : SeedKeep s (seedMaterial seed s) := by
  have k := keep_hwProgram .entropy s
  have c := collectBurst_keep .scratch s.inst.entropySize.toNat (hwProgram .entropy s)
  have hi := k.inst
  have main : ∀ e, (e = (collectBurst .scratch s.inst.entropySize.toNat (hwProgram .entropy s)).fail ∨
      ((collectBurst .scratch s.inst.entropySize.toNat (hwProgram .entropy s)).fail = none ∧ e = some .errCertfSw)) →
      SeedKeep s ⟨e, (collectBurst .scratch s.inst.entropySize.toNat (hwProgram .entropy s)).bytes,
        (collectBurst .scratch s.inst.entropySize.toNat (hwProgram .entropy s)).state⟩ := by
    intro e he
    refine ⟨by simp only; rw [c.inst, hi], c.result.trans k.result, c.params.trans k.params,
      (c.scratch rfl).trans k.mem, c.commands.trans k.commands, c.cmdIndex.trans k.cmdIndex, c.ret.trans k.ret,
      c.resetCount.trans k.resetCount, c.reset.trans k.reset, ?_, ?_, ?_⟩
    · simp only
      rw [c.state, hi]
      rcases he with rfl | ⟨h1, rfl⟩
      · rfl
      · rw [h1]; rfl
    · intro x hx
      simp only at hx
      rcases he with rfl | ⟨h1, rfl⟩
      · rcases c.code x hx with rfl | rfl | ⟨rfl, -⟩ | rfl <;> simp
      · cases hx; simp
    · have := c.accesses
      rw [k.params] at this
      have h2 : accessCount (hwProgram .entropy s).log = accessCount s.log + 1 := access_write32 _ _ s
      simp only
      omega
  unfold seedMaterial
  split
  · exact ⟨rfl, rfl, rfl, rfl, rfl, rfl, rfl, rfl, rfl, rfl, by simp, by simp only; omega⟩
  all_goals
    simp only
    split
    · next e he => rw [← he]; exact main _ (.inl rfl)
    · next he =>
      split
      · rw [← he]; exact main _ (.inl rfl)
      · exact main _ (.inr ⟨he, rfl⟩)

/-- What `ReseedCore` can do (R165, R166). -/
theorem reseedCore_outcome (seed : Option (List Byte)) (m : BitVec 4) (s : State) :
    ReseedOutcome m s (reseedCore seed m s) := by
  have c := seedMaterial_keep seed (beginReseed m s)
  have hes : mulLegal s.inst.dfDisabled m = true →
      (beginReseed m s).inst.entropySize.toNat / 16 ≤ 10 := by
    intro h
    have h1 := entropySizeFor_legal h
    have h2 := entropySize_toNat h
    simp only [beginReseed, h2]
    omega
  have hacc : mulLegal s.inst.dfDisabled m = true →
      accessCount (seedMaterial seed (beginReseed m s)).state.log ≤
        accessCount s.log + (3 + 10 * (maxPollReads s.params.tBurstUs s.params.pollSleepUs + 5)) := by
    intro h
    have h1 : accessCount (seedMaterial seed (beginReseed m s)).state.log ≤ accessCount s.log +
      (3 + (beginReseed m s).inst.entropySize.toNat / 16 *
        (maxPollReads s.params.tBurstUs s.params.pollSleepUs + 5)) := c.accesses
    have h2 := Nat.mul_le_mul_right (maxPollReads s.params.tBurstUs s.params.pollSleepUs + 5) (hes h)
    omega
  unfold reseedCore
  simp only
  split
  · next e he =>
    refine ⟨c.inst, c.result, c.params, c.mem, c.commands, c.cmdIndex, c.ret, c.resetCount, c.reset, ?_, ?_, ?_⟩
    · have := c.state; rw [he] at this; exact this
    · intro x hx; exact c.code x (he.trans hx)
    · intro h; have := hacc h; simp only; omega
  · next he =>
    have d := keep_deliverSeed (seedMaterial seed (beginReseed m s)).bytes (seedMaterial seed (beginReseed m s)).state
    have w := d.trans (hardwareReseed_keep _)
    have hst := c.state
    rw [he] at hst
    refine ⟨by rw [w.inst]; exact c.inst, w.result.trans c.result, w.params.trans c.params, w.mem.trans c.mem,
      w.commands.trans c.commands, w.cmdIndex.trans c.cmdIndex, w.ret.trans c.ret, w.resetCount.trans c.resetCount,
      w.reset.trans c.reset, ?_, ?_, ?_⟩
    · rw [w.inst, hst]
      rcases hardwareReseed_code (deliverSeed (seedMaterial seed (beginReseed m s)).bytes
        (seedMaterial seed (beginReseed m s)).state) with h | h | h <;> rw [h] <;> rfl
    · intro x hx
      rcases hardwareReseed_code (deliverSeed (seedMaterial seed (beginReseed m s)).bytes
        (seedMaterial seed (beginReseed m s)).state) with h | h | h <;> rw [h] at hx <;> cases hx <;> simp
    · intro h
      have h1 := hacc h
      have h2 := access_deliverSeed (seedMaterial seed (beginReseed m s)).bytes
        (seedMaterial seed (beginReseed m s)).state
      have h3 := access_hardwareReseed (deliverSeed (seedMaterial seed (beginReseed m s)).bytes
        (seedMaterial seed (beginReseed m s)).state)
      have h4 : (deliverSeed (seedMaterial seed (beginReseed m s)).bytes
        (seedMaterial seed (beginReseed m s)).state).params = s.params := d.params.trans c.params
      rw [h4] at h3
      omega

/-! ## Successful runs -/

/-- Seed delivery when the hardware is not held (R168). -/
theorem deliverSeed_released (mat : List Byte) {s : State} (hh : s.held = false) :
    deliverSeed mat s =
      { s with
        port :=
          { s.port with
            extSeed := groupWords (deliveredSeed s.inst mat)
            perStrng := deliveredPers s.inst s.port.perStrng }
        log := (deliveryEvents s.params s.inst mat).reverse ++ s.log } := by
  unfold deliverSeed
  cases hd : s.inst.dfDisabled
  · simp only [Bool.false_eq_true, if_false]
    rw [writeGroup_released _ _ hh]
    simp [deliveredPers, deliveryEvents, deliveredSeed, hd, Port.setGroup]
  · simp only [if_true]
    rw [writeGroup_released _ _ hh]
    cases hp : s.inst.persStrPresent
    · simp [deliveredPers, deliveryEvents, deliveredSeed, hd, hp, Port.setGroup]
    · simp only [if_true]
      rw [writeGroup_released]
      · simp [deliveredPers, deliveryEvents, deliveredSeed, hd, hp, Port.setGroup]
      · exact hh

/-- The DONE poll that succeeds at its first read (R169). -/
theorem pollDone_ready {s : State} {v : Word} {rest : List Word} (hh : s.held = false)
    (h : s.script = v :: rest) (hv : v &&& s.params.map.statusDone = s.params.map.statusDone) :
    pollDone s =
      (true,
        { s with
          script := rest
          drawCount := s.drawCount + 1
          port := { s.port with status := shown s.params v }
          log := .rd (portAddr s.params .status) (shown s.params v) :: s.log }) := by
  unfold pollDone
  rw [pollField_ready]
  · rw [read32_status h hh]
  · rw [read32_status h hh]; exact (and_shown_done _ v).trans hv

theorem certfFlag_clear {m : PortMap} {v : Word} (h : v &&& m.statusCertf = 0) : certfFlag m v = false := by
  unfold certfFlag; rw [h]; rfl

/-- Asserting the start bit over a selection (R294, R302). -/
theorem selected_start {m : PortMap} (h : MapOk m) (sel : HwSel) :
    (selected m sel &&& ~~~m.ctrlStart) ||| m.ctrlStart = started m sel ∧
      started m sel &&& m.ctrlDefined = started m sel ∧ started m sel &&& ~~~m.ctrlStart = selected m sel := by
  have h0 : selected m sel &&& m.ctrlStart = 0 := by
    rw [← h.selFits sel, BitVec.and_assoc, BitVec.and_comm m.ctrlSel, h.ctrlFields]; simp
  have h1 : selected m sel &&& ~~~m.ctrlStart = selected m sel := by
    apply BitVec.eq_of_getLsbD_eq
    intro i hi
    have := congrArg (fun v : Word => v.getLsbD i) h0
    simp only [BitVec.getLsbD_and] at this
    rw [BitVec.getLsbD_and, BitVec.getLsbD_not]
    cases ha : (selected m sel).getLsbD i <;> cases hb : m.ctrlStart.getLsbD i <;> simp_all
  refine ⟨by rw [h1]; rfl, ?_, ?_⟩
  · have hd := selected_defined h sel
    rw [started, BitVec.and_comm, BitVec.and_or_distrib_left, BitVec.and_comm m.ctrlDefined, hd,
      PortMap.ctrlDefined, or_and_self_left]
  · rw [started, BitVec.and_comm, BitVec.and_or_distrib_left, BitVec.and_comm _ (selected m sel), h1]
    simp

/-- The start bit over a selection is kept by the register. -/
theorem withStart_selected {m : PortMap} (h : MapOk m) (sel : HwSel) : withStart m (selected m sel) = started m sel := by
  obtain ⟨h1, h2, -⟩ := selected_start h sel
  rw [withStart, h1, h2]

/-- The hardware reseed up to the CERTF read (R169, step 4). -/
theorem hardwareReseed_start {s : State} (hm : MapOk s.params.map) (hh : s.held = false) :
    assertStart (hwProgram .reseedExt s) =
      { s with
        port := { s.port with ctrl := started s.params.map .reseedExt }
        log := .wr (portAddr s.params .ctrl) (started s.params.map .reseedExt) ::
          .rd (portAddr s.params .ctrl) (selected s.params.map .reseedExt) ::
          .wr (portAddr s.params .ctrl) (selected s.params.map .reseedExt) :: s.log } := by
  rw [hwProgram_released _ hm hh, assertStart_released (by exact hh)]
  simp only [startEvents, withStart_selected hm, (selected_start hm .reseedExt).1, List.reverse_cons, List.reverse_nil,
    List.nil_append, List.cons_append]

/-- A hardware reseed whose DONE shows at the first read and whose CERTF is clear (R169). -/
theorem hardwareReseed_done {s : State} {done certf : Word} {rest : List Word} (hm : MapOk s.params.map)
    (hh : s.held = false) (h : s.script = done :: certf :: rest) (hd : ReseedDone s.params done certf) :
    hardwareReseed s =
      (none,
        { s with
          port := { s.port with ctrl := selected s.params.map .reseedExt, status := shown s.params certf }
          script := rest
          drawCount := s.drawCount + 2
          log := (reseedEvents s.params done certf).reverse ++ s.log }) := by
  have e1 := pollDone_ready (s := assertStart (hwProgram .reseedExt s)) (v := done) (rest := certf :: rest)
    (by rw [hardwareReseed_start hm hh]; exact hh) (by rw [hardwareReseed_start hm hh]; exact h)
    (by rw [hardwareReseed_start hm hh]; exact hd.1)
  rw [hardwareReseed_start hm hh] at e1
  obtain ⟨-, -, h3⟩ := selected_start hm .reseedExt
  unfold hardwareReseed
  rw [hardwareReseed_start hm hh]
  simp only [e1, if_true]
  rw [read32_status (w := certf) (rest := rest) rfl (by exact hh)]
  simp only [certfFlag_shown, certfFlag_clear hd.2, Bool.false_eq_true, if_false]
  unfold deassertStart
  rw [rmw32_ctrl _ _ (by exact hh)]
  have h0 : ∀ v : Word, 0 &&& v = 0 := fun v => by simp
  have h4 : ∀ v : Word, v ||| 0 = v := fun v => by simp
  simp only [reseedEvents, List.reverse_cons, List.reverse_nil, List.nil_append, List.cons_append, h3, h0, h4,
    selected_defined hm]

/-- A successful `ReseedCore` in DRNG mode (R165). -/
theorem reseedCore_drng (seed : List Byte) (m : BitVec 4) {s : State} {done certf : Word} {rest : List Word}
    (hmap : MapOk s.params.map) (hm : s.inst.mode = .drng) (hh : s.held = false) (h : s.script = done :: certf :: rest)
    (hd : ReseedDone s.params done certf) :
    reseedCore (some seed) m s =
      (none,
        { beginReseed m s with
          port := reseededPort s.params s.inst seed certf s.port
          script := rest
          drawCount := s.drawCount + 2
          log := (deliveryEvents s.params s.inst seed ++ reseedEvents s.params done certf).reverse ++ s.log }) := by
  have hm' : (beginReseed m s).inst.mode = .drng := hm
  have e := deliverSeed_released seed (s := beginReseed m s) hh
  have e2 := hardwareReseed_done (s := deliverSeed seed (beginReseed m s)) (done := done) (certf := certf) (rest := rest)
    (by rw [e]; exact hmap) (by rw [e]; exact hh) (by rw [e]; exact h) (by rw [e]; exact hd)
  unfold reseedCore seedMaterial
  simp only [hm', Option.getD_some]
  rw [e2, e, List.reverse_append, List.append_assoc]
  rfl

/-- A word serialized and read back (00_scope.md R18). -/
theorem wordOfBytes_be32 (w : Word) (rest : List Byte) : wordOfBytes (be32 w ++ rest) 0 = w := by
  simp only [be32, wordOfBytes, List.cons_append, List.nil_append, List.getD_cons_zero, List.getD_cons_succ]
  apply BitVec.eq_of_getLsbD_eq
  intro i hi
  simp only [BitVec.getLsbD_append, BitVec.getLsbD_extractLsb']
  by_cases h0 : i < 8
  · simp [h0]
  · by_cases h1 : i < 16
    · simp [h0, show i - 8 < 8 by omega, show 8 + (i - 8) = i by omega]
    · by_cases h2 : i < 24
      · simp [h0, show ¬ (i - 8 < 8) by omega, show i - 8 - 8 < 8 by omega, show 16 + (i - 8 - 8) = i by omega]
      · simp [h0, show ¬ (i - 8 < 8) by omega, show ¬ (i - 8 - 8 < 8) by omega, show i - 8 - 8 - 8 < 8 by omega,
          show 24 + (i - 8 - 8 - 8) = i by omega]

theorem wordOfBytes_drop (b : List Byte) (k j : Nat) : wordOfBytes (b.drop k) j = wordOfBytes b (k + j) := by
  simp only [wordOfBytes, List.getD_eq_getElem?_getD, List.getElem?_drop]
  simp [Nat.add_assoc]

theorem wordOfBytes_flatMap (ws : List Word) (j : Nat) (hj : j < ws.length) :
    wordOfBytes (ws.flatMap be32) (4 * j) = ws[j] := by
  induction ws generalizing j with
  | nil => simp at hj
  | cons w ws ih =>
    cases j with
    | zero => exact wordOfBytes_be32 w _
    | succ j =>
      have h := ih j (by simpa using hj)
      rw [List.getElem_cons_succ, ← h, List.flatMap_cons, show 4 * (j + 1) = 4 + 4 * j by omega, ← wordOfBytes_drop]
      rfl

/-- The forbidden-pattern check of serialized words looks at each word (R212). -/
theorem checkSeedPattern_flatMap (ws : List Word) :
    checkSeedPattern (ws.flatMap be32) (4 * ws.length) = true ↔
      ∀ w ∈ ws, w ≠ 0xAAAAAAAA ∧ w ≠ 0x55555555 := by
  unfold checkSeedPattern
  rw [List.all_eq_true]
  simp only [List.mem_range, Nat.mul_div_cancel_left ws.length (by norm_num : 0 < 4)]
  constructor
  · intro h w hw
    obtain ⟨j, hj, rfl⟩ := List.getElem_of_mem hw
    have := h j hj
    rw [wordOfBytes_flatMap ws j hj] at this
    simpa using this
  · intro h j hj
    rw [wordOfBytes_flatMap ws j hj]
    simpa using h _ (List.getElem_mem hj)

theorem burstBytes_eq (bs : List Burst) : burstBytes bs = (bs.flatMap fun b => b.words.toList).flatMap be32 := by
  simp only [burstBytes, List.flatMap_assoc]; rfl

/-- The check of collected bursts (R212). -/
theorem checkSeedPattern_bursts (bs : List Burst) :
    checkSeedPattern (burstBytes bs) (16 * bs.length) = true ↔ NoForbidden bs := by
  have hl : 16 * bs.length = 4 * (bs.flatMap fun b => b.words.toList).length := by
    induction bs with
    | nil => rfl
    | cons b bs ih => simp only [List.flatMap_cons, List.length_append, Vector.length_toList, List.length_cons] at ih ⊢; omega
  rw [hl, burstBytes_eq, checkSeedPattern_flatMap]
  simp only [NoForbidden, List.mem_flatMap]
  constructor
  · intro h b hb w hw; exact h w ⟨b, hb, hw⟩
  · rintro h w ⟨b, hb, hw⟩; exact h b hb w hw

/-- The collection of an operation: ENTROPY or PRNG_GEN programmed, the start bit asserted, good bursts read
(44_port_sequences.md R301). -/
theorem programCollect_good (sel : HwSel) (dst : Dst) (bs : List Burst) {s : State} {rest : List Word}
    (hmap : MapOk s.params.map) (hne : bs ≠ []) (hh : s.held = false) (hg : ∀ x ∈ bs, x.Good s.params s.inst.mode)
    (hr : NoRepeat bs) (h : s.script = burstDraws s.inst.mode bs ++ rest) :
    collectBurst dst (16 * bs.length) (hwProgram sel s) =
      ⟨none, keptBytes dst (burstBytes bs),
        { s with
          inst := { s.inst with win := windowAfter s.inst.win bs }
          port := { s.port with ctrl := started s.params.map sel }.afterBursts s.params s.inst.mode bs
          mem := putMem dst 0 (burstBytes bs) s.mem
          script := rest
          drawCount := s.drawCount + (burstDraws s.inst.mode bs).length
          log := (collectEvents s.params s.inst.mode sel dst bs).reverse ++ s.log }⟩ := by
  have e1 := hwProgram_released sel hmap hh
  have hp : (hwProgram sel s).held = false := by rw [e1]; exact hh
  have hi : (hwProgram sel s).inst = s.inst := by rw [e1]
  have hq : (hwProgram sel s).params = s.params := by rw [e1]
  have e := collectBurst_good dst bs (s := hwProgram sel s) (rest := rest) hne hp (by rw [hi, hq]; exact hg) hr
    (by rw [hi, e1]; exact h)
  rw [e, assertStart_released hp, e1]
  unfold afterBursts
  simp only [withStart_selected hmap, Nat.mul_zero, collectEvents]
  simp

/-- Seed material collected from good bursts without a forbidden word (R167). -/
theorem seedMaterial_hrng (seed : Option (List Byte)) (bs : List Burst) {s : State} {rest : List Word}
    (hmap : MapOk s.params.map) (hm : s.inst.mode = .hrng) (hh : s.held = false)
    (hes : s.inst.entropySize.toNat = 16 * bs.length) (hne : bs ≠ []) (hg : ∀ x ∈ bs, x.Good s.params .hrng)
    (hr : NoRepeat bs) (hf : NoForbidden bs) (h : s.script = burstDraws .hrng bs ++ rest) :
    seedMaterial seed s =
      ⟨none, burstBytes bs,
        { s with
          inst := { s.inst with win := windowAfter s.inst.win bs }
          port := { s.port with ctrl := started s.params.map .entropy }.afterBursts s.params .hrng bs
          script := rest
          drawCount := s.drawCount + (burstDraws .hrng bs).length
          log := (collectEvents s.params .hrng .entropy .scratch bs).reverse ++ s.log }⟩ := by
  have e := programCollect_good .entropy .scratch bs (s := s) (rest := rest) hmap hne hh (by rw [hm]; exact hg) hr
    (by rw [hm]; exact h)
  rw [← hes, hm] at e
  have hc : checkSeedPattern (burstBytes bs) s.inst.entropySize.toNat = true := by
    rw [hes]; exact (checkSeedPattern_bursts bs).2 hf
  unfold seedMaterial
  split
  · next h1 => rw [hm] at h1; contradiction
  · rw [e]
    simp only [keptBytes, Dst.isNull, Bool.false_eq_true, if_false, hc, if_true]
    rfl
  · next h1 => rw [hm] at h1; contradiction

/-- A successful `ReseedCore` in HRNG mode: the bursts of `EntropySize` bytes, the delivery, the hardware reseed (R165). -/
theorem reseedCore_hrng (seed : Option (List Byte)) (m : BitVec 4) (bs : List Burst) {s : State} {done certf : Word}
    {rest : List Word} (hmap : MapOk s.params.map) (hm : s.inst.mode = .hrng) (hh : s.held = false)
    (hl : mulLegal s.inst.dfDisabled m = true) (hn : 16 * bs.length = entropySizeFor s.inst.dfDisabled m)
    (hg : ∀ x ∈ bs, x.Good s.params .hrng) (hr : NoRepeat bs) (hf : NoForbidden bs)
    (h : s.script = burstDraws .hrng bs ++ done :: certf :: rest) (hd : ReseedDone s.params done certf) :
    reseedCore seed m s =
      (none,
        { s with
          inst := { (beginReseed m s).inst with win := windowAfter s.inst.win bs }
          port := reseededPort s.params s.inst (burstBytes bs) certf (s.port.afterBursts s.params .hrng bs)
          script := rest
          drawCount := s.drawCount + (burstDraws .hrng bs).length + 2
          log :=
            (collectEvents s.params .hrng .entropy .scratch bs ++ deliveryEvents s.params s.inst (burstBytes bs) ++
                reseedEvents s.params done certf).reverse ++
              s.log }) := by
  have hes : (beginReseed m s).inst.entropySize.toNat = 16 * bs.length := by
    rw [hn]; exact entropySize_toNat hl
  have hne : bs ≠ [] := by
    rintro rfl
    have := entropySizeFor_legal hl
    simp at hn; omega
  have e := seedMaterial_hrng seed bs (s := beginReseed m s) (rest := done :: certf :: rest) hmap hm hh hes hne hg hr hf h
  unfold reseedCore
  rw [e]
  simp only
  generalize hu : ({ beginReseed m s with
      inst := { (beginReseed m s).inst with win := windowAfter (beginReseed m s).inst.win bs }
      port :=
        { (beginReseed m s).port with ctrl := started (beginReseed m s).params.map .entropy }.afterBursts
          (beginReseed m s).params .hrng bs
      script := done :: certf :: rest
      drawCount := (beginReseed m s).drawCount + (burstDraws .hrng bs).length
      log := (collectEvents (beginReseed m s).params .hrng .entropy .scratch bs).reverse ++
        (beginReseed m s).log } : State) = u
  obtain ⟨b, hb⟩ : ∃ b, bs.getLast? = some b := by
    cases hb : bs.getLast? with
    | none => exact absurd (List.getLast?_eq_none_iff.1 hb) hne
    | some b => exact ⟨b, rfl⟩
  have hheld : u.held = false := by
    rw [← hu]
    simp only [Port.afterBursts, hb]
    exact hh
  have e1 := deliverSeed_released (burstBytes bs) hheld
  have e2 := hardwareReseed_done (s := deliverSeed (burstBytes bs) u) (done := done) (certf := certf) (rest := rest)
    (by rw [e1, ← hu]; exact hmap) (by rw [e1]; exact hheld) (by rw [e1, ← hu]) (by rw [e1, ← hu]; exact hd)
  rw [e2, e1, ← hu]
  simp only [List.reverse_append, List.append_assoc, Port.afterBursts, hb]
  rfl

end Sys2Proof.Machine
end

