-- ==== Sys2Proof/Laws/Derivation.lean ====
section
/-! SUPPORT. The Derivation Function (42_derivation_function.md): what each of its parts gives, stated once, so that no
proof unfolds a packed block or a concatenation of blocks. -/

namespace Sys2Proof.Machine

/-- A number below 256 in four big-endian bytes. -/
theorem be32Nat_small {n : Nat} (h : n < 256) : be32Nat n = [0, 0, 0, BitVec.ofNat 8 n] := by
  have : ∀ k : Fin 256, be32Nat k.val = [0, 0, 0, BitVec.ofNat 8 k.val] := by decide +kernel
  exact this ⟨n, h⟩

@[simp] theorem be32Nat_length (n : Nat) : (be32Nat n).length = 4 := rfl

/-- A valid entropy length is one of eight (R242). -/
theorem validEntropyLength_bounds {n : Nat} (h : validEntropyLength n = true) : 48 ≤ n ∧ n ≤ 160 ∧ n % 16 = 0 := by
  simp only [validEntropyLength, Bool.and_eq_true, beq_iff_eq, decide_eq_true_eq] at h
  omega

/-- The packed block is `E + 80` bytes (30_encoding.md R116). -/
theorem dfPack_length (ent : List Byte) (pers : Option (Vector Byte 48)) (tag : DfTag) :
    (dfPack ent pers tag).length = ent.length + 80 := by
  simp only [dfPack, List.length_append, List.length_cons, List.length_replicate, be32Nat_length, Vector.length_toList]
  omega

/-- A packed block of a valid entropy length is an operand of `DF_BCC`. -/
theorem dfPack_valid {ent : List Byte} (pers : Option (Vector Byte 48)) (tag : DfTag)
    (h : validEntropyLength ent.length = true) : validPackedLength (dfPack ent pers tag).length = true := by
  rw [dfPack_length, validPackedLength, show ent.length + 80 - 80 = ent.length by omega, h]
  simp

/-- The index changes the first word only, so the length of the `DF_BCC` operand stays (R234). -/
theorem dfBcc_operand_length {packed : List Byte} (i : Nat) (h : 4 ≤ packed.length) :
    (be32Nat i ++ packed.drop 4).length = packed.length := by
  simp only [List.length_append, be32Nat_length, List.length_drop]
  omega

/-- The chain of an empty message is the chaining value (R231). -/
@[simp] theorem cbcMac_nil (bc : CipherKey → Block → Block) (key : CipherKey) (chain0 : Option Block) :
    cbcMac bc key chain0 [] = chain0.getD zeroBlock := rfl

/-- `DF_KEY0` byte by byte. -/
theorem dfKey0_get (k : Fin 32) : dfKey0[k] = BitVec.ofNat 8 k.val := by
  simp [dfKey0]

/-- The intermediate result is the three chained blocks, in order (R235). -/
theorem dfPass1_toList (bc : CipherKey → Block → Block) (packed : List Byte) :
    (dfPass1 bc packed).toList =
      (dfBcc bc packed 0).toList ++ (dfBcc bc packed 1).toList ++ (dfBcc bc packed 2).toList := by
  show Vector.toList (dfBcc bc packed 0 ++ dfBcc bc packed 1 ++ dfBcc bc packed 2 : Vector Byte (16 + 16 + 16)) = _
  rw [Vector.toList_append, Vector.toList_append]

end Sys2Proof.Machine
end

