-- ==== Sys2Proof/Laws/Encoding.lean ====
section
/-! SUPPORT. The fields of encoded command words (30_encoding.md R112, R113), and which words are reserved (R122). -/

namespace Sys2Proof.Machine

theorem encodeInstantiate_fields (mode : BitVec 2) (pr dfdis : Bool) (mul : BitVec 4) (seedp persp : Bool) :
    (encodeInstantiate mode pr dfdis mul seedp persp).extractLsb' 0 4 = 1 ∧
      (encodeInstantiate mode pr dfdis mul seedp persp).extractLsb' 4 2 = mode ∧
      (encodeInstantiate mode pr dfdis mul seedp persp).getLsbD 6 = pr ∧
      (encodeInstantiate mode pr dfdis mul seedp persp).getLsbD 7 = dfdis ∧
      (encodeInstantiate mode pr dfdis mul seedp persp).extractLsb' 8 4 = mul ∧
      (encodeInstantiate mode pr dfdis mul seedp persp).getLsbD 12 = seedp ∧
      (encodeInstantiate mode pr dfdis mul seedp persp).getLsbD 13 = persp ∧
      encodeInstantiate mode pr dfdis mul seedp persp &&& 0xFFFFC000 = 0 := by
  revert mode pr dfdis mul seedp persp; decide +kernel

theorem encodeReseed_fields (mul : BitVec 4) (seedp : Bool) :
    (encodeReseed mul seedp).extractLsb' 0 4 = 2 ∧ (encodeReseed mul seedp).extractLsb' 8 4 = mul ∧
      (encodeReseed mul seedp).getLsbD 12 = seedp ∧ encodeReseed mul seedp &&& 0xFFFFE0F0 = 0 := by
  revert mul seedp; decide +kernel

/-- Each bit of a format G word. -/
theorem encodeGenerate_bit (pr : Bool) (size : BitVec 24) (i : Nat) :
    (encodeGenerate pr size).getLsbD i =
      if i < 4 then (3#4).getLsbD i else if i = 4 then pr else if i < 8 then false else size.getLsbD (i - 8) := by
  unfold encodeGenerate
  simp only [BitVec.getLsbD_append, BitVec.getLsbD_ofBool]
  by_cases h0 : i < 4
  · simp [h0]
  · by_cases h1 : i = 4
    · subst h1; simp
    · by_cases h2 : i < 8
      · simp [h0, h1, h2, show ¬ (i - 4 < 1) by omega, show i - 4 - 1 < 3 by omega]
      · simp [h0, h1, h2, show ¬ (i - 4 < 1) by omega, show ¬ (i - 4 - 1 < 3) by omega,
          show i - 4 - 1 - 3 = i - 8 by omega]

theorem encodeGenerate_fields (pr : Bool) (size : BitVec 24) :
    (encodeGenerate pr size).extractLsb' 0 4 = 3 ∧ (encodeGenerate pr size).extractLsb' 8 24 = size ∧
      (encodeGenerate pr size).getLsbD 4 = pr ∧ encodeGenerate pr size &&& 0x000000E0 = 0 := by
  refine ⟨?_, ?_, by rw [encodeGenerate_bit]; rfl, ?_⟩
  · apply BitVec.eq_of_getLsbD_eq
    intro i hi
    simp only [BitVec.getLsbD_extractLsb', encodeGenerate_bit, hi, Nat.zero_add]
    simp
  · apply BitVec.eq_of_getLsbD_eq
    intro i hi
    simp only [BitVec.getLsbD_extractLsb', encodeGenerate_bit, hi]
    simp [show ¬ (8 + i < 4) by omega, show ¬ (8 + i = 4) by omega]
  · apply BitVec.eq_of_getLsbD_eq
    intro i hi
    rw [BitVec.getLsbD_and, encodeGenerate_bit]
    by_cases h2 : i < 8
    · interval_cases i <;> simp
    · have : (0xE0#32).getLsbD i = false := by interval_cases i <;> rfl
      simp [this]

/-! ## Reserved words -/

/-- Matching a row of the table is its opcode and its must-be-zero bits (R121). -/
theorem row_iff {v k m f : Word} (hk : k &&& 0xF = k) (hm : m &&& k = 0) (hf : f = m ||| 0xF) :
    v &&& f = k ↔ v &&& 0xF = k ∧ v &&& m = 0 := by
  subst hf
  have absorb : ∀ a b : Word, (a ||| b) &&& b = b := by
    intro a b
    apply BitVec.eq_of_getLsbD_eq
    intro i _
    rw [BitVec.getLsbD_and, BitVec.getLsbD_or]
    cases a.getLsbD i <;> cases b.getLsbD i <;> rfl
  constructor
  · intro h
    constructor
    · have := congrArg (· &&& (0xF : Word)) h
      simp only [BitVec.and_assoc, absorb, hk] at this
      exact this
    · have := congrArg (· &&& m) h
      simp only [BitVec.and_assoc, BitVec.or_comm m, absorb, BitVec.and_comm k m, hm] at this
      exact this
  · rintro ⟨h1, h2⟩
    rw [BitVec.and_or_distrib_left, h1, h2]; simp

theorem low_nibble (v : Word) : v &&& 0xF = (v.extractLsb' 0 4).setWidth 32 := by
  apply BitVec.eq_of_getLsbD_eq
  intro i hi
  rw [BitVec.getLsbD_and, BitVec.getLsbD_setWidth, BitVec.getLsbD_extractLsb']
  by_cases h : i < 4
  · interval_cases i <;> simp
  · have : (0xF#32).getLsbD i = false := by interval_cases i <;> rfl
    simp [this, h]

theorem opc_iff (v : Word) (k : Nat) (hk : k < 16) :
    v &&& 0xF = BitVec.ofNat 32 k ↔ (v.extractLsb' 0 4).toNat = k := by
  rw [low_nibble, ← BitVec.toNat_inj, BitVec.toNat_setWidth, BitVec.toNat_ofNat]
  have := (v.extractLsb' 0 4).isLt
  omega

/-- The decoder's refusal agrees with the rows of the opcode table (R121, R122). -/
theorem isReservedWord_iff (v : Word) : isReservedWord v = true ↔ wordReject v ≠ none := by
  have r1 : v &&& 0xFFFFC00F = 1 ↔ _ := row_iff (v := v) (m := 0xFFFFC000) (by decide) (by decide) (by decide)
  have r2 : v &&& 0xFFFFE0FF = 2 ↔ _ := row_iff (v := v) (m := 0xFFFFE0F0) (by decide) (by decide) (by decide)
  have r3 : v &&& 0x000000EF = 3 ↔ _ := row_iff (v := v) (m := 0x000000E0) (by decide) (by decide) (by decide)
  have r4 : v &&& 0xFFFFFFFF = 4 ↔ _ := row_iff (v := v) (m := 0xFFFFFFF0) (by decide) (by decide) (by decide)
  have r5 : v &&& 0xFFFFFFFF = 5 ↔ _ := row_iff (v := v) (m := 0xFFFFFFF0) (by decide) (by decide) (by decide)
  have r6 : v &&& 0xFFFFFFFF = 6 ↔ _ := row_iff (v := v) (m := 0xFFFFFFF0) (by decide) (by decide) (by decide)
  have o := fun k h => opc_iff v k h
  unfold isReservedWord commandRows wordReject mustBeZero
  simp only [List.all_cons, List.all_nil, Bool.and_true, Bool.and_eq_true, bne_iff_ne, ne_eq, r1, r2, r3, r4, r5, r6]
  rw [show (1 : Word) = BitVec.ofNat 32 1 from rfl, show (2 : Word) = BitVec.ofNat 32 2 from rfl,
    show (3 : Word) = BitVec.ofNat 32 3 from rfl, show (4 : Word) = BitVec.ofNat 32 4 from rfl,
    show (5 : Word) = BitVec.ofNat 32 5 from rfl, show (6 : Word) = BitVec.ofNat 32 6 from rfl,
    o 1 (by omega), o 2 (by omega), o 3 (by omega), o 4 (by omega), o 5 (by omega), o 6 (by omega)]
  clear o
  generalize (v.extractLsb' 0 4).toNat = n
  by_cases hn : n ≤ 6
  · interval_cases n <;> simp
  · obtain ⟨k, rfl⟩ : ∃ k, n = k + 7 := ⟨n - 7, by omega⟩
    simp

end Sys2Proof.Machine
end

