-- ==== Sys2Proof/Laws/PerInstr.lean ====
section
/-! SUPPORT. Statements made of every operation, one lemma per constructor of `Instr`. -/

namespace Sys2Proof.Laws.EncodedWord

open Sys2Proof Sys2Proof.Machine

/-- The word a well-formed operation encodes to is reserved exactly when the operation is the reserved row
(30_encoding.md R121, R122). -/
def Statement (i : Instr) : Prop :=
  i.wellFormed = true → ∀ c, encode i = some c → (isReservedWord c.cw = true ↔ ∃ cw a0, i = .reserved cw a0)

/-- A word whose opcode is a command's and whose must-be-zero bits are clear is not reserved. -/
theorem not_reserved {v z : Word} (hz : mustBeZero v = some z) (h : v &&& z = 0) : ¬ isReservedWord v = true := by
  rw [isReservedWord_iff, wordReject, hz]; simp [h]

theorem instantiate (mode : BitVec 2) (pr dfdis : Bool) (mul : BitVec 4) (seedp persp : Bool) (a0 : HostAddr) :
    Statement (.instantiate mode pr dfdis mul seedp persp a0) := by
  rintro - c h
  obtain rfl := Option.some.inj h
  obtain ⟨ho, -, -, -, -, -, -, hz⟩ := encodeInstantiate_fields mode pr dfdis mul seedp persp
  have : ¬ isReservedWord (encodeInstantiate mode pr dfdis mul seedp persp) = true :=
    not_reserved (by unfold mustBeZero; rw [ho]; rfl) hz
  simp [this]

theorem reseed (mul : BitVec 4) (seedp : Bool) (a0 : HostAddr) : Statement (.reseed mul seedp a0) := by
  rintro - c h
  obtain rfl := Option.some.inj h
  obtain ⟨ho, -, -, hz⟩ := encodeReseed_fields mul seedp
  have : ¬ isReservedWord (encodeReseed mul seedp) = true :=
    not_reserved (by unfold mustBeZero; rw [ho]; rfl) hz
  simp [this]

theorem generate (pr : Bool) (size : BitVec 24) (a0 : HostAddr) : Statement (.generate pr size a0) := by
  rintro - c h
  obtain rfl := Option.some.inj h
  obtain ⟨ho, -, -, hz⟩ := encodeGenerate_fields pr size
  have : ¬ isReservedWord (encodeGenerate pr size) = true :=
    not_reserved (by unfold mustBeZero; rw [ho]; rfl) hz
  simp [this]

theorem uninstantiate : Statement .uninstantiate := by
  rintro - c h; obtain rfl := Option.some.inj h; simp [isReservedWord, commandRows]

theorem runKat : Statement .runKat := by
  rintro - c h; obtain rfl := Option.some.inj h; simp [isReservedWord, commandRows]

theorem runHealthTest : Statement .runHealthTest := by
  rintro - c h; obtain rfl := Option.some.inj h; simp [isReservedWord, commandRows]

theorem reseedCore (seed : Option (List Byte)) (m : BitVec 4) : Statement (.reseedCore seed m) := by
  rintro - c h; simp [encode] at h

theorem collectBurst (dst : Dst) (n : Nat) : Statement (.collectBurst dst n) := by
  rintro - c h; simp [encode] at h

theorem checkSeedPattern (buf : List Byte) (n : Nat) : Statement (.checkSeedPattern buf n) := by
  rintro - c h; simp [encode] at h

theorem df (ent : List Byte) (pers : Option (Vector Byte 48)) (tag : DfTag) : Statement (.df ent pers tag) := by
  rintro - c h; simp [encode] at h

theorem dfPack (ent : List Byte) (pers : Option (Vector Byte 48)) (tag : DfTag) : Statement (.dfPack ent pers tag) := by
  rintro - c h; simp [encode] at h

theorem dfBcc (packed : List Byte) (i : Fin 3) : Statement (.dfBcc packed i) := by
  rintro - c h; simp [encode] at h

theorem dfOut (t : Vector Byte 48) : Statement (.dfOut t) := by
  rintro - c h; simp [encode] at h

theorem cbcMac (key : CipherKey) (chain0 : Option Block) (msg : List Byte) : Statement (.cbcMac key chain0 msg) := by
  rintro - c h; simp [encode] at h

theorem hwReset : Statement .hwReset := by
  rintro - c h; simp [encode] at h

theorem hwHoldReset : Statement .hwHoldReset := by
  rintro - c h; simp [encode] at h

theorem hwProgram (sel : HwSel) : Statement (.hwProgram sel) := by
  rintro - c h; simp [encode] at h

theorem writeGroup (g : RegGroup) (b : Vector Byte 48) : Statement (.writeGroup g b) := by
  rintro - c h; simp [encode] at h

theorem zeroizeSeedRegs : Statement .zeroizeSeedRegs := by
  rintro - c h; simp [encode] at h

theorem pollField (off mask expect : Word) (timeoutUs : Nat) : Statement (.pollField off mask expect timeoutUs) := by
  rintro - c h; simp [encode] at h

theorem reinstantiate (mode : BitVec 2) (pr dfdis : Bool) (mul : BitVec 4) (seedp persp : Bool) (a0 : HostAddr) :
    Statement (.reinstantiate mode pr dfdis mul seedp persp a0) := by
  rintro - c h; simp [encode] at h

theorem reserved (cw : Word) (a0 : HostAddr) : Statement (.reserved cw a0) := by
  intro hw c h
  obtain rfl := Option.some.inj h
  simp only [Instr.wellFormed] at hw
  simp [hw]

end Sys2Proof.Laws.EncodedWord
end

