-- ==== Sys2Proof/Laws/Trace.lean ====
section
/-! SUPPORT. No operation looks at the log of the accesses already made or at what an operation returned: run after other
accesses, it does what it does on its own and adds its accesses to them. One lemma per operation; the statements that
compare a command with its parts run on their own rest on these. -/

namespace Sys2Proof.Machine

/-- The state with earlier events under its log, and with a returned value. -/
def State.over (l : List Event) (r : Ret) (s : State) : State := { s with log := s.log ++ l, ret := r }

variable {l : List Event} {x : Ret}

@[simp] theorem State.over_inst (s : State) : (s.over l x).inst = s.inst := rfl
@[simp] theorem State.over_port (s : State) : (s.over l x).port = s.port := rfl
@[simp] theorem State.over_params (s : State) : (s.over l x).params = s.params := rfl
@[simp] theorem State.over_mem (s : State) : (s.over l x).mem = s.mem := rfl
@[simp] theorem State.over_script (s : State) : (s.over l x).script = s.script := rfl
@[simp] theorem State.over_held (s : State) : (s.over l x).held = s.held := rfl

/-- A state is the one a command starts from, over its own log and returned value. -/
theorem State.over_beginCommand (s : State) : s.beginCommand.over s.log s.ret = s := rfl

/-- Starting a command forgets what it is over. -/
theorem State.beginCommand_over (s : State) : (s.over l x).beginCommand = s.beginCommand := rfl

/-! ## The primitives -/

theorem over_draw (s : State) : (s.over l x).draw = (s.draw.1, s.draw.2.over l x) := by
  unfold State.draw
  simp only [State.over_script]
  split <;> rfl

theorem over_readPort (r : PortReg) (s : State) :
    readPort r (s.over l x) = ((readPort r s).1, (readPort r s).2.over l x) := by
  cases r <;> simp only [readPort, over_draw, State.over_held, State.over_port, State.over_params] <;>
    first | rfl | (split <;> rfl)

theorem over_read32 (r : PortReg) (s : State) :
    read32 r (s.over l x) = ((read32 r s).1, (read32 r s).2.over l x) := by
  unfold read32; rw [over_readPort]; rfl

theorem over_write32 (r : PortReg) (v : Word) (s : State) : write32 r v (s.over l x) = (write32 r v s).over l x := by
  have h : writePort r v (s.over l x) = (writePort r v s).over l x := by
    unfold writePort
    rw [State.over_held, State.over_params]
    by_cases hr : r = .reset
    · rw [if_pos hr, if_pos hr]
      cases (v &&& s.params.map.resetAssert != 0) <;> rfl
    · rw [if_neg hr, if_neg hr]
      cases s.held <;> rfl
  unfold write32
  rw [h]
  rfl

theorem over_rmw32 (r : PortReg) (mask v : Word) (s : State) :
    rmw32 r mask v (s.over l x) = (rmw32 r mask v s).over l x := by
  unfold rmw32; rw [over_read32, over_write32]

theorem over_sleepUs (us : Nat) (s : State) : sleepUs us (s.over l x) = (sleepUs us s).over l x := rfl

theorem over_pollLoop (r : PortReg) (mask expect : Word) (sleep n : Nat) (s : State) :
    pollLoop r mask expect sleep n (s.over l x) =
      ((pollLoop r mask expect sleep n s).1, (pollLoop r mask expect sleep n s).2.over l x) := by
  induction n generalizing s with
  | zero => rw [pollLoop, over_read32]; rfl
  | succ n ih =>
    rw [pollLoop, pollLoop, over_read32]
    simp only [over_sleepUs, ih]
    split <;> rfl

theorem over_pollField (r : PortReg) (mask expect : Word) (us : Nat) (s : State) :
    pollField r mask expect us (s.over l x) =
      ((pollField r mask expect us s).1, (pollField r mask expect us s).2.over l x) := over_pollLoop ..

theorem over_putBytes (dst : Dst) (off : Nat) (b : List Byte) (s : State) :
    putBytes dst off b (s.over l x) = (putBytes dst off b s).over l x := by
  cases dst with
  | host a => simp only [putBytes]; split <;> rfl
  | scratch => rfl

theorem over_foldl {α : Type} (f : State → α → State) (hf : ∀ s k, f (s.over l x) k = (f s k).over l x) (ks : List α)
    (s : State) : ks.foldl f (s.over l x) = (ks.foldl f s).over l x := by
  induction ks generalizing s with
  | nil => rfl
  | cons k ks ih => rw [List.foldl_cons, List.foldl_cons, hf, ih]

/-! ## The port sequences -/

theorem over_hwReset (s : State) : hwReset (s.over l x) = (hwReset s).over l x := by
  unfold hwReset; simp only [State.over_params, over_write32, over_sleepUs]

theorem over_hwHoldReset (s : State) : hwHoldReset (s.over l x) = (hwHoldReset s).over l x := over_write32 ..

theorem over_hwProgram (sel : HwSel) (s : State) : hwProgram sel (s.over l x) = (hwProgram sel s).over l x :=
  over_write32 ..

theorem over_assertStart (s : State) : assertStart (s.over l x) = (assertStart s).over l x := over_rmw32 ..

theorem over_deassertStart (s : State) : deassertStart (s.over l x) = (deassertStart s).over l x := over_rmw32 ..

theorem over_writeGroup (g : RegGroup) (b : Vector Byte 48) (s : State) :
    writeGroup g b (s.over l x) = (writeGroup g b s).over l x :=
  over_foldl _ (fun _ _ => over_write32 ..) _ _

theorem over_zeroizeSeedRegs (s : State) : zeroizeSeedRegs (s.over l x) = (zeroizeSeedRegs s).over l x := by
  unfold zeroizeSeedRegs
  rw [over_foldl _ (fun _ _ => over_write32 ..), over_foldl _ (fun _ _ => over_write32 ..)]

/-! ## The collector -/

theorem over_readBurstWord (dst : Dst) (b : Nat) (k : Fin 4) (same : Bool) (acc : List Byte) (s : State) :
    readBurstWord dst b k ⟨same, acc, s.over l x⟩ =
      ⟨(readBurstWord dst b k ⟨same, acc, s⟩).same, (readBurstWord dst b k ⟨same, acc, s⟩).bytes,
        (readBurstWord dst b k ⟨same, acc, s⟩).state.over l x⟩ := by
  simp only [readBurstWord, over_read32]
  rw [← over_putBytes]
  rfl

theorem over_readBurst (dst : Dst) (b : Nat) (s : State) :
    readBurst dst b (s.over l x) =
      ⟨(readBurst dst b s).same, (readBurst dst b s).bytes, (readBurst dst b s).state.over l x⟩ := by
  simp only [readBurst, over_readBurstWord]

theorem over_pollBurst (s : State) : pollBurst (s.over l x) = ((pollBurst s).1, (pollBurst s).2.over l x) :=
  over_pollField ..

theorem over_checkDtf (s : State) : checkDtf (s.over l x) = ((checkDtf s).1, (checkDtf s).2.over l x) := by
  unfold checkDtf
  simp only [State.over_inst, State.over_params, over_read32]
  split <;> rfl

theorem over_collectLoop (dst : Dst) (n b : Nat) (acc : List Byte) (s : State) :
    collectLoop dst n b acc (s.over l x) =
      ⟨(collectLoop dst n b acc s).fail, (collectLoop dst n b acc s).bytes,
        (collectLoop dst n b acc s).state.over l x⟩ := by
  induction n generalizing b acc s with
  | zero => rfl
  | succ n ih =>
    rw [collectLoop, collectLoop]
    simp only [over_pollBurst, over_checkDtf, over_readBurst, ih]
    split_ifs <;> rfl

theorem over_collectBurst (dst : Dst) (n : Nat) (s : State) :
    collectBurst dst n (s.over l x) =
      ⟨(collectBurst dst n s).fail, (collectBurst dst n s).bytes, (collectBurst dst n s).state.over l x⟩ := by
  unfold collectBurst
  split
  · rfl
  · rw [over_assertStart, over_collectLoop]

/-! ## The core operations -/

theorem over_seedMaterial (seed : Option (List Byte)) (s : State) :
    seedMaterial seed (s.over l x) =
      ⟨(seedMaterial seed s).fail, (seedMaterial seed s).bytes, (seedMaterial seed s).state.over l x⟩ := by
  unfold seedMaterial
  simp only [State.over_inst, over_hwProgram, over_collectBurst]
  split
  · rfl
  all_goals
    split
    · rfl
    · split <;> rfl

theorem over_deliverSeed (mat : List Byte) (s : State) :
    deliverSeed mat (s.over l x) = (deliverSeed mat s).over l x := by
  unfold deliverSeed
  simp only [State.over_inst, over_writeGroup]
  split_ifs <;> rfl

theorem over_pollDone (s : State) : pollDone (s.over l x) = ((pollDone s).1, (pollDone s).2.over l x) :=
  over_pollField ..

theorem over_hardwareReseed (s : State) :
    hardwareReseed (s.over l x) = ((hardwareReseed s).1, (hardwareReseed s).2.over l x) := by
  unfold hardwareReseed
  simp only [State.over_params, over_hwProgram, over_assertStart, over_pollDone, over_read32, over_deassertStart]
  split_ifs <;> rfl

theorem over_beginReseed (m : BitVec 4) (s : State) : beginReseed m (s.over l x) = (beginReseed m s).over l x := rfl

theorem over_reseedCore (seed : Option (List Byte)) (m : BitVec 4) (s : State) :
    reseedCore seed m (s.over l x) = ((reseedCore seed m s).1, (reseedCore seed m s).2.over l x) := by
  unfold reseedCore
  simp only [over_beginReseed, over_seedMaterial, over_deliverSeed, over_hardwareReseed]
  split <;> rfl

theorem over_raise (e : Status) (s : State) : (s.over l x).raise e = ((s.raise e).1, (s.raise e).2.over l x) := rfl

theorem over_succeed (s : State) : (s.over l x).succeed = (s.succeed.1, s.succeed.2.over l x) := rfl

theorem over_orRaise {r : Option Status × State} {go : State → Status × State}
    (hg : ∀ s, go (s.over l x) = ((go s).1, (go s).2.over l x)) :
    orRaise (r.1, r.2.over l x) go = ((orRaise r go).1, (orRaise r go).2.over l x) := by
  unfold orRaise
  simp only
  split
  exacts [over_raise .., hg _]

theorem over_finishInstantiate (s : State) :
    finishInstantiate (s.over l x) = ((finishInstantiate s).1, (finishInstantiate s).2.over l x) := by
  unfold finishInstantiate
  simp only [State.over_inst, over_reseedCore]
  split
  · rfl
  all_goals exact over_orRaise (fun _ => rfl)

theorem over_logEvents (es : List Event) (s : State) :
    (s.over l x).logEvents es = (s.logEvents es).over l x := by
  simp only [State.logEvents, State.over, List.append_assoc]

theorem over_opInstantiate (c : InstConfig) (s : State) :
    opInstantiate c (s.over l x) = ((opInstantiate c s).1, (opInstantiate c s).2.over l x) := by
  have h1 : ∀ s : State, clearStatistics (s.over l x) = (clearStatistics s).over l x := fun _ => rfl
  have h2 : ∀ s : State, storeConfig c (s.over l x) = (storeConfig c s).over l x := fun _ => rfl
  unfold opInstantiate
  simp only [State.over_inst, h1, h2, over_logEvents, over_hwReset, over_finishInstantiate, over_raise]
  split
  · rfl
  · split <;> rfl

theorem over_generatePolicy (pr : Bool) (s : State) :
    generatePolicy pr (s.over l x) = ((generatePolicy pr s).1, (generatePolicy pr s).2.over l x) := by
  unfold generatePolicy
  rw [State.over_inst, State.over_params, over_reseedCore]
  split
  · split <;> rfl
  · by_cases h1 : drngLifeSpent s.params s.inst = true
    · rw [if_pos h1, if_pos h1]
    · by_cases h2 : (pr && decide (1 ≤ s.inst.generateCallsSinceReseed.toNat)) = true
      · rw [if_neg h1, if_neg h1, if_pos h2, if_pos h2]
      · rw [if_neg h1, if_neg h1, if_neg h2, if_neg h2]
  · rfl

theorem over_generateOutput (dst : Dst) (s : State) :
    generateOutput dst (s.over l x) =
      ⟨(generateOutput dst s).fail, (generateOutput dst s).bytes, (generateOutput dst s).state.over l x⟩ := by
  unfold generateOutput
  simp only [State.over_inst, over_hwProgram, over_collectBurst]
  split
  · split
    · rfl
    · split
      · rfl
      · rw [over_putBytes]
  all_goals rfl

theorem over_opGenerate (dst : Dst) (size : Nat) (pr : Bool) (s : State) :
    opGenerate dst size pr (s.over l x) =
      ⟨(opGenerate dst size pr s).status, (opGenerate dst size pr s).bytes, (opGenerate dst size pr s).state.over l x⟩ := by
  unfold opGenerate
  simp only [State.over_inst, over_generatePolicy, over_generateOutput]
  split
  · rfl
  · split
    · rfl
    · split
      · rfl
      · split <;> rfl

theorem over_opUninstantiate (s : State) :
    opUninstantiate (s.over l x) = ((opUninstantiate s).1, (opUninstantiate s).2.over l x) := by
  unfold opUninstantiate
  rw [State.over_inst, over_zeroizeSeedRegs, over_hwHoldReset]
  split <;> rfl

end Sys2Proof.Machine
end

