-- ==== Sys2Proof/Tests/Slice0.lean ====
section
/-! SUPPORT. The model's own tests: ill-formed operations, command words written out from their formats, single steps whose
expected results are those of 95_test_vectors.md, the DF bytes under AES-256, and for every statement with hypotheses a
concrete state and operands that meet them. -/

namespace Sys2Proof.Tests

open Sys2Proof Sys2Proof.Machine

-- One theorem at a time: the kernel evaluates, and each waiting theorem would hold a thread.
set_option Elab.async false

/-! ## Ill-formed operations are refused by the check, one for each check -/

theorem test_illformed_instantiate : (Instr.instantiate 1 false false 2 true false 0).wellFormed = false := by decide
theorem test_illformed_reseed : (Instr.reseed 2 true 0).wellFormed = false := by decide
theorem test_illformed_generate : (Instr.generate false 32 0).wellFormed = false := by decide
theorem test_illformed_reinstantiate : (Instr.reinstantiate 1 false false 2 true false 0).wellFormed = false := by decide
theorem test_illformed_reserved : (Instr.reserved 0x00001211 8).wellFormed = false := by decide
theorem test_illformed_reseedCore_multiplier : (Instr.reseedCore none 1).wellFormed = false := by decide
theorem test_illformed_reseedCore_seed : (Instr.reseedCore (some (List.replicate 47 0)) 2).wellFormed = false := by decide +kernel
theorem test_illformed_checkSeedPattern : (Instr.checkSeedPattern [1, 2, 3, 4] 8).wellFormed = false := by decide
theorem test_illformed_df : (Instr.df (List.replicate 32 0) none .seed).wellFormed = false := by decide +kernel
theorem test_illformed_dfPack : (Instr.dfPack (List.replicate 176 0) none .random).wellFormed = false := by decide +kernel
theorem test_illformed_dfBcc : (Instr.dfBcc (List.replicate 120 0) 0).wellFormed = false := by decide +kernel
theorem test_illformed_cbcMac : (Instr.cbcMac (Vector.replicate 32 0) none [1]).wellFormed = false := by decide
theorem test_illformed_pollField : (Instr.pollField 0x16 1 1 10).wellFormed = false := by decide

/-! ## Command words (95_test_vectors.md 2.1, 2.2; the fields of 30_encoding.md R112, R113 written out bit by bit) -/

theorem test_decode_instantiate :
    decode ⟨0b00000000000000000011011100010001, 0x1000⟩ = .instantiate 1 false false 7 true true 0x1000 ∧
      decode ⟨0x00002941, 0x1000⟩ = .instantiate 0 true false 9 false true 0x1000 ∧
      decodeTableWord 32 0x000000A1 = some (.instantiate 2 false true 0 false false 0) := by decide
theorem test_decode_reseed :
    decode ⟨0b00000000000000000001001100000010, 0x1000⟩ = .reseed 3 true 0x1000 ∧
      decodeTableWord 32 0x00000902 = some (.reseed 9 false 0) := by decide
theorem test_decode_generate :
    decode ⟨0b00000000000000000010000000010011, 0x2000⟩ = .generate true 32 0x2000 ∧
      decode ⟨0xFFFFFF03, 0x2000⟩ = .generate false 16777215 0x2000 ∧
      decodeTableWord 96 (0x2000 * 2 ^ 32 + 0x00001F03) = some (.generate false 31 0x2000) := by decide +kernel
theorem test_decode_format_u :
    decode ⟨0b00000000000000000000000000000100, 7⟩ = .uninstantiate ∧ decode ⟨0x00000005, 7⟩ = .runKat ∧
      decode ⟨0x00000006, 7⟩ = .runHealthTest := by decide
theorem test_decode_reserved :
    [0x00000000, 0x00000007, 0x0000000F, 0x00004211, 0x00000212, 0x00002202, 0x00002023, 0x00000014,
        0x00000105].all (fun w => decode ⟨w, 0x1000⟩ == .reserved w 0x1000) = true ∧
      wordReject 0x00000007 = some .reservedOpcode ∧ wordReject 0x00004211 = some .mustBeZeroBit := by decide
theorem test_encode :
    encode (.instantiate 1 true false 9 true true 8) = some ⟨0x00003951, 8⟩ ∧
      encode (.reseed 0 true 8) = some ⟨0x00001002, 8⟩ ∧ encode (.generate false 64 8) = some ⟨0x00004003, 8⟩ := by
  decide

/-! ## Small states -/

/-- `xx, xx+1, ...`: `n` bytes. -/
def bytesFrom (x n : Nat) : List Byte := (List.range n).map fun i => BitVec.ofNat 8 (x + i)

/-- Parameters with short budgets and the illustrative vector of program F (95_test_vectors.md 3). -/
def params : Params where
  base := 0x40000000
  map := Config.defaultMap
  tBurstUs := 20
  tReseedUs := 20
  pollSleepUs := 10
  tResetUs := 10
  drngSeedLifeInclusive := false
  healthSeedLife := 1
  katMul := 3
  katLife := 1
  katPr := false
  katSeed := toBytes 160 (bytesFrom 0x40 64)
  katPers := toBytes 48 (bytesFrom 0xA0 48)
  katExpected := toBytes 32 (bytesFrom 0 32)

/-- The operand record at 0x1000: a seed life below 256, not 0, and the seed `01 02 .. 30`. -/
def record (life : Byte) : Memory :=
  (0x1000, life) :: (List.range 48).map fun i => (0x1008 + i, BitVec.ofNat 8 (i + 1))

/-- The zero instance with a script, the record in host memory. -/
def fresh (life : Byte) (script : List Word) : State :=
  { State.reset with params := params, mem := record life, script := script }

/-- A HEALTHY instance: DF enabled, multiplier 2, seed life 2 (none in PTRNG mode). -/
def healthy (m : Mode) : Instance :=
  { Instance.zero with
    state := .healthy
    mode := m
    seedLife := if m = .ptrng then 0 else 2
    dfLenMul := 2
    entropySize := 48
    initSeedPresent := m == .drng }

/-- A HEALTHY machine. -/
def live (m : Mode) (script : List Word) : State := { fresh 2 script with inst := healthy m }

/-- The state after the command `cw` with operand `a0` has run. -/
def after (s : State) (cw : Word) (a0 : HostAddr) : Option State :=
  match step (s.present ⟨cw, a0⟩) with
  | .next t => some t
  | .fault _ | .refused _ => none

/-- The state after an internal operation. -/
def ran (i : Instr) (s : State) : Option State :=
  match exec i s with
  | .next t => some t
  | .fault _ | .refused _ => none

/-- Burst `B(a, b, c, d)`. -/
def bu (a b c d : Word) : Burst := ⟨0x40, 0, #v[a, b, c, d]⟩

/-- Three good bursts, no two alike: 48 bytes. -/
def three : List Burst := [bu 0 1 2 3, bu 4 5 6 7, bu 8 9 10 11]

/-! ## Single steps (95_test_vectors.md) -/

/-- 2.5, row 4: the forbidden word, checked after the whole collection. -/
theorem test_instantiate_pattern :
    (after (fresh 1 (burstDraws .hrng [bu 0xAAAAAAAA 1 2 3, bu 4 5 6 7, bu 8 9 10 11])) 0x201 0x1000).map
      (fun t => (t.result, t.inst.state, t.inst.win, t.port.ctrl, accessCount t.log)) =
    some (0x0A, .error, #v[8, 9, 10, 11], 3, 23) := by decide +kernel

/-- 2.4, last table, the row with the DF disabled: the seed goes to `EXT_SEED` unprocessed, last register first. -/
theorem test_instantiate_dfdis :
    (after (fresh 5 [1, 0]) 0x1091 0x1000).map
      (fun t => (t.result, t.inst.state, t.inst.entropySize, t.port.extSeed[11], t.port.extSeed[0], accessCount t.log)) =
    some (0, .healthy, 48, 0x01020304, 0x2D2E2F30, 21) := by decide +kernel

/-- 2.6: the eager reset stays although DONE never shows; `CTRL` = 5. -/
theorem test_reseed_timeout :
    (after { live .drng [0, 0, 0] with
      inst := { healthy .drng with randBytesTotal := 64, randBytesSinceReseed := 64, generateCallsSinceReseed := 2 } }
      0x1202 0x1000).map
      (fun t => (t.result, t.inst.state, t.inst.randBytesTotal, t.inst.generateCallsSinceReseed, t.port.ctrl)) =
    some (7, .error, 64, 0, 5) := by decide +kernel

/-- P3: the initial seed again. -/
theorem test_reseed_replay :
    (after { live .drng [] with inst := { healthy .drng with initSeed := toBytes 160 (bytesFrom 1 48) } } 0x1202
      0x1000).map (fun t => (t.result, t.inst.state, accessCount t.log)) = some (5, .error, 0) := by decide +kernel

/-- 2.8, row 5: the repeat is found after the second burst was read and stored. -/
theorem test_generate_repeat :
    (after (live .drng (burstDraws .drng [bu 0xDEADBEEF 1 2 3, bu 0xDEADBEEF 1 2 3])) 0x2003 0x2000).map
      (fun t => (t.result, t.inst.state, t.inst.generateCallsSinceReseed, accessCount t.log,
        memReadBytes t.mem 0x2010 4)) =
    some (0x0C, .catastrophic, 0, 15, [0xDE, 0xAD, 0xBE, 0xEF]) := by decide +kernel

/-- 2.7 and 2.11: 32 bytes whatever `SIZE`, in order; statistics 32, 32, 1. -/
theorem test_generate_bytes :
    (after (live .drng (burstDraws .drng [bu 0x00010203 4 5 6, bu 0x10111213 7 8 0x1C1D1E1F])) 0x4003 0x2000).map
      (fun t => (t.result, t.inst.randBytesTotal, t.inst.generateCallsSinceReseed, accessCount t.log,
        memReadBytes t.mem 0x2000 4 ++ memReadBytes t.mem 0x201C 6)) =
    some (0, 32, 1, 15, [0, 1, 2, 3, 0x1C, 0x1D, 0x1E, 0x1F, 0, 0]) := by decide +kernel

/-- P8: 25 accesses, the zero instance, the hardware held. -/
theorem test_uninstantiate :
    (after { live .hrng [] with inst := { healthy .hrng with state := .catastrophic } } 4 0).map
      (fun t => (t.result, t.inst, t.port.reset, accessCount t.log)) = some (0, Instance.zero, 1, 25) := by
  decide +kernel

/-- Program F, the mismatch: the last byte is 1E, not 1F. -/
theorem test_runKat_mismatch :
    (after (fresh 1 ([1, 0] ++ burstDraws .drng [bu 0x00010203 0x04050607 0x08090A0B 0x0C0D0E0F,
      bu 0x10111213 0x14151617 0x18191A1B 0x1C1D1E1E])) 5 0).map
      (fun t => (t.result, t.inst.state, t.inst.randBytesTotal, t.port.ctrl, accessCount t.log)) =
    some (0x0D, .error, 32, 7, 36) := by decide +kernel

/-- Program F, the pass. -/
theorem test_runKat_pass :
    (after (fresh 1 ([1, 0] ++ burstDraws .drng [bu 0x00010203 0x04050607 0x08090A0B 0x0C0D0E0F,
      bu 0x10111213 0x14151617 0x18191A1B 0x1C1D1E1F])) 5 0).map
      (fun t => (t.result, t.inst, t.port.reset, accessCount t.log)) = some (0, Instance.zero, 1, 61) := by decide +kernel

/-- 2.14, row 4: a repeat inside the health test ends it as INSTANTIATE ends, with no clean-up. -/
theorem test_runHealthTest_repeat :
    (after (fresh 1 (burstDraws .hrng [bu 1 2 3 4, bu 1 2 3 4])) 6 0).map
      (fun t => (t.result, t.inst.state, t.inst.entropySize, accessCount t.log)) = some (0x0C, .catastrophic, 128, 17) := by
  decide +kernel

/-- 2.2: a reserved word changes `RESULT` only. -/
theorem test_reserved :
    (after (live .drng []) 0x14 0).map (fun t => (t.result, t.inst, t.cmdIndex)) = some (1, healthy .drng, 1) := by
  decide +kernel

/-- 30_encoding.md R125: `UNINSTANTIATE` (25 accesses), then the configuration of 2.4's PTRNG row (2 accesses). -/
theorem test_reinstantiate :
    (ran (.reinstantiate 2 false true 0 false false 0x3000) (live .drng [])).map
      (fun t => (t.result, t.inst.state, t.inst.mode, t.port.reset, accessCount t.log)) =
    some (0, .healthy, .ptrng, 0, 27) := by decide +kernel

/-- 2.9, row 4: A, B, B is found at the third burst. -/
theorem test_collectBurst_repeat :
    (ran (.collectBurst .scratch 48) (live .hrng (burstDraws .hrng [bu 1 2 3 4, bu 5 6 7 8, bu 5 6 7 8]))).map
      (fun t => (t.ret == .collected (some .errCatastrophicSw) (burstBytes [bu 1 2 3 4, bu 5 6 7 8, bu 5 6 7 8]),
        t.inst.state, t.inst.win)) = some (true, .catastrophic, #v[5, 6, 7, 8]) := by decide +kernel

/-- 2.9, row 10: the timeout wins over DTF. -/
theorem test_collectBurst_timeout :
    (ran (.collectBurst .null 32) (live .drng [2, 2, 2])).map (fun t => (t.ret, t.inst.state)) =
    some (.collected (some .errGenerateTimeout) [], .healthy) := by decide +kernel

/-- 2.10: bytes 4..7 are 55, and a pattern that straddles two words. -/
theorem test_checkSeedPattern :
    (ran (.checkSeedPattern [1, 1, 1, 1, 0x55, 0x55, 0x55, 0x55] 8) (live .hrng [])).map (·.ret) =
      some (.verdict false) ∧
    (ran (.checkSeedPattern [0, 0, 0xAA, 0xAA, 0xAA, 0xAA, 0, 0] 8) (live .hrng [])).map (·.ret) =
      some (.verdict true) := by decide +kernel

/-- 2.6, the HRNG reseed with multiplier 3, run as `ReseedCore`: four bursts, 46 accesses. -/
theorem test_reseedCore :
    (ran (.reseedCore none 3) (live .hrng (burstDraws .hrng (three ++ [bu 1 1 1 1]) ++ [1, 0]))).map
      (fun t => (t.ret, t.inst.dfLenMul, t.inst.entropySize, t.port.ctrl, accessCount t.log)) =
    some (.outcome none, 3, 64, 4, 46) := by decide +kernel

/-- 2.12, row 3. -/
theorem test_dfPack :
    (ran (.dfPack (bytesFrom 0x40 64) (some (toBytes 48 (bytesFrom 0xA0 48))) .seed) (live .drng [])).map
      (fun t => match t.ret with
        | .bytes b => (b.length, (b.drop 16).take 9, (b.drop 87).take 2, b.drop 135)
        | _ => (0, [], [], [])) =
    some (144, [0, 0, 0, 0x70, 0, 0, 0, 0x30, 0x40], [0x7F, 0xA0], [0xCF, 0x80, 0, 0, 0, 0, 0, 0, 0]) := by
  decide +kernel

/-- 2.11: the reset pulse and its settling time. -/
theorem test_hwReset :
    (ran .hwReset (live .drng [])).map State.portTrace =
    some [.wr 0x40000008 1, .sleep 10, .wr 0x40000008 0] := by decide +kernel

/-- 44_port_sequences.md R292: assert and nothing more. -/
theorem test_hwHoldReset :
    (ran .hwHoldReset (live .drng [])).map (fun t => (t.portTrace, t.held)) =
    some ([.wr 0x40000008 1], true) := by decide +kernel

/-- 2.11: ENTROPY is 2, and a held hardware ignores the write. -/
theorem test_hwProgram :
    (ran (.hwProgram .entropy) (live .drng [])).map (fun t => (t.portTrace, t.port.ctrl)) =
      some ([.wr 0x40000000 2], 2) ∧
    (ran (.hwProgram .prngGen) { live .drng [] with port := Port.zeroed 1 0 }).map (·.port.ctrl) = some 0 := by
  decide +kernel

/-- 2.11: the bytes 00..2F, the first and the last write. -/
theorem test_writeGroup :
    (ran (.writeGroup .extSeed (toBytes 48 (bytesFrom 0 48))) (live .drng [])).map
      (fun t => (t.portTrace.take 2, t.portTrace.drop 11)) =
    some ([.wr 0x4000006C 0x00010203, .wr 0x40000068 0x04050607], [.wr 0x40000040 0x2C2D2E2F]) := by decide +kernel

/-- 2.11: 24 zero writes, `EXT_SEED` upwards first. -/
theorem test_zeroizeSeedRegs :
    (ran .zeroizeSeedRegs (live .drng [])).map (fun t => (t.log.length, t.portTrace.take 2, t.portTrace.drop 23)) =
    some (24, [.wr 0x40000040 0, .wr 0x40000044 0], [.wr 0x400000AC 0]) := by decide +kernel

/-- 2.11: ready at the third read after two sleeps; `QCNT` = 3 and 5 are not ready. -/
theorem test_pollField :
    (ran (.pollField 4 0x70 0x40 8000) (live .drng [0x30, 0x50, 0x42, 9])).map (fun t => (t.ret, t.log.length, t.script)) =
    some (.poll true, 5, [9]) := by decide +kernel

/-- R36, R299 run on its own: `CORE_OUTPUT` is polled, each read a fresh word (entry 38). -/
theorem test_pollField_coreOutput :
    (ran (.pollField 0x10 0xFF 7 8000) (live .drng [5, 6, 7, 8])).map (fun t => (t.ret, t.port.coreOutput, t.script)) =
    some (.poll true, 7, [8]) := by decide +kernel

/-- 20_memory.md R89: the accesses of host memory stand in the ordered list with those of the port; the seed is read before
`EXT_SEED` is written, each word is stored before the next is read. -/
theorem test_memory_events :
    (after (live .drng [1, 0]) 0x1202 0x1000).map (fun t => (t.trace.take 1, t.trace.length)) =
      some ([.memRd 0x1008 (bytesFrom 1 48)], 20) ∧
    (after (live .drng (burstDraws .drng [bu 0x00010203 4 5 6, bu 7 8 9 10])) 0x2003 0x2000).map
      (fun t => (t.trace.drop 5).take 3) =
      some [.rd 0x40000010 0x00010203, .memWr 0x2000 [0, 1, 2, 3], .rd 0x40000010 4] := by decide +kernel

/-- 20_memory.md R71: `NULL` = 0 is never dereferenced: a collection into it discards (41_entropy_collector.md R205). -/
theorem test_null_destination :
    (ran (.collectBurst (.host 0) 16) (live .hrng (burstDraws .hrng [bu 1 2 3 4]))).map
      (fun t => (t.ret, t.mem == record 2, t.inst.win, t.log.length)) =
    some (.collected none [], true, #v[1, 2, 3, 4], 8) := by decide +kernel

/-- Another port map (R118): `CTRL` at 0x20 with `SEL` in bits 5..4 and `START` in bit 7. -/
theorem test_other_map :
    (ran (.hwProgram .prngGen) { live .drng [] with
      params := { params with map := { Config.defaultMap with
        ctrlAt := 0x20, ctrlStart := 0x80, ctrlSel := 0x30, selShift := 4 } } }).map (fun t => (t.portTrace, t.port.ctrl)) =
    some ([.wr 0x40000020 0x30], 0x30) := by decide +kernel

/-! ## Witnesses: states and operands that meet the hypotheses of each statement -/

/-- Closes the facts about good bursts of the witnesses below, in every mode. -/
theorem three_good (m : Mode) : ∀ b ∈ three, b.Good params m := by
  unfold Burst.Good; cases m <;> decide

theorem three_noRepeat : NoRepeat three := ⟨by decide, by decide, trivial⟩

theorem three_noForbidden : NoForbidden three := (checkSeedPattern_bursts three).1 (by decide +kernel)

/-- The tests run on the default map. -/
theorem params_map : MapOk params.map := defaultMap_ok

theorem done_clear : ReseedDone params 1 0 := by unfold ReseedDone; decide

/-- The polled values one by one. -/
theorem neverShows_of_all {p : Params} {mask expect : Word} {vs : List Word}
    (h : vs.all (fun v => shown p v &&& mask != expect) = true) : NeverShows p mask expect vs := by
  intro v hv
  simpa using List.all_eq_true.1 h v hv

theorem witness_DecodeEncodeAgree :
    (Instr.instantiate 3 true true 15 true true 0x1000).wellFormed = true ∧
      encode (.instantiate 3 true true 15 true true 0x1000) = some ⟨0x00003FF1, 0x1000⟩ := by decide

/-- Each clause at a boundary word. -/
theorem witness_ReservedWordsAreRefused :
    [0x00000000, 0x00000007, 0x00004001, 0x00000012, 0x00002002, 0x00000023, 0x00000014, 0x80000006].all
        (fun w => decode ⟨w, 8⟩ == .reserved w 8) = true ∧
      [0x00003FF1, 0x00001F02, 0xFFFFFF13, 0x00000006].all (fun w => decode ⟨w, 8⟩ != .reserved w 8) = true := by decide

theorem witness_StepRunsTheDecodedCommand :
    (∃ (s t : State) (c : Command), s.fetch = some c ∧ exec (decode c) s = .next t) ∧
      ∃ s : State, s.commands[s.cmdIndex]? = none :=
  ⟨⟨(live .drng []).present ⟨0x14, 0⟩, _, _, rfl, rfl⟩, State.reset, rfl⟩

theorem witness_EveryCommandCompletes : ∃ (s : State) (c : Command), s.commands[s.cmdIndex]? = some c :=
  ⟨(live .drng []).present ⟨6, 0⟩, _, rfl⟩

theorem witness_BaseIsNeverWritten : ∃ (i : Instr) (s t : State), exec i s = .next t :=
  ⟨.hwReset, live .drng [], _, rfl⟩

/-- A reserved word, a missing record, and a command that is neither. -/
theorem witness_MalformedCommandsAreRefused :
    Malformed ⟨0x14, 8⟩ ∧ Malformed ⟨0x00001202, 0⟩ ∧ ¬ Malformed ⟨0x00000202, 0⟩ := by
  unfold Malformed NullOperand; decide

theorem witness_WrongStateCommandsChangeNothing :
    ¬ Malformed ⟨0x00000202, 0⟩ ∧ ¬ Accepts (decode ⟨0x00000202, 0⟩) (healthy .ptrng) ∧ ¬ Malformed ⟨0x4, 0⟩ ∧
      ¬ Accepts (decode ⟨0x4, 0⟩) Instance.zero := by
  unfold Malformed NullOperand
  exact ⟨by decide, fun h => h.2 rfl, by decide, fun h => h rfl⟩

/-- A HEALTHY state that meets the invariant, and a step from it. -/
theorem witness_StepKeepsInv : ∃ s t : State, s.inst.state = .healthy ∧ s.Inv ∧ step s = .next t :=
  ⟨(live .drng [0, 0, 0]).present ⟨0x2003, 0x2000⟩, _, rfl,
    { memory := by decide +kernel
      resultCode := by decide
      zeroInstance := by decide
      configured := fun _ => ⟨by decide, by decide, by decide, by decide⟩
      ptrngContract := by unfold Instance.PtrngContract; decide
      counters := by decide
      withinLife := fun _ => by unfold Instance.WithinLife; decide
      released := by decide
      quiet := by rintro (h | h) <;> revert h <;> decide
      reserved := by unfold ReservedClear; decide
      map := defaultMap_ok }, rfl⟩

theorem witness_ResultDecidesState :
    ∃ (s t : State) (c : Command), ¬ Malformed c ∧ Accepts (decode c) s.inst ∧ exec (decode c) s = .next t :=
  ⟨live .drng [], _, ⟨4, 0⟩, by unfold Malformed NullOperand; decide, (by decide : RunState.healthy ≠ .uninitialized), rfl⟩

theorem witness_OnlyUninstantiateLeavesAFailure :
    ∃ s t : State, s.inst.state = .catastrophic ∧
      (∀ k < 1, ∀ c, s.commands[s.cmdIndex + k]? = some c → decode c ≠ .uninstantiate) ∧
      Host.Core.run Sys2Proof.core 1 s = .next t := by
  refine ⟨State.present { live .drng [] with inst := { healthy .drng with state := .catastrophic } } ⟨5, 0⟩, _, rfl, ?_, rfl⟩
  rintro k hk c hc
  obtain rfl : k = 0 := by omega
  obtain rfl : (⟨5, 0⟩ : Command) = c := Option.some.inj hc
  decide

/-- A store of 32 bytes at 0x2000: the addresses just outside. -/
theorem witness_HostMemoryFrame :
    ∃ (s t : State) (a0 : HostAddr), exec (.generate false 32 a0) s = .next t ∧ (0x1FFF < a0.toNat ∨ a0.toNat + 32 ≤ 0x1FFF) ∧
      (0x2020 < a0.toNat ∨ a0.toNat + 32 ≤ 0x2020) :=
  ⟨live .ptrng (burstDraws .ptrng three), _, 0x2000, rfl, by decide, by decide⟩

theorem witness_ConfigurationIsImmutable :
    ∃ s t : State, exec (.reseed 9 true 0x1000) s = .next t := ⟨live .drng [1, 0], _, rfl⟩

theorem witness_CommandsAccessOnlyTheirRegisters :
    ∃ (s t : State) (c : Command), MapOk s.params.map ∧ exec (decode c) s = .next t :=
  ⟨live .drng [1, 0], _, ⟨0x1202, 0x1000⟩, params_map, rfl⟩

theorem witness_PortRegistersReadBack : (live .drng []).held = false := by decide

/-- A held hardware; values with `ASSERT` set and clear. -/
theorem witness_ResetHoldsTheHardware :
    (∃ s : State, s.held = true) ∧ (3 : Word) &&& params.map.resetAssert ≠ 0 ∧ (2 : Word) &&& params.map.resetAssert = 0 :=
  ⟨⟨{ fresh 1 [] with port := Port.zeroed 1 0 }, by decide⟩, by decide, by decide⟩

theorem witness_HardwareResetsCompleted : MapOk (fresh 1 []).params.map := params_map

theorem witness_HwProgramSelects : MapOk (fresh 1 []).params.map := params_map

theorem witness_ReadModifyWriteOfCtrl : (∃ s : State, s.held = false) ∧ ∃ s : State, s.held = true :=
  ⟨⟨fresh 1 [], by decide⟩, { fresh 1 [] with port := Port.zeroed 1 0 }, by decide⟩

/-- At the budget: two sleeps of 10 us within 20 us; and at once, with no budget at all. -/
theorem witness_PollEndsAtTheFirstMatch :
    MapOk params.map ∧ (live .drng [0x30, 0x50, 0x42]).held = false ∧ 1 ≤ params.pollSleepUs ∧
      (live .drng [0x30, 0x50, 0x42]).script = [0x30, 0x50] ++ 0x42 :: [] ∧ NeverShows params 0x70 0x40 [0x30, 0x50] ∧
      NeverShows params 0x70 0x40 [] ∧ shown params 0x42 &&& 0x70 = 0x40 ∧
      [0x30, 0x50].length ≤ (20 + params.pollSleepUs - 1) / params.pollSleepUs ∧
      ([] : List Word).length ≤ (0 + params.pollSleepUs - 1) / params.pollSleepUs :=
  ⟨params_map, rfl, by decide, rfl, neverShows_of_all (by decide), neverShows_of_all (by decide), by decide, by decide, by decide⟩

/-- The second clause at registers other than `STATUS`: `CORE_OUTPUT`, and the last one of a group. -/
theorem witness_PollTimesOut :
    NeverShows params 0x1 0x1 ([4, 6] ++ [0x40]) ∧ [4, 6].length = (20 + params.pollSleepUs - 1) / params.pollSleepUs ∧
      NeverShows params 0x1 0x1 ([] ++ [0x40]) ∧
      ([] : List Word).length = (0 + params.pollSleepUs - 1) / params.pollSleepUs ∧
      (live .drng [4, 6, 0x40]).script = [4, 6] ++ 0x40 :: [] ∧ MapOk params.map ∧
      (0x10 : Word).toNat = portOffset params.map .coreOutput ∧ (0xAC : Word).toNat = portOffset params.map (.perStrng 11) :=
  ⟨neverShows_of_all (by decide), by decide, neverShows_of_all (by decide), by decide, rfl, params_map, by decide, by decide⟩

/-- In every mode, into each kind of destination. -/
theorem witness_CollectBurstStoresTheBursts (m : Mode) :
    three ≠ [] ∧ (live m (burstDraws m three)).held = false ∧ (∀ b ∈ three, b.Good params (healthy m).mode) ∧
      NoRepeat three ∧ (live m (burstDraws m three)).script = burstDraws (healthy m).mode three ++ [] ∧
      Memory.wf (record 2) = true ∧ Dst.null.isNull = true ∧ (Dst.host 0x2000).isNull = false ∧ Dst.scratch.isNull = false :=
  ⟨by decide, by cases m <;> rfl, three_good m, three_noRepeat, (List.append_nil _).symm, by decide +kernel, rfl, rfl, rfl⟩

/-- With no burst before it, and with three. -/
theorem witness_DtfEndsTheCollection :
    ∃ s u : State, s.inst.mode = .hrng ∧ s.held = false ∧ three.length < 4 ∧ (∀ b ∈ three, b.Good params s.inst.mode) ∧
      NoRepeat three ∧ (0x47 : Word) &&& 0x70 = 0x40 ∧ (2 : Word) &&& 0x2 ≠ 0 ∧
      s.script = burstDraws s.inst.mode three ++ 0x47 :: 2 :: [] ∧
      u.inst.mode = .drng ∧ u.script = burstDraws u.inst.mode [] ++ 0x47 :: 2 :: [] :=
  ⟨live .hrng (burstDraws .hrng three ++ [0x47, 2]), live .drng [0x47, 2], rfl, rfl, by decide, three_good _, three_noRepeat,
    by decide, by decide, rfl, rfl, rfl⟩

theorem witness_RepeatEndsTheCollection :
    ∃ s : State, s.held = false ∧ three.length + 1 < 5 ∧
      (∀ b ∈ three ++ [bu 1 1 1 1, bu 1 1 1 1], b.Good params s.inst.mode) ∧ NoRepeat (three ++ [bu 1 1 1 1]) ∧
      (bu 1 1 1 1).words = (bu 1 1 1 1).words ∧
      s.script = burstDraws s.inst.mode (three ++ [bu 1 1 1 1, bu 1 1 1 1]) ++ [] :=
  ⟨live .ptrng (burstDraws .ptrng (three ++ [bu 1 1 1 1, bu 1 1 1 1])), rfl, by decide,
    by show ∀ b ∈ three ++ [bu 1 1 1 1, bu 1 1 1 1], b.Good params .ptrng; unfold Burst.Good; decide, ⟨by decide, by decide, by decide, trivial⟩, rfl, rfl⟩

theorem witness_NotReadyEndsTheCollection :
    ∃ s : State, s.held = false ∧ 1 ≤ s.params.pollSleepUs ∧ three.length < 4 ∧ (∀ b ∈ three, b.Good params s.inst.mode) ∧
      NoRepeat three ∧ NeverShows params 0x70 0x40 ([0x30, 0x50] ++ [0]) ∧
      [0x30, 0x50].length = (s.params.tBurstUs + s.params.pollSleepUs - 1) / s.params.pollSleepUs ∧
      s.script = burstDraws s.inst.mode three ++ [0x30, 0x50] ++ 0 :: [] :=
  ⟨live .drng (burstDraws .drng three ++ [0x30, 0x50] ++ [0]), rfl, by decide, by decide, three_good _, three_noRepeat,
    neverShows_of_all (by decide), by decide, rfl⟩

/-- Sizes on both sides: 0, 8 and 40 are bad, 16 is the least good one. -/
theorem witness_CollectBurstIsFramedAndBounded :
    (0 = 0 ∨ 0 % 16 ≠ 0) ∧ (8 = 0 ∨ 8 % 16 ≠ 0) ∧ (40 = 0 ∨ 40 % 16 ≠ 0) ∧ 16 ≠ 0 ∧ 16 % 16 = 0 := by decide

/-- The whole buffer, and none of it. -/
theorem witness_SeedPatternVerdict : 8 % 4 = 0 ∧ 8 ≤ ([1, 1, 1, 1, 0x55, 0x55, 0x55, 0x55] : List Byte).length ∧
    0 % 4 = 0 ∧ 0 ≤ ([] : List Byte).length := by decide

theorem witness_CbcMacChains : ([] : List Byte).length % 16 = 0 ∧ (List.replicate 16 (0 : Byte)).length % 16 = 0 := by decide

/-- The shortest and the longest entropy. -/
theorem witness_entropy_lengths :
    validEntropyLength (bytesFrom 0 48).length = true ∧ validEntropyLength (bytesFrom 0 160).length = true := by decide +kernel

/-- `PackedBlockLayout` and `DfComposesItsParts` have this one hypothesis. -/
theorem witness_PackedBlockLayout : ∃ ent : List Byte, validEntropyLength ent.length = true := ⟨_, witness_entropy_lengths.1⟩

theorem witness_DfComposesItsParts : ∃ ent : List Byte, validEntropyLength ent.length = true := ⟨_, witness_entropy_lengths.2⟩

theorem witness_DfBccSetsTheIndex :
    validPackedLength (List.replicate 128 (0 : Byte)).length = true ∧ validPackedLength (List.replicate 240 (0 : Byte)).length = true ∧
      ∀ k : Fin 32, dfKey0[k] = BitVec.ofNat 8 k.val := by decide +kernel

theorem witness_DfOutIsAChain : ∃ (key : CipherKey) (x : Block) (t : Vector Byte 48), t.toList = key.toList ++ x.toList :=
  ⟨Vector.replicate 32 1, Vector.replicate 16 2, toBytes 48 (List.replicate 32 1 ++ List.replicate 16 2), by decide +kernel⟩

/-- Each operand just outside its domain. -/
theorem witness_OutOfDomainOperandsAreRefused :
    (∀ n ∈ [32, 49, 176], ¬ (48 ≤ n ∧ n ≤ 160 ∧ n % 16 = 0)) ∧ (∀ n ∈ [112, 129, 256], ¬ (128 ≤ n ∧ n ≤ 240 ∧ n % 16 = 0)) ∧
      15 % 16 ≠ 0 ∧ (3 % 4 ≠ 0 ∧ ([] : List Byte).length < 4) ∧ mulLegal false 1 = false ∧ mulLegal false 10 = false ∧
      mulLegal true 1 = false ∧ (healthy .drng).mode = .drng ∧ (bytesFrom 0 47).length ≠ entropySizeFor false 2 ∧
      (bytesFrom 0 49).length ≠ entropySizeFor false 2 ∧
      ([0x02, 0x14, 0x3C, 0x70, 0x7C, 0xB0] : List Word).all (fun off =>
        off.toNat % 4 ≠ 0 ∨ (0x10 < off.toNat ∧ off.toNat < 0x40) ∨ (0x6C < off.toNat ∧ off.toNat < 0x80) ∨
          0xAC < off.toNat) = true ∧
      ([0x02, 0x14, 0x3C, 0x70, 0x7C, 0xB0] : List Word).all (fun off => portRegAt params.map off == none) = true := by
  decide +kernel

/-- The ends of the legal range. -/
theorem witness_EntropySizeValues :
    mulLegal true 0 = true ∧ mulLegal false 2 = true ∧ mulLegal false 9 = true ∧ mulLegal false 1 = false ∧
      mulLegal false 10 = false := by decide

/-- 95_test_vectors.md 2.4, one row for each clause: `(command word, seed life, code)`; all other hypotheses are those of
the zero instance with `A0` = 0x1000. -/
theorem witness_InstantiateValidates :
    ([(0x231, 1, 1), (0xA1, 1, 3), (0x20A1, 1, 3), (0x211, 1, 4), (0x1201, 1, 3), (0x101, 1, 1), (0xA01, 1, 1), (0x281, 1, 1)] :
        List (Word × Byte × BitVec 8)).all (fun r =>
      (fresh r.2.1 []).inst == Instance.zero && (after (fresh r.2.1 []) r.1 0x1000).map (·.result) == some r.2.2) = true ∧
      (after { fresh 1 [] with mem := [] } 0x201 0x1000).map (·.result) = some 1 ∧ hostSeedLife [] 0x1000 < 1 ∧
      2 ^ 48 < hostSeedLife [(0x1000, 1), (0x1006, 1)] 0x1000 := by decide +kernel

theorem witness_InstantiatePtrng :
    MapOk params.map ∧ (fresh 1 []).inst = Instance.zero ∧ (0x3000 : HostAddr) ≠ nullAddr ∧ hostSeedLife (record 1) 0x3000 = 0 ∧
      mulLegal true 0 = true ∧ mulLegal false 9 = true :=
  ⟨params_map, by decide +kernel⟩

/-- Seed lives 1 and 2^48. -/
theorem witness_InstantiateDrng :
    ∃ s : State, MapOk s.params.map ∧ s.inst = Instance.zero ∧ (0x1000 : HostAddr) ≠ nullAddr ∧ 1 ≤ hostSeedLife s.mem 0x1000 ∧
      hostSeedLife s.mem 0x1000 ≤ 2 ^ 48 ∧ hostSeedLife [(0x1006, 1)] 0x1000 = 2 ^ 48 ∧ mulLegal false 2 = true ∧
      ReseedDone params 1 0 ∧ s.script = 1 :: 0 :: [] :=
  ⟨fresh 1 [1, 0], params_map, rfl, by decide, by decide +kernel, by decide +kernel, by decide +kernel, by decide, done_clear, rfl⟩

theorem witness_InstantiateHrng :
    ∃ s : State, MapOk s.params.map ∧ s.inst = Instance.zero ∧ (0x1000 : HostAddr) ≠ nullAddr ∧ 1 ≤ hostSeedLife s.mem 0x1000 ∧
      hostSeedLife s.mem 0x1000 ≤ 2 ^ 48 ∧ mulLegal false 2 = true ∧ 16 * three.length = entropySizeFor false 2 ∧
      (∀ b ∈ three, b.Good params .hrng) ∧ NoRepeat three ∧ NoForbidden three ∧ ReseedDone params 1 0 ∧
      s.script = burstDraws .hrng three ++ 1 :: 0 :: [] :=
  ⟨fresh 1 (burstDraws .hrng three ++ [1, 0]), params_map, rfl, by decide, by decide +kernel, by decide +kernel, by decide, by decide,
    three_good _, three_noRepeat, three_noForbidden, done_clear, rfl⟩

/-- How `ReseedCore` run on its own ended, with the state. -/
def reseedEnds (m : BitVec 4) (seed : Option (List Byte)) (s : State) : Option (Ret × RunState) :=
  (ran (.reseedCore seed m) s).map fun t => (t.ret, t.inst.state)

/-- A machine with a legal configuration stored and its hardware reset, before the internal reseed of `INSTANTIATE`. -/
def storedConfig (m : Mode) (script : List Word) : State :=
  { fresh 1 script with
    inst := configuredInst .uninitialized m (record 1) false false 2 (m == .drng) false 0x1000
    port := Port.zeroed 0 0
    resetCount := 1 }

/-- The configured and reset machine from which the inner reseed runs: in HRNG mode a DTF, a forbidden word and a burst that is
never ready; in DRNG mode CERTF. Then the concrete clause: CERTF read as 1, and DONE never shown in three reads. -/
theorem witness_InstantiateReseedFailure :
    (reseedEnds 2 none (storedConfig .hrng [0x40, 2]) = some (.outcome (some .errCatastrophicDtf), .catastrophic) ∧
      reseedEnds 2 none (storedConfig .hrng (burstDraws .hrng [bu 0xAAAAAAAA 1 2 3, bu 4 5 6 7, bu 8 9 10 11])) =
        some (.outcome (some .errCertfSw), .uninitialized) ∧
      reseedEnds 2 none (storedConfig .hrng [0, 0, 0]) = some (.outcome (some .errGenerateTimeout), .uninitialized) ∧
      reseedEnds 2 (some (bytesFrom 1 48)) (storedConfig .drng [1, 4]) =
        some (.outcome (some .errCertfHw), .uninitialized)) ∧
    MapOk params.map ∧ (fresh 1 []).inst = Instance.zero ∧ 1 ≤ hostSeedLife (record 1) 0x1000 ∧
    hostSeedLife (record 1) 0x1000 ≤ 2 ^ 48 ∧ mulLegal false 2 = true ∧ 1 ≤ params.pollSleepUs ∧
    ((1 : Word) &&& params.map.statusDone = params.map.statusDone ∧ (4 : Word) &&& params.map.statusCertf ≠ 0) ∧
    NeverShows params params.map.statusDone params.map.statusDone ([4, 6] ++ [0]) ∧
    [4, 6].length = (params.tReseedUs + params.pollSleepUs - 1) / params.pollSleepUs :=
  ⟨by decide +kernel, params_map, rfl, by decide +kernel, by decide +kernel, by decide, by decide, by decide,
    neverShows_of_all (by decide), by decide⟩

/-- Each failure of a reseed and of a collection is in the tables of the statements. -/
theorem witness_failures :
    CollectFailure .errGenerateTimeout 0x08 .error ∧ CollectFailure .errCatastrophicDtf 0x0B .catastrophic ∧
      CollectFailure .errCatastrophicSw 0x0C .catastrophic ∧ ReseedFailure .errCertfSw 0x0A .error ∧
      ReseedFailure .errReseedTimeout 0x07 .error ∧ ReseedFailure .errCertfHw 0x09 .error := by
  simp [ReseedFailure, CollectFailure]

/-- One state for each guard, in the order of the statement; the replay is `test_reseed_replay`. -/
theorem witness_ReseedGuards :
    (healthy .drng).mode = .drng ∧ (healthy .hrng).mode = .hrng ∧ (healthy .hrng).state = .healthy ∧
      (healthy .hrng).dfDisabled = false ∧ ((1 : BitVec 4).toNat < 2 ∨ 9 < (1 : BitVec 4).toNat) ∧
      ((10 : BitVec 4).toNat < 2 ∨ 9 < (10 : BitVec 4).toNat) ∧ { healthy .hrng with dfDisabled := true }.dfDisabled = true ∧
      (1 : BitVec 4) ≠ 0 ∧
      ∀ k : Fin 160, k.val < entropySizeFor false 2 →
        memRead (record 2) ((0x1000 : HostAddr).toNat + 8 + k.val) = (toBytes 160 (bytesFrom 1 48))[k] := by decide +kernel

/-- A reseed that is done, and one that ends on CERTF. -/
theorem witness_ReseedDrng :
    (∃ s : State, s.inst.state = .healthy ∧ s.inst.mode = .drng ∧ MapOk s.params.map ∧ s.held = false ∧
      (0x1000 : HostAddr) ≠ nullAddr ∧ mulLegal s.inst.dfDisabled 2 = true ∧
      (0 : Fin 160).val < entropySizeFor s.inst.dfDisabled 2 ∧
      memRead s.mem ((0x1000 : HostAddr).toNat + 8 + (0 : Fin 160).val) ≠ s.inst.initSeed[(0 : Fin 160)] ∧
      ReseedDone params 1 0 ∧ s.script = 1 :: 0 :: []) ∧
    reseedEnds 2 (some (hostSeed (record 2) 0x1000 48)) (live .drng [1, 4]) = some (.outcome (some .errCertfHw), .healthy) :=
  ⟨⟨live .drng [1, 0], rfl, rfl, params_map, rfl, by decide, by decide, by decide, by decide +kernel, done_clear, rfl⟩,
    by decide +kernel⟩

/-- A reseed that is done, a forbidden word as the last word of the last burst, and a burst never ready. -/
theorem witness_ReseedHrng :
    (∃ s : State, s.inst.state = .healthy ∧ s.inst.mode = .hrng ∧ MapOk s.params.map ∧ s.held = false ∧
      mulLegal s.inst.dfDisabled 2 = true ∧ 16 * three.length = entropySizeFor s.inst.dfDisabled 2 ∧
      (∀ b ∈ three, b.Good params .hrng) ∧ NoRepeat three ∧ NoForbidden three ∧ ReseedDone params 1 0 ∧
      s.script = burstDraws .hrng three ++ 1 :: 0 :: []) ∧
    ¬ NoForbidden [bu 0 1 2 3, bu 4 5 6 7, bu 8 9 10 0x55555555] ∧
    reseedEnds 2 none (live .hrng [0, 0, 0]) = some (.outcome (some .errGenerateTimeout), .healthy) :=
  ⟨⟨live .hrng (burstDraws .hrng three ++ [1, 0]), rfl, rfl, params_map, rfl, by decide, by decide, three_good _,
      three_noRepeat, three_noForbidden, done_clear, rfl⟩,
    fun h => (h (bu 8 9 10 0x55555555) (by decide) 0x55555555 (by decide)).2 rfl, by decide +kernel⟩

/-- Both clauses: the states of the two witnesses before this one. -/
theorem witness_ReseedCoreCompletes :
    (∃ (s : State) (seed : List Byte), MapOk s.params.map ∧ s.held = false ∧ mulLegal s.inst.dfDisabled 2 = true ∧ ReseedDone params 1 0 ∧
      s.inst.mode = .drng ∧ seed.length = entropySizeFor s.inst.dfDisabled 2 ∧ s.script = 1 :: 0 :: []) ∧
    ∃ s : State, MapOk s.params.map ∧ s.held = false ∧ mulLegal s.inst.dfDisabled 2 = true ∧ s.inst.mode = .hrng ∧
      16 * three.length = entropySizeFor s.inst.dfDisabled 2 ∧ (∀ b ∈ three, b.Good params .hrng) ∧ NoRepeat three ∧
      NoForbidden three ∧ s.script = burstDraws .hrng three ++ 1 :: 0 :: [] :=
  ⟨⟨live .drng [1, 0], bytesFrom 0 48, params_map, rfl, by decide, done_clear, rfl, by decide +kernel, rfl⟩,
    live .hrng (burstDraws .hrng three ++ [1, 0]), params_map, rfl, by decide, rfl, by decide, three_good _, three_noRepeat,
    three_noForbidden, rfl⟩

/-- DRNG with the longest seed; in HRNG mode a collection that fails and one that holds a forbidden word. -/
theorem witness_ReseedCoreIsEagerAndBounded :
    mulLegal (healthy .drng).dfDisabled 9 = true ∧
      ((healthy .drng).mode = .drng →
        (some (bytesFrom 0 160)).map List.length = some (entropySizeFor (healthy .drng).dfDisabled 9)) ∧
      (ran (.collectBurst .scratch 48) (live .hrng [0x40, 2])).map (·.ret) =
        some (.collected (some .errCatastrophicDtf) []) ∧
      (ran (.collectBurst .scratch 48) (live .hrng (burstDraws .hrng [bu 0xAAAAAAAA 1 2 3, bu 4 5 6 7, bu 8 9 10 11]))).map
        (fun t => match t.ret with | .collected none b => b.take 4 | _ => []) = some [0xAA, 0xAA, 0xAA, 0xAA] := by
  decide +kernel

/-- Each check at a boundary: size 31, prediction resistance in PTRNG mode and not enabled, three calls on a seed life of 2,
one call with prediction resistance, two calls under the inclusive parameter. -/
theorem witness_GenerateChecks :
    (after (live .hrng []) 0x1F03 0x2000).map (·.result) = some 1 ∧
      (after (live .ptrng []) 0x2013 0x2000).map (·.result) = some 3 ∧
      (after (live .drng []) 0x2013 0x2000).map (·.result) = some 1 ∧
      (after { live .drng [] with inst := { healthy .drng with generateCallsSinceReseed := 3 } } 0x2003 0x2000).map
        (·.result) = some 6 ∧
      (after { live .drng [] with inst := { healthy .drng with generateCallsSinceReseed := 1, predResEn := true } } 0x2013
        0x2000).map (·.result) = some 6 ∧
      (after { live .drng [] with
        params := { params with drngSeedLifeInclusive := true }
        inst := { healthy .drng with generateCallsSinceReseed := 2 } } 0x2003 0x2000).map (·.result) = some 6 := by
  decide +kernel

/-- The last call each policy allows: one call before in HRNG mode, two in DRNG mode, on a seed life of 2. -/
theorem witness_GenerateHardwareOutput :
    ∃ s u : State, s.inst.state = .healthy ∧ s.inst.mode = .hrng ∧ s.held = false ∧
      s.inst.generateCallsSinceReseed.toNat < s.inst.seedLife.toNat ∧ u.inst.state = .healthy ∧ u.inst.mode = .drng ∧
      u.held = false ∧ u.params.drngSeedLifeInclusive = false ∧
      u.inst.generateCallsSinceReseed.toNat = u.inst.seedLife.toNat ∧ (0x2000 : HostAddr) ≠ nullAddr ∧
      32 ≤ (32 : BitVec 24).toNat ∧ (∀ m, (bu 0 0 0 0).Good params m ∧ (bu 0 0 0 1).Good params m) ∧
      (bu 0 0 0 0).words ≠ (bu 0 0 0 1).words ∧ Memory.wf s.mem = true ∧ Memory.wf u.mem = true ∧
      s.script = burstDraws s.inst.mode [bu 0 0 0 0, bu 0 0 0 1] ++ [] ∧
      u.script = burstDraws u.inst.mode [bu 0 0 0 0, bu 0 0 0 1] ++ [] ∧ MapOk params.map ∧
      (ran (.collectBurst (.host 0x2000) 32) (live .drng [0x40, 2])).map (·.ret) =
        some (.collected (some .errCatastrophicDtf) []) :=
  ⟨{ live .hrng (burstDraws .hrng [bu 0 0 0 0, bu 0 0 0 1]) with inst := { healthy .hrng with generateCallsSinceReseed := 1 } },
    { live .drng (burstDraws .drng [bu 0 0 0 0, bu 0 0 0 1]) with inst := { healthy .drng with generateCallsSinceReseed := 2 } },
    rfl, rfl, rfl, by decide, rfl, rfl, rfl, rfl, by decide, by decide, by decide,
    fun m => by unfold Burst.Good; cases m <;> decide, by decide, by decide +kernel, by decide +kernel, rfl, rfl, params_map,
    by decide +kernel⟩

/-- DF enabled (three bursts) and disabled (two). -/
theorem witness_GeneratePtrngOutput :
    ∃ s u : State, s.inst.state = .healthy ∧ s.inst.mode = .ptrng ∧ s.held = false ∧ (∀ b ∈ three, b.Good params .ptrng) ∧
      NoRepeat three ∧ Memory.wf s.mem = true ∧ three ≠ [] ∧ s.inst.dfDisabled = false ∧
      16 * three.length = s.inst.entropySize.toNat ∧ s.script = burstDraws .ptrng three ++ [] ∧
      u.inst.state = .healthy ∧ u.inst.mode = .ptrng ∧ u.inst.dfDisabled = true ∧ 16 * (three.take 2).length = 32 ∧
      u.script = burstDraws .ptrng (three.take 2) ++ [] ∧ MapOk params.map ∧
      (ran (.collectBurst .scratch 48) (live .ptrng [0, 0, 0])).map (·.ret) =
        some (.collected (some .errGenerateTimeout) []) :=
  ⟨live .ptrng (burstDraws .ptrng three),
    { live .ptrng (burstDraws .ptrng (three.take 2)) with inst := { healthy .ptrng with dfDisabled := true } }, rfl, rfl, rfl,
    three_good _, three_noRepeat, by decide +kernel, by decide, rfl, by decide, rfl, rfl, rfl, rfl, by decide, rfl, params_map,
    by decide +kernel⟩

/-- Both grounds: the seed life elapsed exactly, and prediction resistance with one call before. A reseed that fails and one
that is done: `witness_ReseedHrng` and `test_reseedCore`. -/
theorem witness_GenerateSelfHeals :
    ∃ s u : State, MapOk s.params.map ∧ MapOk u.params.map ∧ s.inst.state = .healthy ∧ s.inst.mode = .hrng ∧ s.held = false ∧
      mulLegal s.inst.dfDisabled s.inst.dfLenMul = true ∧
      s.inst.seedLife.toNat ≤ s.inst.generateCallsSinceReseed.toNat ∧
      u.inst.predResEn = true ∧ 1 ≤ u.inst.generateCallsSinceReseed.toNat ∧
      16 * three.length = entropySizeFor s.inst.dfDisabled s.inst.dfLenMul ∧
      (∀ b ∈ three ++ [bu 0 0 0 0, bu 0 0 0 1], b.Good params .hrng) ∧ NoRepeat three ∧ NoForbidden three ∧ ReseedDone params 1 0 ∧
      (bu 0 0 0 0).words ≠ (bu 0 0 0 1).words ∧ Memory.wf s.mem = true ∧ u.script = s.script ∧
      s.script = burstDraws .hrng three ++ 1 :: 0 :: burstDraws .hrng [bu 0 0 0 0, bu 0 0 0 1] ++ [] :=
  ⟨{ live .hrng (burstDraws .hrng three ++ 1 :: 0 :: burstDraws .hrng [bu 0 0 0 0, bu 0 0 0 1]) with
      inst := { healthy .hrng with generateCallsSinceReseed := 2 } },
    { live .hrng (burstDraws .hrng three ++ 1 :: 0 :: burstDraws .hrng [bu 0 0 0 0, bu 0 0 0 1]) with
      inst := { healthy .hrng with generateCallsSinceReseed := 1, predResEn := true } },
    params_map, params_map, rfl, rfl, rfl, by decide, by decide, rfl, by decide, by decide, by unfold Burst.Good; decide, three_noRepeat,
    three_noForbidden, done_clear, by decide, by decide +kernel, rfl, by simp [live, fresh]⟩

/-- A call that succeeds without a self-heal, one that fails, a state that heals, and a self-heal that started and failed. -/
theorem witness_GenerateStatistics :
    (after (live .hrng (burstDraws .hrng [bu 0 0 0 0, bu 0 0 0 1])) 0x2003 0x2000).map (·.result) = some 0 ∧
      (after (live .hrng []) 0x1F03 0x2000).map (·.result) = some 1 ∧
      (healthy .hrng).seedLife.toNat ≤ { healthy .hrng with generateCallsSinceReseed := 2 }.generateCallsSinceReseed.toNat ∧
      (after { live .hrng [0, 0, 0] with
        inst := { healthy .hrng with generateCallsSinceReseed := 2, randBytesSinceReseed := 64 } } 0x2003 0x2000).map
        (fun t => (t.result, t.inst.generateCallsSinceReseed, t.inst.randBytesSinceReseed)) = some (8, 0, 0) := by
  decide +kernel

theorem witness_UninstantiateZeroesEverything : MapOk params.map ∧ (healthy .drng).state ≠ .uninitialized :=
  ⟨params_map, by decide⟩

/-- Bytes equal to the expected ones, and bytes that are not. -/
theorem witness_RunKatComparesTheOutput :
    ∃ s : State, MapOk s.params.map ∧ s.inst = Instance.zero ∧ 2 ≤ s.params.katMul.toNat ∧ s.params.katMul.toNat ≤ 9 ∧
      1 ≤ s.params.katLife.toNat ∧ s.params.katLife.toNat ≤ 2 ^ 48 ∧ ReseedDone params 1 0 ∧
      (∀ b ∈ [bu 0x00010203 0x04050607 0x08090A0B 0x0C0D0E0F, bu 0x10111213 0x14151617 0x18191A1B 0x1C1D1E1F], b.Good params .drng) ∧
      burstBytes [bu 0x00010203 0x04050607 0x08090A0B 0x0C0D0E0F, bu 0x10111213 0x14151617 0x18191A1B 0x1C1D1E1F] =
        s.params.katExpected.toList ∧
      burstBytes [bu 0 0 0 0, bu 0 0 0 1] ≠ s.params.katExpected.toList ∧
      s.script = 1 :: 0 :: burstDraws .drng [bu 0x00010203 0x04050607 0x08090A0B 0x0C0D0E0F,
        bu 0x10111213 0x14151617 0x18191A1B 0x1C1D1E1F] ++ [] :=
  ⟨fresh 1 (1 :: 0 :: burstDraws .drng [bu 0x00010203 0x04050607 0x08090A0B 0x0C0D0E0F,
      bu 0x10111213 0x14151617 0x18191A1B 0x1C1D1E1F]), params_map, rfl, by decide, by decide, by decide, by decide, done_clear,
    by unfold Burst.Good; decide, by decide +kernel, by decide +kernel, rfl⟩

/-- Eight bursts, no two alike. -/
def eight : List Burst := (List.range 8).map fun n => bu (BitVec.ofNat 32 n) 1 2 3

theorem witness_RunHealthTestPasses :
    ∃ s : State, MapOk s.params.map ∧ s.inst = Instance.zero ∧ 1 ≤ s.params.healthSeedLife.toNat ∧ s.params.healthSeedLife.toNat ≤ 2 ^ 48 ∧
      eight.length = 8 ∧ (∀ b ∈ eight, b.Good params .hrng) ∧ NoRepeat eight ∧ NoForbidden eight ∧ ReseedDone params 1 0 ∧
      s.script = burstDraws .hrng eight ++ 1 :: 0 :: [] :=
  ⟨fresh 1 (burstDraws .hrng eight ++ [1, 0]), params_map, rfl, by decide, by decide, by decide, by unfold Burst.Good; decide,
    ⟨by decide, by decide, by decide, by decide, by decide, by decide, by decide, trivial⟩,
    (checkSeedPattern_bursts eight).1 (by decide +kernel), done_clear, rfl⟩

theorem witness_ReinstantiateStartsAfresh :
    ∃ s : State, MapOk s.params.map ∧ s.inst.state ≠ .uninitialized ∧ (0x3000 : HostAddr) ≠ nullAddr ∧ hostSeedLife s.mem 0x3000 = 0 ∧
      mulLegal true 0 = true ∧ mulLegal false 2 = true :=
  ⟨live .hrng [], params_map, by decide, by decide, by decide +kernel, by decide, by decide⟩

/-! ## The derivation function under AES-256 (general knowledge, FIPS-197; 95_test_vectors.md 4) -/

def sboxTable : Nat := 2869618975290639062594974519597816386035077209210385677284518162336985023502962151465775969507961862820568736543004676439868535775640188584098917533413284844376797297285941524888791401501466624530423689326528054213168201056672989590893583853414110162539122864583953358348775951166211353578440977400428507475679327181038682772945817200201960445064847785221508011893952350688324234443749897213621340677040612747745615276448919507935121141307752692835344166708617454322778699219895865633266409040561742768581056182730443599545881830075941537620590442514083341749674612746994879540562701631131184186066652929592955206755
def sbox (b : Nat) : Nat := (sboxTable >>> (8 * b)) % 256
def xtime (b : Nat) : Nat := (2 * b % 256) ^^^ (b / 128 * 0x1B)
def mixColumn : List Nat → List Nat
  | [a, b, c, d] =>
    let t := a ^^^ b ^^^ c ^^^ d
    [a ^^^ t ^^^ xtime (a ^^^ b), b ^^^ t ^^^ xtime (b ^^^ c), c ^^^ t ^^^ xtime (c ^^^ d), d ^^^ t ^^^ xtime (d ^^^ a)]
  | x => x
def shiftSub : List Nat → List (List Nat)
  | [a0,a1,a2,a3,b0,b1,b2,b3,c0,c1,c2,c3,d0,d1,d2,d3] =>
    [[sbox a0, sbox b1, sbox c2, sbox d3], [sbox b0, sbox c1, sbox d2, sbox a3],
     [sbox c0, sbox d1, sbox a2, sbox b3], [sbox d0, sbox a1, sbox b2, sbox c3]]
  | _ => []
def rounds : List (List Nat) → List Nat → List Nat
  | [], s => s
  | [k], s => List.zipWith (· ^^^ ·) (shiftSub s).flatten k
  | k :: ks, s => rounds ks (List.zipWith (· ^^^ ·) ((shiftSub s).map mixColumn).flatten k)
def xor4 (a b : List Nat) : List Nat := List.zipWith (· ^^^ ·) a b
/-- The next eight words of the key schedule. -/
def nextWords (rc : Nat) : List (List Nat) → List (List Nat)
  | [w0,w1,w2,w3,w4,w5,w6,w7] =>
    let g := match w7 with | [a,b,c,d] => [sbox b ^^^ rc, sbox c, sbox d, sbox a] | x => x
    let v0 := xor4 w0 g; let v1 := xor4 w1 v0; let v2 := xor4 w2 v1; let v3 := xor4 w3 v2
    let v4 := xor4 w4 (v3.map sbox); let v5 := xor4 w5 v4; let v6 := xor4 w6 v5; let v7 := xor4 w7 v6
    [v0,v1,v2,v3,v4,v5,v6,v7]
  | x => x
def schedule : Nat → Nat → List (List Nat) → List (List Nat)
  | 0, _, w => w
  | n + 1, rc, w => w ++ schedule n (2 * rc) (nextWords rc w)
def group4 : List (List Nat) → List (List Nat)
  | a :: b :: c :: d :: r => (a ++ b ++ c ++ d) :: group4 r
  | _ => []
def chunk4 : List Nat → List (List Nat)
  | a :: b :: c :: d :: r => [a, b, c, d] :: chunk4 r
  | _ => []
def aes256 (key : CipherKey) (x : Block) : Block :=
  match (group4 (schedule 8 1 (chunk4 (key.toList.map BitVec.toNat)))).take 15 with
  | k0 :: ks => toBytes 16 ((rounds ks (List.zipWith (· ^^^ ·) (x.toList.map BitVec.toNat) k0)).map (BitVec.ofNat 8))
  | [] => x

/-- FIPS-197 Appendix C.3 (93_implementation_defined.md G6): the cipher the next test uses is AES-256. -/
theorem test_aes256 :
    (aes256 dfKey0 (toBytes 16 ((List.range 16).map fun i => BitVec.ofNat 8 (0x11 * i)))).toList =
    [0x8E, 0xA2, 0xB7, 0xCA, 0x51, 0x67, 0x45, 0xBF, 0xEA, 0xFC, 0x49, 0x90, 0x4B, 0x49, 0x60, 0x89] := by decide +kernel

/-- Section 4, V3: `DF_BCC(S, 1)` of 64 bytes of entropy with a personalization string, tag 48. -/
theorem test_dfBcc :
    (dfBcc aes256 (dfPack (bytesFrom 0x40 64) (some (toBytes 48 (bytesFrom 0xA0 48))) .seed) 1).toList =
    [0xD3, 0x51, 0x84, 0xC2, 0x23, 0x98, 0x2F, 0x0E, 0x32, 0x67, 0xC8, 0x95, 0xB1, 0xD2, 0x20, 0x78] := by decide +kernel

/-- Section 4, V3: `O2` of the printed `T`. -/
theorem test_dfOut :
    (dfOut aes256 (toBytes 48
      ([0x2C, 0x1C, 0xB4, 0x14, 0x45, 0x82, 0x6C, 0xAA, 0x96, 0xE7, 0x35, 0x7F, 0xB2, 0x0C, 0x89, 0xA3] ++
      [0xD3, 0x51, 0x84, 0xC2, 0x23, 0x98, 0x2F, 0x0E, 0x32, 0x67, 0xC8, 0x95, 0xB1, 0xD2, 0x20, 0x78] ++
      [0x45, 0xC5, 0x50, 0xB0, 0x15, 0x30, 0xCC, 0x43, 0x99, 0x79, 0xEB, 0x06, 0xB0, 0xFE, 0xC6, 0x01]))).toList.drop 32 =
    [0x3F, 0x0E, 0x72, 0x3B, 0xBA, 0x35, 0x7D, 0x9A, 0xEC, 0x84, 0x4C, 0x19, 0xE2, 0x53, 0x35, 0x31] := by decide +kernel

end Sys2Proof.Tests
end

section
/-! `EntropySize` (00_scope.md R13): its two equations and its values under a legal multiplier. -/

namespace Sys2Proof.Machine

@[simp] theorem entropySizeFor_dfDisabled (m : BitVec 4) : entropySizeFor true m = 48 := rfl

@[simp] theorem entropySizeFor_dfEnabled (m : BitVec 4) : entropySizeFor false m = (m.toNat + 1) * 16 := rfl

/-- R13's list of values is the range 48 to 160 in steps of 16. -/
theorem entropySizeFor_mem_values {dfdis : Bool} {m : BitVec 4} (h : mulLegal dfdis m = true) :
    entropySizeFor dfdis m ∈ [48, 64, 80, 96, 112, 128, 144, 160] := by
  obtain ⟨hmin, hmax, hmod⟩ := entropySizeFor_legal h
  simp only [List.mem_cons, List.not_mem_nil, or_false]
  omega

/-- Settles O40: the formula by the equations, the values by the bounds and the divisibility of `entropySizeFor_legal`. -/
theorem entropySizeValues : Obligations.EntropySizeValues := by
  refine ⟨fun m => ⟨entropySizeFor_dfDisabled m, entropySizeFor_dfEnabled m⟩, fun d m h => ?_⟩
  obtain ⟨-, hmax, hmod⟩ := entropySizeFor_legal h
  exact ⟨entropySizeFor_mem_values h, hmod, hmax⟩

end Sys2Proof.Machine
end

section
/-! What no operation writes: the parameters, `BASE` among them (10_state.md R30), and the host's command
list with its index (R24: `step` alone advances it). Each shared operation keeps them, so every arm of `exec` does. -/

namespace Sys2Proof.Machine

/-- The state's part that no operation writes. -/
structure HostFrame (s t : State) : Prop where
  params : t.params = s.params
  commands : t.commands = s.commands
  cmdIndex : t.cmdIndex = s.cmdIndex

theorem HostFrame.refl (s : State) : HostFrame s s := ⟨rfl, rfl, rfl⟩

theorem HostFrame.trans {s t u : State} (h : HostFrame s t) (k : HostFrame t u) : HostFrame s u :=
  ⟨k.params.trans h.params, k.commands.trans h.commands, k.cmdIndex.trans h.cmdIndex⟩

theorem PortFrame.host {s t : State} (h : PortFrame s t) : HostFrame s t := ⟨h.params, h.commands, h.cmdIndex⟩

theorem CollectKeep.host {dst : Dst} {n : Nat} {s : State} {c : Collected} (h : CollectKeep dst n s c) :
    HostFrame s c.state := ⟨h.params, h.commands, h.cmdIndex⟩

theorem ReseedOutcome.host {m : BitVec 4} {s : State} {r : Option Status × State} (h : ReseedOutcome m s r) :
    HostFrame s r.2 := ⟨h.params, h.commands, h.cmdIndex⟩

/-! ## Writes of `I`, of `RESULT` and of the model's own fields -/

theorem hostFrame_beginCommand (s : State) : HostFrame s s.beginCommand := ⟨rfl, rfl, rfl⟩

theorem hostFrame_logEvent (e : Event) (s : State) : HostFrame s (s.logEvent e) := ⟨rfl, rfl, rfl⟩

theorem hostFrame_returning (r : Ret) (s : State) : HostFrame s (s.returning r) := ⟨rfl, rfl, rfl⟩

theorem hostFrame_raise (e : Status) (s : State) : HostFrame s (s.raise e).2 := ⟨rfl, rfl, rfl⟩

theorem hostFrame_succeed (s : State) : HostFrame s s.succeed.2 := ⟨rfl, rfl, rfl⟩

theorem hostFrame_refuseMalformed (s : State) : HostFrame s s.refuseMalformed := ⟨rfl, rfl, rfl⟩

theorem hostFrame_becomeHealthy (s : State) : HostFrame s (s.setRunState .healthy).succeed.2 := ⟨rfl, rfl, rfl⟩

theorem hostFrame_zeroInstance (s : State) : HostFrame s s.zeroInstance.succeed.2 := ⟨rfl, rfl, rfl⟩

theorem hostFrame_countGenerate (s : State) : HostFrame s (countGenerate s).succeed.2 := ⟨rfl, rfl, rfl⟩

theorem hostFrame_putBytes (dst : Dst) (off : Nat) (b : List Byte) (s : State) : HostFrame s (putBytes dst off b s) := by
  rw [putBytes_eq]; exact ⟨rfl, rfl, rfl⟩

/-! ## The two resets (44_port_sequences.md R291, R292) -/

theorem hwReset_frame (s : State) : PortFrame s (hwReset s) :=
  have hsleep : ∀ u : State, PortFrame u (sleepUs s.params.tResetUs u) := fun _ => ⟨rfl, rfl, rfl, rfl, rfl, rfl, rfl⟩
  ((write32_frame .reset _ s).1.trans (hsleep _)).trans (write32_frame .reset 0 _).1

theorem hwHoldReset_frame (s : State) : PortFrame s (hwHoldReset s) := (write32_frame .reset _ s).1

/-! ## The core operations and the self-tests -/

theorem hostFrame_programCollect (sel : HwSel) (dst : Dst) (n : Nat) (s : State) :
    HostFrame s (collectBurst dst n (hwProgram sel s)).state :=
  (keep_hwProgram sel s).host.trans (collectBurst_keep dst n _).host

theorem hostFrame_reseedCore (seed : Option (List Byte)) (m : BitVec 4) (s : State) :
    HostFrame s (reseedCore seed m s).2 := (reseedCore_outcome seed m s).host

theorem hostFrame_orRaise {s : State} {r : Option Status × State} {go : State → Status × State} (h : HostFrame s r.2)
    (hgo : ∀ t, HostFrame t (go t).2) : HostFrame s (orRaise r go).2 := by
  unfold orRaise
  split
  · exact h.trans (hostFrame_raise _ _)
  · exact h.trans (hgo _)

theorem hostFrame_finishInstantiate (s : State) : HostFrame s (finishInstantiate s).2 := by
  unfold finishInstantiate
  split
  case h_1 => exact hostFrame_becomeHealthy s
  all_goals exact hostFrame_orRaise (hostFrame_reseedCore _ _ s) hostFrame_becomeHealthy

theorem hostFrame_opInstantiate (c : InstConfig) (s : State) : HostFrame s (opInstantiate c s).2 := by
  have hlife : HostFrame s ((clearStatistics s).logEvents c.readsLife) := ⟨rfl, rfl, rfl⟩
  have hstored : HostFrame s (storeConfig c (((clearStatistics s).logEvents c.readsLife).logEvents c.readsStored)) :=
    ⟨rfl, rfl, rfl⟩
  unfold opInstantiate
  split
  · exact hostFrame_raise _ s
  · simp only
    split
    · exact hlife.trans (hostFrame_raise _ _)
    · exact (hstored.trans (hwReset_frame _).host).trans (hostFrame_finishInstantiate _)

theorem hostFrame_reseedWithSeed (mul : BitVec 4) (a0 : HostAddr) (s : State) :
    HostFrame s (reseedWithSeed mul a0 s).2 := by
  have hread := hostFrame_logEvent (seedRead s.mem a0 (entropySizeFor s.inst.dfDisabled mul)) s
  unfold reseedWithSeed
  simp only
  split
  · exact hread.trans (hostFrame_raise _ _)
  · exact hostFrame_orRaise (hread.trans (hostFrame_reseedCore _ _ _)) hostFrame_succeed

theorem hostFrame_opReseed (mul : BitVec 4) (seedp : Bool) (a0 : HostAddr) (s : State) :
    HostFrame s (opReseed mul seedp a0 s).2 := by
  unfold opReseed
  split
  · exact hostFrame_raise _ s
  · split
    · exact hostFrame_raise _ s
    · split
      case h_1 => exact hostFrame_reseedWithSeed mul a0 s
      all_goals exact hostFrame_orRaise (hostFrame_reseedCore _ _ s) hostFrame_succeed

theorem hostFrame_generatePolicy (pr : Bool) (s : State) : HostFrame s (generatePolicy pr s).2 := by
  unfold generatePolicy
  split
  · split
    · exact hostFrame_reseedCore _ _ s
    · exact .refl s
  · split_ifs <;> exact .refl s
  · exact .refl s

theorem hostFrame_generateOutput (dst : Dst) (s : State) : HostFrame s (generateOutput dst s).state := by
  have hcollect := hostFrame_programCollect .entropy .scratch s.inst.entropySize.toNat s
  unfold generateOutput
  split
  · split
    · exact hostFrame_programCollect .entropy dst 32 s
    · simp only
      split
      · exact hcollect
      · exact hcollect.trans (hostFrame_putBytes _ _ _ _)
  all_goals exact hostFrame_programCollect .prngGen dst 32 s

theorem hostFrame_opGenerate (dst : Dst) (size : Nat) (pr : Bool) (s : State) :
    HostFrame s (opGenerate dst size pr s).state := by
  have hpolicy := hostFrame_generatePolicy pr s
  have houtput := hpolicy.trans (hostFrame_generateOutput dst _)
  unfold opGenerate
  split
  · exact hostFrame_raise _ s
  · split
    · exact hostFrame_raise _ s
    · simp only
      split
      · exact hpolicy.trans (hostFrame_raise _ _)
      · split
        · exact houtput.trans (hostFrame_raise _ _)
        · exact houtput.trans (hostFrame_countGenerate _)

theorem hostFrame_opUninstantiate (s : State) : HostFrame s (opUninstantiate s).2 := by
  unfold opUninstantiate
  split
  · exact hostFrame_raise _ s
  · exact ((zeroizeSeedRegs_frame s).trans (hwHoldReset_frame _)).host.trans (hostFrame_zeroInstance _)

theorem hostFrame_opRunKat (s : State) : HostFrame s (opRunKat s).2 := by
  have hinst := hostFrame_opInstantiate (katConfig s.params) s
  have hgen := hinst.trans (hostFrame_opGenerate .scratch 32 false _)
  unfold opRunKat
  simp only
  split_ifs
  · exact hinst
  · exact hgen
  · exact hgen.trans (hostFrame_raise _ _)
  · exact hgen.trans (hostFrame_opUninstantiate _)

theorem hostFrame_opRunHealthTest (s : State) : HostFrame s (opRunHealthTest s).2 := by
  have hinst := hostFrame_opInstantiate (healthConfig s.params) s
  unfold opRunHealthTest
  simp only
  split_ifs
  · exact hinst
  · exact hinst.trans (hostFrame_opUninstantiate _)

/-! ## Every arm of the dispatch -/

/-- An outcome whose next state, if it has one, keeps what no operation writes. -/
def KeepsHost (s : State) (o : Host.Outcome State Fault Refusal) : Prop := ∀ t, o = .next t → HostFrame s t

/-- An operation's next state comes after the command's begin. -/
theorem KeepsHost.next {s t : State} (h : HostFrame s.beginCommand t) : KeepsHost s (.next t) := by
  rintro _ ⟨⟩
  exact (hostFrame_beginCommand s).trans h

theorem KeepsHost.refused (s : State) (r : Refusal) : KeepsHost s (.refused r) := by
  rintro _ ⟨⟩

theorem KeepsHost.ite {s : State} {o o' : Host.Outcome State Fault Refusal} {p : Prop} [Decidable p]
    (h : KeepsHost s o) (h' : KeepsHost s o') : KeepsHost s (if p then o else o') := by
  split
  · exact h
  · exact h'

/-- A command with a malformed form (30_encoding.md R122). -/
theorem KeepsHost.command {s t u : State} {p : Prop} [Decidable p] (h : HostFrame s.beginCommand u)
    (k : HostFrame s.beginCommand t) : KeepsHost s (if p then .next u.refuseMalformed else .next t) :=
  .ite (.next (h.trans (hostFrame_refuseMalformed _))) (.next k)

/-- An internal operation that only returns a value, on the operands of its domain (entries 6, 7). -/
theorem KeepsHost.value {s : State} {p : Prop} [Decidable p] {v : Ret} {r : Refusal} :
    KeepsHost s (if p then .next (s.beginCommand.returning v) else .refused r) :=
  .ite (.next (hostFrame_returning v _)) (.refused s r)

theorem execReinstantiate_keepsHost (mode : BitVec 2) (pr dfdis : Bool) (mul : BitVec 4) (seedp persp : Bool)
    (a0 : HostAddr) (s : State) : KeepsHost s (execReinstantiate mode pr dfdis mul seedp persp a0 s) :=
  have hun := hostFrame_opUninstantiate s.beginCommand
  .command hun (hun.trans (hostFrame_opInstantiate _ _))

theorem execReseedCore_keepsHost (seed : Option (List Byte)) (m : BitVec 4) (s : State) :
    KeepsHost s (execReseedCore seed m s) :=
  .ite (.next ((hostFrame_reseedCore seed m _).trans (hostFrame_returning _ _))) (.refused s _)

theorem execPollField_keepsHost (off mask expect : Word) (timeoutUs : Nat) (s : State) :
    KeepsHost s (execPollField off mask expect timeoutUs s) := by
  unfold execPollField
  split
  · exact .refused s _
  · exact .next ((pollField_frame _ mask expect timeoutUs _).host.trans (hostFrame_returning _ _))

/-- No operation writes the parameters, the host's commands or their index. -/
theorem exec_keepsHost (i : Instr) (s : State) : KeepsHost s (exec i s) := by
  cases i with
  | instantiate mode pr dfdis mul seedp persp a0 => exact .command (.refl _) (hostFrame_opInstantiate _ _)
  | reseed mul seedp a0 => exact .command (.refl _) (hostFrame_opReseed mul seedp a0 _)
  | generate pr size a0 => exact .command (.refl _) (hostFrame_opGenerate (.host a0) size.toNat pr _)
  | uninstantiate => exact .next (hostFrame_opUninstantiate _)
  | runKat => exact .next (hostFrame_opRunKat _)
  | runHealthTest => exact .next (hostFrame_opRunHealthTest _)
  | reseedCore seed m => exact execReseedCore_keepsHost seed m s
  | collectBurst dst n => exact .next ((collectBurst_keep dst n _).host.trans (hostFrame_returning _ _))
  | checkSeedPattern buf n => exact .value
  | df ent pers tag => exact .value
  | dfPack ent pers tag => exact .value
  | dfBcc packed i => exact .value
  | dfOut t => exact .next (hostFrame_returning _ _)
  | cbcMac key chain0 msg => exact .value
  | hwReset => exact .next (hwReset_frame _).host
  | hwHoldReset => exact .next (hwHoldReset_frame _).host
  | hwProgram sel => exact .next (keep_hwProgram sel _).host
  | writeGroup g b => exact .next (writeGroup_frame g b _).host
  | zeroizeSeedRegs => exact .next (zeroizeSeedRegs_frame _).host
  | pollField off mask expect timeoutUs => exact execPollField_keepsHost off mask expect timeoutUs s
  | reinstantiate mode pr dfdis mul seedp persp a0 =>
    exact execReinstantiate_keepsHost mode pr dfdis mul seedp persp a0 s
  | reserved cw a0 => exact .next (hostFrame_refuseMalformed _)

/-- Settles O7: `BASE` is one of the parameters, and no operation writes any of them. -/
theorem baseIsNeverWritten : Obligations.BaseIsNeverWritten := fun i s t h =>
  congrArg Params.base (exec_keepsHost i s t h).params

end Sys2Proof.Machine
end

section
/-! `Sleep` (20_memory.md R83): an event that separates two port accesses. -/

namespace Sys2Proof.Machine

/-- Settles O20: a sleep only logs an event, and logging an event updates no field but the log. -/
theorem sleepChangesNothing : Obligations.SleepChangesNothing := fun us s =>
  calc sleepUs us s
    _ = s.logEvent (.sleep us) := rfl
    _ = { s with log := .sleep us :: s.log } := rfl

end Sys2Proof.Machine
end

section
/-! `DF_Out` (42_derivation_function.md R236): pass 2 of the Derivation Function on a key and a first block. -/

namespace Sys2Proof.Machine

/-- `toBytes n` of a list that begins with the `n` bytes of `v` is `v`. -/
@[simp] theorem toBytes_toList_append {n : Nat} (v : Vector Byte n) (rest : List Byte) :
    toBytes n (v.toList ++ rest) = v := by
  ext i hi
  have hv : i < v.toList.length := by simpa using hi
  simp [toBytes, List.getElem?_append_left hv, hi]

@[simp] theorem toBytes_toList {n : Nat} (v : Vector Byte n) : toBytes n v.toList = v := by
  simpa using toBytes_toList_append v []

/-- R236 for any block cipher: no counter and no exclusive-or, each output block encrypts the one before. -/
theorem dfOut_toList (bc : CipherKey → Block → Block) {key : CipherKey} {x : Block} {t : Vector Byte 48}
    (h : t.toList = key.toList ++ x.toList) :
    (dfOut bc t).toList =
      (bc key x).toList ++ (bc key (bc key x)).toList ++ (bc key (bc key (bc key x))).toList := by
  have hkey : toBytes 32 t.toList = key := by rw [h, toBytes_toList_append]
  have hblock : toBytes 16 (t.toList.drop 32) = x := by
    rw [h, List.drop_left' key.length_toList, toBytes_toList]
  simp only [dfOut, hkey, hblock, Vector.toList_append]

/-- The whole next state of `DF_Out` run on its own. -/
theorem exec_dfOut (t : Vector Byte 48) (s : State) :
    exec (.dfOut t) s = .next { s with log := [], ret := .bytes (dfOut Config.blockCipher t).toList } := rfl

/-- Settles O37: `T` splits into the key and the first block, and `DF_Out` encrypts each output block into the next. -/
theorem dfOutIsAChain : Obligations.DfOutIsAChain := fun key x t s h => by
  rw [exec_dfOut, dfOut_toList Config.blockCipher h]

end Sys2Proof.Machine
end

section
/-! The command words (30_encoding.md): what the decoder can answer, said once, and the round trips of R121. -/

namespace Sys2Proof.Machine

/-! ## Must-be-zero fields (R112, R113) -/

/-- The mask of `len` bits from bit `start` on. -/
def fieldMask (start len : Nat) : Word := (BitVec.allOnes len).setWidth 32 <<< start

/-- Masking keeps the bits of the field. -/
theorem getLsbD_and_fieldMask (v : Word) {start len : Nat} (h : start + len ≤ 32) (i : Nat) :
    (v &&& fieldMask start len).getLsbD i = (v.getLsbD i && (decide (start ≤ i) && decide (i < start + len))) := by
  simp only [fieldMask, BitVec.getLsbD_and, BitVec.getLsbD_shiftLeft, BitVec.getLsbD_setWidth, BitVec.getLsbD_allOnes]
  congr 1
  rw [Bool.eq_iff_iff]
  simp only [Bool.and_eq_true, Bool.not_eq_true', decide_eq_true_eq, decide_eq_false_iff_not]
  omega

/-- The masked word is zero exactly when the field is. -/
theorem and_fieldMask_eq_zero (v : Word) {start len : Nat} (h : start + len ≤ 32) :
    v &&& fieldMask start len = 0#32 ↔ v.extractLsb' start len = 0#len := by
  simp only [BitVec.eq_of_getLsbD_eq_iff, getLsbD_and_fieldMask v h, BitVec.getLsbD_extractLsb', BitVec.getLsbD_zero]
  constructor
  · intro hz i hi
    simpa [hi] using hz (start + i) (by omega)
  · intro hz i _
    by_cases hi : start ≤ i ∧ i < start + len
    · simpa [hi, show start + (i - start) = i by omega, show i - start < len by omega] using hz (i - start) (by omega)
    · rw [← Bool.decide_and, decide_eq_false hi, Bool.and_false]

/-- The must-be-zero bits of the four formats, field by field. -/
theorem mustBeZero_fields (v : Word) :
    (v &&& 0xFFFFC000 = 0 ↔ v.extractLsb' 14 18 = 0) ∧
      (v &&& 0xFFFFE0F0 = 0 ↔ v.extractLsb' 4 4 = 0 ∧ v.extractLsb' 13 19 = 0) ∧
      (v &&& 0x000000E0 = 0 ↔ v.extractLsb' 5 3 = 0) ∧ (v &&& 0xFFFFFFF0 = 0 ↔ v.extractLsb' 4 28 = 0) := by
  have hI : (0xFFFFC000 : Word) = fieldMask 14 18 := by decide
  have hR : (0xFFFFE0F0 : Word) = fieldMask 4 4 ||| fieldMask 13 19 := by decide
  have hG : (0x000000E0 : Word) = fieldMask 5 3 := by decide
  have hU : (0xFFFFFFF0 : Word) = fieldMask 4 28 := by decide
  rw [hI, hR, hG, hU, BitVec.and_or_distrib_left]
  exact ⟨and_fieldMask_eq_zero v (by omega),
    BitVec.or_eq_zero_iff.trans (and_congr (and_fieldMask_eq_zero v (by omega)) (and_fieldMask_eq_zero v (by omega))),
    and_fieldMask_eq_zero v (by omega), and_fieldMask_eq_zero v (by omega)⟩

/-! ## The decoder -/

/-- A word is refused unless it clears the must-be-zero bits of its opcode's format (R122). -/
theorem wordReject_eq_none_iff {v : Word} : wordReject v = none ↔ ∃ z, mustBeZero v = some z ∧ v &&& z = 0 := by
  unfold wordReject
  cases mustBeZero v <;> simp

theorem isReservedWord_eq_false_iff {v : Word} :
    isReservedWord v = false ↔ ∃ z, mustBeZero v = some z ∧ v &&& z = 0 := by
  rw [← wordReject_eq_none_iff, ← Bool.not_eq_true, isReservedWord_iff, not_not]

/-- What the decoder can answer: the reserved row, or one of the six commands with the word's opcode, its must-be-zero
fields and its operand fields (R112, R113, R121). -/
inductive DecodedAs (c : Command) : Instr → Prop
  | reserved (h : isReservedWord c.cw = true) : DecodedAs c (.reserved c.cw c.a0)
  | instantiate (hopc : c.cw.extractLsb' 0 4 = 1) (hz : c.cw.extractLsb' 14 18 = 0) :
      DecodedAs c (.instantiate (c.cw.extractLsb' 4 2) (c.cw.getLsbD 6) (c.cw.getLsbD 7) (c.cw.extractLsb' 8 4)
        (c.cw.getLsbD 12) (c.cw.getLsbD 13) c.a0)
  | reseed (hopc : c.cw.extractLsb' 0 4 = 2) (hz : c.cw.extractLsb' 4 4 = 0) (hz' : c.cw.extractLsb' 13 19 = 0) :
      DecodedAs c (.reseed (c.cw.extractLsb' 8 4) (c.cw.getLsbD 12) c.a0)
  | generate (hopc : c.cw.extractLsb' 0 4 = 3) (hz : c.cw.extractLsb' 5 3 = 0) :
      DecodedAs c (.generate (c.cw.getLsbD 4) (c.cw.extractLsb' 8 24) c.a0)
  | uninstantiate (hopc : c.cw.extractLsb' 0 4 = 4) (hz : c.cw.extractLsb' 4 28 = 0) : DecodedAs c .uninstantiate
  | runKat (hopc : c.cw.extractLsb' 0 4 = 5) (hz : c.cw.extractLsb' 4 28 = 0) : DecodedAs c .runKat
  | runHealthTest (hopc : c.cw.extractLsb' 0 4 = 6) (hz : c.cw.extractLsb' 4 28 = 0) : DecodedAs c .runHealthTest

theorem decode_of_reserved {c : Command} (h : isReservedWord c.cw = true) : decode c = .reserved c.cw c.a0 := by
  obtain ⟨r, hr⟩ := Option.ne_none_iff_exists'.1 ((isReservedWord_iff _).1 h)
  unfold decode
  rw [hr]

theorem wordReject_of_not_reserved {v : Word} (h : isReservedWord v = false) : wordReject v = none :=
  wordReject_eq_none_iff.2 (isReservedWord_eq_false_iff.1 h)

theorem decode_formatI {c : Command} (h : isReservedWord c.cw = false) (hopc : c.cw.extractLsb' 0 4 = 1) :
    decode c = .instantiate (c.cw.extractLsb' 4 2) (c.cw.getLsbD 6) (c.cw.getLsbD 7) (c.cw.extractLsb' 8 4)
      (c.cw.getLsbD 12) (c.cw.getLsbD 13) c.a0 := by
  unfold decode
  rw [wordReject_of_not_reserved h, hopc]
  rfl

theorem decode_formatR {c : Command} (h : isReservedWord c.cw = false) (hopc : c.cw.extractLsb' 0 4 = 2) :
    decode c = .reseed (c.cw.extractLsb' 8 4) (c.cw.getLsbD 12) c.a0 := by
  unfold decode
  rw [wordReject_of_not_reserved h, hopc]
  rfl

theorem decode_formatG {c : Command} (h : isReservedWord c.cw = false) (hopc : c.cw.extractLsb' 0 4 = 3) :
    decode c = .generate (c.cw.getLsbD 4) (c.cw.extractLsb' 8 24) c.a0 := by
  unfold decode
  rw [wordReject_of_not_reserved h, hopc]
  rfl

/-- Format U is told from its opcode alone. -/
theorem decode_formatU {c : Command} (h : isReservedWord c.cw = false) :
    (c.cw.extractLsb' 0 4 = 4 → decode c = .uninstantiate) ∧ (c.cw.extractLsb' 0 4 = 5 → decode c = .runKat) ∧
      (c.cw.extractLsb' 0 4 = 6 → decode c = .runHealthTest) := by
  unfold decode
  rw [wordReject_of_not_reserved h]
  refine ⟨fun hopc => ?_, fun hopc => ?_, fun hopc => ?_⟩ <;> rw [hopc] <;> rfl

/-- The words that are not reserved: an opcode of 1 to 6 and the cleared fields of its format (R111 to R113). -/
theorem not_reserved_iff_fields {v : Word} :
    isReservedWord v = false ↔
      (v.extractLsb' 0 4 = 1 ∧ v.extractLsb' 14 18 = 0) ∨
      (v.extractLsb' 0 4 = 2 ∧ v.extractLsb' 4 4 = 0 ∧ v.extractLsb' 13 19 = 0) ∨
      (v.extractLsb' 0 4 = 3 ∧ v.extractLsb' 5 3 = 0) ∨
      ((v.extractLsb' 0 4 = 4 ∨ v.extractLsb' 0 4 = 5 ∨ v.extractLsb' 0 4 = 6) ∧ v.extractLsb' 4 28 = 0) := by
  obtain ⟨hI, hR, hG, hU⟩ := mustBeZero_fields v
  rw [isReservedWord_eq_false_iff]
  constructor
  · rintro ⟨z, hz, hv⟩
    have hopc (k : Nat) (hk : (v.extractLsb' 0 4).toNat = k) : v.extractLsb' 0 4 = BitVec.ofNat 4 k :=
      BitVec.eq_of_toNat_eq (by rw [BitVec.toNat_ofNat, ← hk]; omega)
    unfold mustBeZero at hz
    split at hz <;> cases hz
    case h_1 h1 => exact .inl ⟨hopc 1 h1, hI.1 hv⟩
    case h_2 h2 => exact .inr (.inl ⟨hopc 2 h2, hR.1 hv⟩)
    case h_3 h3 => exact .inr (.inr (.inl ⟨hopc 3 h3, hG.1 hv⟩))
    case h_4 h4 => exact .inr (.inr (.inr ⟨.inl (hopc 4 h4), hU.1 hv⟩))
    case h_5 h5 => exact .inr (.inr (.inr ⟨.inr (.inl (hopc 5 h5)), hU.1 hv⟩))
    case h_6 h6 => exact .inr (.inr (.inr ⟨.inr (.inr (hopc 6 h6)), hU.1 hv⟩))
  · unfold mustBeZero
    rintro (⟨ho, hz⟩ | ⟨ho, hz⟩ | ⟨ho, hz⟩ | ⟨ho | ho | ho, hz⟩) <;> rw [ho]
    exacts [⟨_, rfl, hI.2 hz⟩, ⟨_, rfl, hR.2 hz⟩, ⟨_, rfl, hG.2 hz⟩, ⟨_, rfl, hU.2 hz⟩, ⟨_, rfl, hU.2 hz⟩,
      ⟨_, rfl, hU.2 hz⟩]

theorem decode_decodedAs (c : Command) : DecodedAs c (decode c) := by
  cases h : isReservedWord c.cw
  · obtain ⟨hun, hkat, hhealth⟩ := decode_formatU h
    obtain ⟨ho, hz⟩ | ⟨ho, hz, hz'⟩ | ⟨ho, hz⟩ | ⟨ho | ho | ho, hz⟩ := not_reserved_iff_fields.1 h
    · rw [decode_formatI h ho]; exact .instantiate ho hz
    · rw [decode_formatR h ho]; exact .reseed ho hz hz'
    · rw [decode_formatG h ho]; exact .generate ho hz
    · rw [hun ho]; exact .uninstantiate ho hz
    · rw [hkat ho]; exact .runKat ho hz
    · rw [hhealth ho]; exact .runHealthTest ho hz
  · rw [decode_of_reserved h]; exact .reserved h

/-- Exactly the reserved words decode to the reserved row. -/
theorem decode_eq_reserved_iff {c : Command} : decode c = .reserved c.cw c.a0 ↔ isReservedWord c.cw = true := by
  refine ⟨fun h => ?_, decode_of_reserved⟩
  have hd := decode_decodedAs c
  rw [h] at hd
  cases hd
  assumption

/-- Settles O3: the list is the complement of the words with an opcode of 1 to 6 and cleared fields, opcode by opcode. -/
theorem reservedWordsAreRefused : Obligations.ReservedWordsAreRefused := by
  intro cw a0
  rw [decode_eq_reserved_iff (c := ⟨cw, a0⟩), ← Bool.not_eq_false, not_reserved_iff_fields]
  have hlt := (cw.extractLsb' 0 4).isLt
  simp only [← BitVec.toNat_inj (x := cw.extractLsb' 0 4)]
  generalize (cw.extractLsb' 0 4).toNat = opc at hlt
  interval_cases opc <;> simp [imp_iff_not_or]

/-- Settles O4: by running the decoder on each word. -/
theorem sampleWordsDecode : Obligations.SampleWordsDecode := by
  unfold Obligations.SampleWordsDecode
  decide

/-! ## Encoding and decoding -/

theorem decode_encodeInstantiate (mode : BitVec 2) (pr dfdis : Bool) (mul : BitVec 4) (seedp persp : Bool)
    (a0 : HostAddr) :
    decode ⟨encodeInstantiate mode pr dfdis mul seedp persp, a0⟩ = .instantiate mode pr dfdis mul seedp persp a0 := by
  obtain ⟨ho, hmode, hpr, hdf, hmul, hseed, hpers, hz⟩ := encodeInstantiate_fields mode pr dfdis mul seedp persp
  have hr : isReservedWord (encodeInstantiate mode pr dfdis mul seedp persp) = false :=
    not_reserved_iff_fields.2 (.inl ⟨ho, (mustBeZero_fields _).1.1 hz⟩)
  refine (decode_formatI (c := ⟨encodeInstantiate mode pr dfdis mul seedp persp, a0⟩) hr ho).trans ?_
  simp only [hmode, hpr, hdf, hmul, hseed, hpers]

theorem decode_encodeReseed (mul : BitVec 4) (seedp : Bool) (a0 : HostAddr) :
    decode ⟨encodeReseed mul seedp, a0⟩ = .reseed mul seedp a0 := by
  obtain ⟨ho, hmul, hseed, hz⟩ := encodeReseed_fields mul seedp
  have hr : isReservedWord (encodeReseed mul seedp) = false :=
    not_reserved_iff_fields.2 (.inr (.inl ⟨ho, (mustBeZero_fields _).2.1.1 hz⟩))
  refine (decode_formatR (c := ⟨encodeReseed mul seedp, a0⟩) hr ho).trans ?_
  simp only [hmul, hseed]

theorem decode_encodeGenerate (pr : Bool) (size : BitVec 24) (a0 : HostAddr) :
    decode ⟨encodeGenerate pr size, a0⟩ = .generate pr size a0 := by
  obtain ⟨ho, hsize, hpr, hz⟩ := encodeGenerate_fields pr size
  have hr : isReservedWord (encodeGenerate pr size) = false :=
    not_reserved_iff_fields.2 (.inr (.inr (.inl ⟨ho, (mustBeZero_fields _).2.2.1.1 hz⟩)))
  refine (decode_formatG (c := ⟨encodeGenerate pr size, a0⟩) hr ho).trans ?_
  simp only [hsize, hpr]

/-- Settles O1: each format's encoder is undone by the decoder; a well-formed reserved row holds a reserved word. -/
theorem decodeEncodeAgree : Obligations.DecodeEncodeAgree := by
  intro i c hwf henc
  cases i <;> cases henc
  case instantiate => exact decode_encodeInstantiate ..
  case reseed => exact decode_encodeReseed ..
  case generate => exact decode_encodeGenerate ..
  case uninstantiate => decide
  case runKat => decide
  case runHealthTest => decide
  case reserved => exact decode_of_reserved hwf

/-- Neighbouring fields of a word, together. -/
theorem extractLsb'_append (v : Word) (start len len' : Nat) :
    v.extractLsb' (start + len) len' ++ v.extractLsb' start len = v.extractLsb' start (len' + len) := by
  apply BitVec.eq_of_getLsbD_eq
  intro i hi
  simp only [BitVec.getLsbD_append, BitVec.getLsbD_extractLsb', hi, decide_true, Bool.true_and]
  by_cases h : i < len
  · simp [h]
  · simp [h, show i - len < len' by omega, show start + len + (i - len) = start + i by omega]

theorem ofBool_getLsbD (v : Word) (i : Nat) : BitVec.ofBool (v.getLsbD i) = v.extractLsb' i 1 := by
  apply BitVec.eq_of_getLsbD_eq
  intro k hk
  obtain rfl : k = 0 := by omega
  simp

/-- A word is put together again from its fields, format by format. -/
theorem encodeInstantiate_of_fields {v : Word} (hopc : v.extractLsb' 0 4 = 1) (hz : v.extractLsb' 14 18 = 0) :
    encodeInstantiate (v.extractLsb' 4 2) (v.getLsbD 6) (v.getLsbD 7) (v.extractLsb' 8 4) (v.getLsbD 12)
      (v.getLsbD 13) = v := by
  simp only [encodeInstantiate, ← hopc, ← hz, ofBool_getLsbD]
  rw [extractLsb'_append v 13 1 18, extractLsb'_append v 12 1 19, extractLsb'_append v 8 4 20,
    extractLsb'_append v 7 1 24, extractLsb'_append v 6 1 25, extractLsb'_append v 4 2 26, extractLsb'_append v 0 4 28]
  exact BitVec.extractLsb'_eq_self

theorem encodeReseed_of_fields {v : Word} (hopc : v.extractLsb' 0 4 = 2) (hz : v.extractLsb' 4 4 = 0)
    (hz' : v.extractLsb' 13 19 = 0) : encodeReseed (v.extractLsb' 8 4) (v.getLsbD 12) = v := by
  simp only [encodeReseed, ← hopc, ← hz, ← hz', ofBool_getLsbD]
  rw [extractLsb'_append v 12 1 19, extractLsb'_append v 8 4 20, extractLsb'_append v 4 4 24,
    extractLsb'_append v 0 4 28]
  exact BitVec.extractLsb'_eq_self

theorem encodeGenerate_of_fields {v : Word} (hopc : v.extractLsb' 0 4 = 3) (hz : v.extractLsb' 5 3 = 0) :
    encodeGenerate (v.getLsbD 4) (v.extractLsb' 8 24) = v := by
  simp only [encodeGenerate, ← hopc, ← hz, ofBool_getLsbD]
  rw [extractLsb'_append v 5 3 24, extractLsb'_append v 4 1 27, extractLsb'_append v 0 4 28]
  exact BitVec.extractLsb'_eq_self

/-- A format U word is its opcode. -/
theorem eq_opcode_of_fields {v : Word} {opc : BitVec 4} (hopc : v.extractLsb' 0 4 = opc) (hz : v.extractLsb' 4 28 = 0) :
    v = (0 : BitVec 28) ++ opc := by
  rw [← hopc, ← hz, extractLsb'_append v 0 4 28]
  exact BitVec.extractLsb'_eq_self.symm

/-- Settles O2: the decoded operation carries every field of the word that its format does not fix. -/
theorem encodeDecodeAgree : Obligations.EncodeDecodeAgree := by
  intro c
  have h := decode_decodedAs c
  generalize decode c = i at h
  cases h with
  | reserved => exact ⟨c, rfl, rfl, .inl rfl⟩
  | instantiate hopc hz => exact ⟨_, rfl, encodeInstantiate_of_fields hopc hz, .inl rfl⟩
  | reseed hopc hz hz' => exact ⟨_, rfl, encodeReseed_of_fields hopc hz hz', .inl rfl⟩
  | generate hopc hz => exact ⟨_, rfl, encodeGenerate_of_fields hopc hz, .inl rfl⟩
  | uninstantiate hopc hz =>
    have hw : c.cw = 4 := eq_opcode_of_fields hopc hz
    exact ⟨_, rfl, hw.symm, .inr ⟨rfl, .inl hw⟩⟩
  | runKat hopc hz =>
    have hw : c.cw = 5 := eq_opcode_of_fields hopc hz
    exact ⟨_, rfl, hw.symm, .inr ⟨rfl, .inr (.inl hw)⟩⟩
  | runHealthTest hopc hz =>
    have hw : c.cw = 6 := eq_opcode_of_fields hopc hz
    exact ⟨_, rfl, hw.symm, .inr ⟨rfl, .inr (.inr hw)⟩⟩

end Sys2Proof.Machine
end

section
/-! A command as the host sees it: the malformed forms (30_encoding.md R122), the state guard (40_core_operations.md
R151), the step that runs it (10_state.md R24), and the two failure states no command but `UNINSTANTIATE` leaves
(60_exceptions.md R333). -/

namespace Sys2Proof.Machine

/-! ## The six commands -/

/-- A command of the host with the address its format requires (R112, R113). -/
inductive HostCommand : Instr → Prop
  | instantiate (mode : BitVec 2) (pr dfdis : Bool) (mul : BitVec 4) (seedp persp : Bool) {a0 : HostAddr}
      (ha : a0 ≠ nullAddr) : HostCommand (.instantiate mode pr dfdis mul seedp persp a0)
  | reseed (mul : BitVec 4) {seedp : Bool} {a0 : HostAddr} (ha : seedp = true → a0 ≠ nullAddr) :
      HostCommand (.reseed mul seedp a0)
  | generate (pr : Bool) (size : BitVec 24) {a0 : HostAddr} (ha : a0 ≠ nullAddr) : HostCommand (.generate pr size a0)
  | uninstantiate : HostCommand .uninstantiate
  | runKat : HostCommand .runKat
  | runHealthTest : HostCommand .runHealthTest

theorem HostCommand.of_not_malformed {c : Command} (hc : ¬ Malformed c) : HostCommand (decode c) := by
  obtain ⟨hres, hnull⟩ := not_or.1 hc
  have h := decode_decodedAs c
  generalize decode c = i at h
  cases h with
  | reserved h => exact absurd h hres
  | instantiate hopc => exact .instantiate _ _ _ _ _ _ fun ha => hnull ⟨ha, .inl hopc⟩
  | reseed hopc => exact .reseed _ fun hs ha => hnull ⟨ha, .inr (.inr ⟨hopc, hs⟩)⟩
  | generate hopc => exact .generate _ _ fun ha => hnull ⟨ha, .inr (.inl hopc)⟩
  | uninstantiate => exact .uninstantiate
  | runKat => exact .runKat
  | runHealthTest => exact .runHealthTest

theorem HostCommand.wellFormed {i : Instr} (h : HostCommand i) : i.wellFormed = true := by
  cases h with
  | instantiate _ _ _ _ _ _ ha => exact bne_iff_ne.2 ha
  | reseed mul ha => simpa [Instr.wellFormed, imp_iff_not_or] using ha
  | generate _ _ ha => exact bne_iff_ne.2 ha
  | uninstantiate => rfl
  | runKat => rfl
  | runHealthTest => rfl

/-- Without the address its format requires, a command that is not reserved has no meaning to run. -/
theorem lacksOperand_of_nullOperand {c : Command} (hres : isReservedWord c.cw = false) (h : NullOperand c) :
    (decode c).lacksOperand = true := by
  obtain ⟨ha, hopc | hopc | ⟨hopc, hseed⟩⟩ := h
  · rw [decode_formatI hres hopc]; exact beq_iff_eq.2 ha
  · rw [decode_formatG hres hopc]; exact beq_iff_eq.2 ha
  · rw [decode_formatR hres hopc]; simp [Instr.lacksOperand, ha, hseed]

/-! ## Their meanings -/

theorem exec_instantiate (mode : BitVec 2) (pr dfdis : Bool) (mul : BitVec 4) (seedp persp : Bool) {a0 : HostAddr}
    (ha : a0 ≠ nullAddr) (s : State) :
    exec (.instantiate mode pr dfdis mul seedp persp a0) s =
      .next (opInstantiate (instConfigOfRecord s.mem mode pr dfdis mul seedp persp a0) s.beginCommand).2 :=
  if_neg (by simpa [Instr.lacksOperand] using ha)

theorem exec_reseed (mul : BitVec 4) {seedp : Bool} {a0 : HostAddr} (ha : seedp = true → a0 ≠ nullAddr) (s : State) :
    exec (.reseed mul seedp a0) s = .next (opReseed mul seedp a0 s.beginCommand).2 :=
  if_neg (by simpa [Instr.lacksOperand] using ha)

theorem exec_generate (pr : Bool) (size : BitVec 24) {a0 : HostAddr} (ha : a0 ≠ nullAddr) (s : State) :
    exec (.generate pr size a0) s = .next (opGenerate (.host a0) size.toNat pr s.beginCommand).state :=
  if_neg (by simpa [Instr.lacksOperand] using ha)

theorem exec_uninstantiate (s : State) : exec .uninstantiate s = .next (opUninstantiate s.beginCommand).2 := rfl

theorem exec_runKat (s : State) : exec .runKat s = .next (opRunKat s.beginCommand).2 := rfl

theorem exec_runHealthTest (s : State) : exec .runHealthTest s = .next (opRunHealthTest s.beginCommand).2 := rfl

theorem HostCommand.exec_completes {i : Instr} (h : HostCommand i) (s : State) : ∃ t, exec i s = .next t := by
  cases h with
  | instantiate _ _ _ _ _ _ ha => exact ⟨_, exec_instantiate _ _ _ _ _ _ ha s⟩
  | reseed _ ha => exact ⟨_, exec_reseed _ ha s⟩
  | generate _ _ ha => exact ⟨_, exec_generate _ _ ha s⟩
  | uninstantiate => exact ⟨_, exec_uninstantiate s⟩
  | runKat => exact ⟨_, exec_runKat s⟩
  | runHealthTest => exact ⟨_, exec_runHealthTest s⟩

/-! ## Refusals -/

/-- An instruction without its address is refused before its state guard (R122, entry 5). -/
theorem exec_of_lacksOperand {c : Command} (h : (decode c).lacksOperand = true) (s : State) :
    exec (decode c) s = .next (s.onlyResult 0x01) := by
  have hd := decode_decodedAs c
  generalize decode c = i at h hd
  cases hd with
  | instantiate | reseed | generate => exact if_pos h
  | reserved | uninstantiate | runKat | runHealthTest => cases h

theorem exec_of_malformed {c : Command} (h : Malformed c) (s : State) :
    exec (decode c) s = .next (s.onlyResult 0x01) := by
  cases hres : isReservedWord c.cw
  · exact exec_of_lacksOperand (lacksOperand_of_nullOperand hres (h.resolve_left (by simp [hres]))) s
  · rw [decode_of_reserved hres]; rfl

/-- Settles O8: both causes of R122 end in `refuseMalformed`; what is left is a command with its operand. -/
theorem malformedCommandsAreRefused : Obligations.MalformedCommandsAreRefused :=
  ⟨fun s _ hc => exec_of_malformed hc s, fun _ hc =>
    ⟨(HostCommand.of_not_malformed hc).wellFormed, fun h => hc (.inl (decode_eq_reserved_iff.1 h))⟩⟩

/-- `ERR_INVALID_STATE` is written to `RESULT` and changes nothing else (60_exceptions.md R330). -/
theorem raise_errInvalidState (s : State) : (s.beginCommand.raise .errInvalidState).2 = s.onlyResult 0x02 := rfl

theorem opInstantiate_guard (c : InstConfig) {s : State} (h : s.inst.state ≠ .uninitialized) :
    opInstantiate c s = s.raise .errInvalidState := if_pos h

theorem opReseed_guard (mul : BitVec 4) (seedp : Bool) (a0 : HostAddr) {s : State}
    (h : s.inst.state ≠ .healthy ∨ s.inst.mode = .ptrng) : opReseed mul seedp a0 s = s.raise .errInvalidState := if_pos h

theorem opGenerate_guard (dst : Dst) (size : Nat) (pr : Bool) {s : State} (h : s.inst.state ≠ .healthy) :
    opGenerate dst size pr s = generatedNothing (s.raise .errInvalidState) := if_pos h

theorem opUninstantiate_guard {s : State} (h : s.inst.state = .uninitialized) :
    opUninstantiate s = s.raise .errInvalidState := if_pos h

/-- The self-tests have the guard of the `INSTANTIATE` they begin with (43_self_test.md R270). -/
theorem opRunKat_guard {s : State} (h : s.inst.state ≠ .uninitialized) : opRunKat s = s.raise .errInvalidState := by
  unfold opRunKat
  rw [opInstantiate_guard _ h]
  rfl

theorem opRunHealthTest_guard {s : State} (h : s.inst.state ≠ .uninitialized) :
    opRunHealthTest s = s.raise .errInvalidState := by
  unfold opRunHealthTest
  rw [opInstantiate_guard _ h]
  rfl

theorem HostCommand.exec_of_not_accepts {i : Instr} (h : HostCommand i) {s : State} (hs : ¬ Accepts i s.inst) :
    exec i s = .next (s.onlyResult 0x02) := by
  rw [← raise_errInvalidState]
  cases h with
  | instantiate _ _ _ _ _ _ ha => rw [exec_instantiate _ _ _ _ _ _ ha, opInstantiate_guard (s := s.beginCommand) _ hs]
  | reseed _ ha =>
    have hg : s.inst.state ≠ .healthy ∨ s.inst.mode = .ptrng := by
      simpa [Accepts, imp_iff_not_or] using hs
    rw [exec_reseed _ ha, opReseed_guard (s := s.beginCommand) _ _ _ hg]
  | generate _ _ ha => rw [exec_generate _ _ ha, opGenerate_guard (s := s.beginCommand) _ _ _ hs]; rfl
  | uninstantiate => rw [exec_uninstantiate, opUninstantiate_guard (s := s.beginCommand) (not_not.1 hs)]
  | runKat => rw [exec_runKat, opRunKat_guard (s := s.beginCommand) hs]
  | runHealthTest => rw [exec_runHealthTest, opRunHealthTest_guard (s := s.beginCommand) hs]

/-- Settles O9: each command's guard comes before everything else it does. -/
theorem wrongStateCommandsChangeNothing : Obligations.WrongStateCommandsChangeNothing :=
  fun _ _ hc hs => (HostCommand.of_not_malformed hc).exec_of_not_accepts hs

/-! ## The step (R24) -/

theorem step_of_exec {s t : State} {c : Command} (hc : s.fetch = some c) (ht : exec (decode c) s = .next t) :
    step s = .next t.advance := by
  unfold step
  simp only [hc, ht]

theorem step_of_no_command {s : State} (h : s.fetch = none) : step s = .refused .noCommand := by
  unfold step
  simp only [h]

/-- Settles O5: the two branches of a step. -/
theorem stepRunsTheDecodedCommand : Obligations.StepRunsTheDecodedCommand :=
  ⟨fun _ _ _ hc ht => step_of_exec hc ht, fun _ h => step_of_no_command h⟩

theorem exec_decode_completes (c : Command) (s : State) : ∃ t, exec (decode c) s = .next t := by
  by_cases hc : Malformed c
  · exact ⟨_, exec_of_malformed hc s⟩
  · exact (HostCommand.of_not_malformed hc).exec_completes s

/-- Settles O6: every command has a next state, and only `step` itself writes the index. -/
theorem everyCommandCompletes : Obligations.EveryCommandCompletes := by
  intro s c hc
  obtain ⟨t, ht⟩ := exec_decode_completes c s
  have hf := exec_keepsHost _ s t ht
  exact ⟨t.advance, step_of_exec hc ht, congrArg (· + 1) hf.cmdIndex, hf.commands, hf.params⟩

/-- A step that has a next state ran the command at the index (R24). -/
theorem step_inv {s t : State} (h : step s = .next t) :
    ∃ c u, s.commands[s.cmdIndex]? = some c ∧ exec (decode c) s = .next u ∧ t = u.advance := by
  cases hc : s.fetch with
  | none => rw [step_of_no_command hc] at h; cases h
  | some c =>
    obtain ⟨u, hu⟩ := exec_decode_completes c s
    rw [step_of_exec hc hu] at h
    cases h
    exact ⟨c, u, hc, hu, rfl⟩

/-! ## The failure states (60_exceptions.md R333, R334) -/

/-- `I.State` is one of the two failure states. -/
def State.Failed (s : State) : Prop := s.inst.state = .error ∨ s.inst.state = .catastrophic

theorem HostCommand.not_accepts_of_failed {i : Instr} (h : HostCommand i) (hi : i ≠ .uninstantiate) {s : State}
    (hs : s.Failed) : ¬ Accepts i s.inst := by
  obtain hs | hs := hs <;> cases h <;> simp_all [Accepts]

/-- In a failure state every command but `UNINSTANTIATE` is refused. -/
theorem exec_of_failed {s : State} {c : Command} (hs : s.Failed) (hc : decode c ≠ .uninstantiate) :
    ∃ code : BitVec 8, (code = 0x01 ∨ code = 0x02) ∧ exec (decode c) s = .next (s.onlyResult code) := by
  by_cases hm : Malformed c
  · exact ⟨_, .inl rfl, exec_of_malformed hm s⟩
  · have h := HostCommand.of_not_malformed hm
    exact ⟨_, .inr rfl, h.exec_of_not_accepts (h.not_accepts_of_failed hc hs)⟩

/-- A step from a failure state that does not run `UNINSTANTIATE`. -/
theorem step_of_failed {s t : State} (hs : s.Failed)
    (hc : ∀ c, s.commands[s.cmdIndex]? = some c → decode c ≠ .uninstantiate) (h : step s = .next t) :
    ∃ code : BitVec 8, (code = 0x01 ∨ code = 0x02) ∧ t = (s.onlyResult code).advance := by
  obtain ⟨c, u, hfetch, hu, rfl⟩ := step_inv h
  obtain ⟨code, hcode, he⟩ := exec_of_failed hs (hc c hfetch)
  rw [he] at hu
  cases hu
  exact ⟨code, hcode, rfl⟩

/-- A run of one step and then others. -/
theorem run_succ_inv (M : Host.Core) {n : Nat} {s t : M.State} (h : M.run (n + 1) s = .next t) :
    ∃ u, M.step s = .next u ∧ M.run n u = .next t := by
  unfold Host.Core.run at h
  cases hu : M.step s with
  | next u => rw [hu] at h; exact ⟨u, rfl, h⟩
  | fault r => rw [hu] at h; cases h
  | refused r => rw [hu] at h; cases h

/-- Settles O14, by induction on the number of steps: each leaves a failure state as it was but for `RESULT` and the
index. -/
theorem onlyUninstantiateLeavesAFailure : Obligations.OnlyUninstantiateLeavesAFailure := by
  intro n
  induction n with
  | zero =>
    rintro s t - - ⟨⟩
    exact ⟨rfl, rfl, rfl, fun h => absurd h (Nat.lt_irrefl 0)⟩
  | succ n ih =>
    intro s t hs hcmds hrun
    obtain ⟨u, hstep, hrest⟩ := run_succ_inv Sys2Proof.core hrun
    obtain ⟨code, hcode, rfl⟩ := step_of_failed hs (hcmds 0 n.succ_pos) hstep
    have hcmds' : ∀ k < n, ∀ c, s.commands[s.cmdIndex + 1 + k]? = some c → decode c ≠ .uninstantiate := by
      intro k hk c hc
      exact hcmds (k + 1) (by omega) c (by rwa [show s.cmdIndex + (k + 1) = s.cmdIndex + 1 + k by omega])
    obtain ⟨hinst, hport, hmem, hresult⟩ := ih (s.onlyResult code).advance t hs hcmds' hrest
    refine ⟨hinst, hport, hmem, fun _ => ?_⟩
    cases n with
    | zero => cases hrest; exact hcode
    | succ n => exact hresult n.succ_pos

end Sys2Proof.Machine
end

section
/-! How a command ends (60_exceptions.md R320, R330): its status decides `RESULT` and `I.State`. One lemma per core
operation for each branch it can take, and from these the table of R320. -/

namespace Sys2Proof.Machine

/-! ## The branches of the core operations -/

/-- The machine after the configuration is stored and the hardware reset, before the internal reseed
(40_core_operations.md R152 steps 2 to 6). -/
def configured (c : InstConfig) (s : State) : State :=
  hwReset (storeConfig c (((clearStatistics s).logEvents c.readsLife).logEvents c.readsStored))

theorem opInstantiate_invalid {c : InstConfig} {s : State} {e : Status} (hs : s.inst.state = .uninitialized)
    (h : validate c = some e) : opInstantiate c s = ((clearStatistics s).logEvents c.readsLife).raise e := by
  unfold opInstantiate
  rw [if_neg (not_not_intro hs), h]

theorem opInstantiate_valid {c : InstConfig} {s : State} (hs : s.inst.state = .uninitialized)
    (h : validate c = none) : opInstantiate c s = finishInstantiate (configured c s) := by
  unfold opInstantiate
  rw [if_neg (not_not_intro hs), h]
  rfl

theorem finishInstantiate_ptrng {s : State} (h : s.inst.mode = .ptrng) :
    finishInstantiate s = (s.setRunState .healthy).succeed := by
  unfold finishInstantiate
  rw [h]

theorem finishInstantiate_reseeds {s : State} (h : s.inst.mode ≠ .ptrng) :
    finishInstantiate s =
      orRaise (reseedCore (storedSeed s.inst) s.inst.dfLenMul s) fun t => (t.setRunState .healthy).succeed := by
  unfold finishInstantiate
  cases hm : s.inst.mode
  · rfl
  · rfl
  · exact absurd hm h

theorem orRaise_fail {r : Option Status × State} {e : Status} (h : r.1 = some e) (go : State → Status × State) :
    orRaise r go = r.2.raise e := by
  unfold orRaise
  rw [h]

theorem orRaise_ok {r : Option Status × State} (h : r.1 = none) (go : State → Status × State) :
    orRaise r go = go r.2 := by
  unfold orRaise
  rw [h]

theorem opReseed_rejected {mul : BitVec 4} {seedp : Bool} {s : State} {e : Status} (hs : s.inst.state = .healthy)
    (hm : s.inst.mode ≠ .ptrng) (h : reseedReject seedp mul s.inst = some e) (a0 : HostAddr) :
    opReseed mul seedp a0 s = s.raise e := by
  unfold opReseed
  rw [if_neg (by simp [hs, hm]), h]

theorem opReseed_drng {mul : BitVec 4} {seedp : Bool} {s : State} (hs : s.inst.state = .healthy)
    (hm : s.inst.mode = .drng) (h : reseedReject seedp mul s.inst = none) (a0 : HostAddr) :
    opReseed mul seedp a0 s = reseedWithSeed mul a0 s := by
  unfold opReseed
  rw [if_neg (by simp [hs, hm]), h, hm]

theorem opReseed_hrng {mul : BitVec 4} {seedp : Bool} {s : State} (hs : s.inst.state = .healthy)
    (hm : s.inst.mode = .hrng) (h : reseedReject seedp mul s.inst = none) (a0 : HostAddr) :
    opReseed mul seedp a0 s = orRaise (reseedCore none mul s) State.succeed := by
  unfold opReseed
  rw [if_neg (by simp [hs, hm]), h, hm]

theorem opGenerate_rejected {size : Nat} {pr : Bool} {s : State} {e : Status} (hs : s.inst.state = .healthy)
    (h : generateReject size pr s.inst = some e) (dst : Dst) :
    opGenerate dst size pr s = generatedNothing (s.raise e) := by
  unfold opGenerate
  rw [if_neg (not_not_intro hs), h]

theorem opGenerate_policy_fails {size : Nat} {pr : Bool} {s : State} {e : Status} (hs : s.inst.state = .healthy)
    (h : generateReject size pr s.inst = none) (hp : (generatePolicy pr s).1 = some e) (dst : Dst) :
    opGenerate dst size pr s = generatedNothing ((generatePolicy pr s).2.raise e) := by
  unfold opGenerate
  rw [if_neg (not_not_intro hs), h]
  simp only [hp]

theorem opGenerate_output_fails {dst : Dst} {size : Nat} {pr : Bool} {s : State} {e : Status}
    (hs : s.inst.state = .healthy) (h : generateReject size pr s.inst = none) (hp : (generatePolicy pr s).1 = none)
    (ho : (generateOutput dst (generatePolicy pr s).2).fail = some e) :
    opGenerate dst size pr s =
      ⟨e, (generateOutput dst (generatePolicy pr s).2).bytes,
        ((generateOutput dst (generatePolicy pr s).2).state.raise e).2⟩ := by
  unfold opGenerate
  rw [if_neg (not_not_intro hs), h]
  simp only [hp, ho]

theorem opGenerate_done {dst : Dst} {size : Nat} {pr : Bool} {s : State}
    (hs : s.inst.state = .healthy) (h : generateReject size pr s.inst = none) (hp : (generatePolicy pr s).1 = none)
    (ho : (generateOutput dst (generatePolicy pr s).2).fail = none) :
    opGenerate dst size pr s =
      ⟨.success, (generateOutput dst (generatePolicy pr s).2).bytes,
        (countGenerate (generateOutput dst (generatePolicy pr s).2).state).succeed.2⟩ := by
  unfold opGenerate
  rw [if_neg (not_not_intro hs), h]
  simp only [hp, ho]

theorem opUninstantiate_accepted {s : State} (hs : s.inst.state ≠ .uninitialized) :
    opUninstantiate s = (hwHoldReset (zeroizeSeedRegs s)).zeroInstance.succeed := if_neg hs

/-! ## What they call, whatever the environment answers -/

/-- The code of an operation that failed after its command was accepted. -/
def Status.IsFailure (e : Status) : Prop := e ≠ .success ∧ e ≠ .errInvalidState

theorem validate_isFailure {c : InstConfig} {e : Status} (h : validate c = some e) : e.IsFailure := by
  unfold validate at h
  split at h
  · cases h; simp [Status.IsFailure]
  · split_ifs at h <;> cases h <;> simp [Status.IsFailure]

theorem reseedReject_isFailure {seedp : Bool} {mul : BitVec 4} {i : Instance} {e : Status}
    (h : reseedReject seedp mul i = some e) : e.IsFailure := by
  unfold reseedReject at h
  split_ifs at h <;> cases h <;> simp [Status.IsFailure]

theorem generateReject_isFailure {size : Nat} {pr : Bool} {i : Instance} {e : Status}
    (h : generateReject size pr i = some e) : e.IsFailure := by
  unfold generateReject at h
  split_ifs at h <;> cases h <;> simp [Status.IsFailure]

/-- The guards of `RESEED` before the replay check (R160 steps 2 to 4). -/
theorem reseedReject_eq_none_iff {seedp : Bool} {mul : BitVec 4} {i : Instance} :
    reseedReject seedp mul i = none ↔
      (i.mode = .drng → seedp = true) ∧ (i.mode = .hrng → seedp = false) ∧ mulLegal i.dfDisabled mul = true := by
  unfold reseedReject
  split_ifs <;> simp_all

/-- The checks of `GENERATE` before the seed policy (R171). -/
theorem generateReject_eq_none_iff {size : Nat} {pr : Bool} {i : Instance} :
    generateReject size pr i = none ↔ 32 ≤ size ∧ (pr = true → i.mode ≠ .ptrng ∧ i.predResEn = true) := by
  unfold generateReject
  split_ifs <;> simp_all

/-- The seed policy either reseeds (HRNG, R172), refuses (DRNG, R173) or lets the call through. -/
theorem generatePolicy_cases (pr : Bool) (s : State) :
    (s.inst.mode = .hrng ∧ selfHealDue pr s.inst = true ∧ generatePolicy pr s = reseedCore none s.inst.dfLenMul s) ∨
      (s.inst.mode = .drng ∧ generatePolicy pr s = (some .errReseedRequired, s)) ∨
      (generatePolicy pr s = (none, s) ∧ (s.inst.mode = .hrng → selfHealDue pr s.inst = false) ∧
        (s.inst.mode = .drng → drngLifeSpent s.params s.inst = false ∧
          (pr && decide (1 ≤ s.inst.generateCallsSinceReseed.toNat)) = false)) := by
  unfold generatePolicy
  cases hm : s.inst.mode
  · cases hh : selfHealDue pr s.inst <;> simp
  · cases hl : drngLifeSpent s.params s.inst
    · cases hp : pr && decide (1 ≤ s.inst.generateCallsSinceReseed.toNat) <;> simp
    · simp
  · simp

theorem generatePolicy_isFailure {pr : Bool} {s : State} {e : Status} (h : (generatePolicy pr s).1 = some e) :
    e.IsFailure := by
  obtain ⟨-, -, hp⟩ | ⟨-, hp⟩ | ⟨hp, -⟩ := generatePolicy_cases pr s <;> rw [hp] at h
  · exact (reseedCore_outcome _ _ s).code e h
  · cases h; simp [Status.IsFailure]
  · cases h

/-- A passed policy leaves a HEALTHY machine HEALTHY. -/
theorem generatePolicy_state {pr : Bool} {s : State} (h : (generatePolicy pr s).1 = none) :
    (generatePolicy pr s).2.inst.state = s.inst.state := by
  obtain ⟨-, -, hp⟩ | ⟨-, hp⟩ | ⟨hp, -⟩ := generatePolicy_cases pr s <;> rw [hp] at h ⊢
  have ho := (reseedCore_outcome none s.inst.dfLenMul s).state
  rwa [h] at ho

/-- Everything the output of a `GENERATE` can do (R174, R175): 32 bytes of its destination, the window, `I.State`. -/
structure OutputKeep (dst : Dst) (s : State) (c : Collected) : Prop where
  inst : c.state.inst = { s.inst with win := c.state.inst.win, state := c.state.inst.state }
  host : HostFrame s c.state
  reset : c.state.port.reset = s.port.reset
  state : c.state.inst.state = stateAfter c.fail s.inst.state
  code : ∀ e, c.fail = some e → e.IsFailure
  outside : ∀ j, ¬ Covers dst 0 32 j → memRead c.state.mem j = memRead s.mem j

/-- A collection under any selection. -/
theorem programCollect_keep (sel : HwSel) (dst : Dst) (n : Nat) (s : State) :
    CollectKeep dst n (hwProgram sel s) (collectBurst dst n (hwProgram sel s)) ∧ KeepFrame s (hwProgram sel s) :=
  ⟨collectBurst_keep dst n _, keep_hwProgram sel s⟩

theorem collect_isFailure {dst : Dst} {n : Nat} {s : State} {c : Collected} (h : CollectKeep dst n s c) :
    ∀ e, c.fail = some e → e.IsFailure := by
  intro e he
  obtain rfl | rfl | ⟨rfl, -⟩ | rfl := h.code e he <;> simp [Status.IsFailure]

theorem outputKeep_collect (sel : HwSel) (dst : Dst) (s : State) :
    OutputKeep dst s (collectBurst dst 32 (hwProgram sel s)) := by
  obtain ⟨hc, hp⟩ := programCollect_keep sel dst 32 s
  exact
    { inst := hc.inst.trans (by rw [hp.inst])
      host := hp.host.trans hc.host
      reset := hc.reset.trans hp.reset
      state := hc.state.trans (by rw [hp.inst])
      code := collect_isFailure hc
      outside := fun j hj => (hc.outside j hj).trans (by rw [hp.mem]) }

theorem generateOutput_keep (dst : Dst) (s : State) : OutputKeep dst s (generateOutput dst s) := by
  unfold generateOutput
  split
  · split
    · exact outputKeep_collect .entropy dst s
    · obtain ⟨hc, hp⟩ := programCollect_keep .entropy .scratch s.inst.entropySize.toNat s
      have hmem := (hc.scratch rfl).trans hp.mem
      have hkeep : OutputKeep dst s (collectBurst .scratch s.inst.entropySize.toNat (hwProgram .entropy s)) :=
        { inst := hc.inst.trans (by rw [hp.inst])
          host := hp.host.trans hc.host
          reset := hc.reset.trans hp.reset
          state := hc.state.trans (by rw [hp.inst])
          code := collect_isFailure hc
          outside := fun j _ => by rw [hmem] }
      simp only
      split
      · next e he => exact { hkeep with state := he ▸ hkeep.state, code := he ▸ hkeep.code }
      · next he =>
        have hstate := hkeep.state
        rw [he] at hstate
        rw [putBytes_eq]
        exact
          { inst := hkeep.inst
            host := ⟨hkeep.host.params, hkeep.host.commands, hkeep.host.cmdIndex⟩
            reset := hkeep.reset
            state := hstate
            code := fun e h => by cases h
            outside := fun j hj => (putMem_outside (fun h => hj (h.mono le_rfl (by simp)))).trans (by rw [hmem]) }
  all_goals exact outputKeep_collect .prngGen dst s

/-! ## The table of R320 -/

/-- How an accepted operation ends: `RESULT` is its status, `I.State` is `ok` after a success, CATASTROPHIC after the
two catastrophic codes, ERROR after the others (R330). -/
structure Ended (ok : RunState) (r : Status × State) : Prop where
  result : r.2.result = statusCode r.1
  guarded : r.1 ≠ .errInvalidState
  state : r.2.inst.state = if r.1 = .success then ok else if isCatastrophic r.1 then .catastrophic else .error

theorem raisedState_of_isFailure {e : Status} (h : e.IsFailure) (old : RunState) :
    raisedState e old = if isCatastrophic e then .catastrophic else .error := by
  unfold raisedState
  rw [if_neg h.2]

theorem ended_raise (ok : RunState) {e : Status} (h : e.IsFailure) (s : State) : Ended ok (s.raise e) :=
  ⟨rfl, h.2, (raisedState_of_isFailure h _).trans (if_neg h.1).symm⟩

theorem ended_succeed {ok : RunState} {s : State} (h : s.inst.state = ok) : Ended ok s.succeed := ⟨rfl, by simp, by simp [h]⟩

/-- An operation that failed ends the same way whatever its success would have left. -/
theorem Ended.of_failed {ok ok' : RunState} {r : Status × State} (h : Ended ok r) (hr : r.1 ≠ .success) : Ended ok' r :=
  ⟨h.result, h.guarded, by rw [h.state, if_neg hr, if_neg hr]⟩

theorem ended_orRaise {ok : RunState} {r : Option Status × State} {go : State → Status × State}
    (hfail : ∀ e, r.1 = some e → e.IsFailure) (hgo : r.1 = none → Ended ok (go r.2)) : Ended ok (orRaise r go) := by
  cases hr : r.1 with
  | none => rw [orRaise_ok hr]; exact hgo hr
  | some e => rw [orRaise_fail hr]; exact ended_raise ok (hfail e hr) _

/-- A reseed that is done leaves `I.State` alone (R165). -/
theorem reseedCore_state {seed : Option (List Byte)} {m : BitVec 4} {s : State} (h : (reseedCore seed m s).1 = none) :
    (reseedCore seed m s).2.inst.state = s.inst.state := by
  have ho := (reseedCore_outcome seed m s).state
  rwa [h] at ho

theorem ended_finishInstantiate (s : State) : Ended .healthy (finishInstantiate s) := by
  by_cases hm : s.inst.mode = .ptrng
  · rw [finishInstantiate_ptrng hm]; exact ended_succeed rfl
  · rw [finishInstantiate_reseeds hm]
    exact ended_orRaise (reseedCore_outcome _ _ s).code fun _ => ended_succeed rfl

theorem ended_opInstantiate (c : InstConfig) {s : State} (hs : s.inst.state = .uninitialized) :
    Ended .healthy (opInstantiate c s) := by
  cases hv : validate c with
  | none => rw [opInstantiate_valid hs hv]; exact ended_finishInstantiate _
  | some e => rw [opInstantiate_invalid hs hv]; exact ended_raise _ (validate_isFailure hv) _

/-- A reseed command after its guards. -/
theorem ended_reseed (seed : Option (List Byte)) (m : BitVec 4) {s : State} (hs : s.inst.state = .healthy) :
    Ended .healthy (orRaise (reseedCore seed m s) State.succeed) :=
  ended_orRaise (reseedCore_outcome seed m s).code fun h => ended_succeed ((reseedCore_state h).trans hs)

theorem ended_reseedWithSeed (mul : BitVec 4) (a0 : HostAddr) {s : State} (hs : s.inst.state = .healthy) :
    Ended .healthy (reseedWithSeed mul a0 s) := by
  unfold reseedWithSeed
  simp only
  split
  · exact ended_raise _ (by simp [Status.IsFailure]) _
  · exact ended_reseed _ mul hs

theorem ended_opReseed (mul : BitVec 4) (seedp : Bool) (a0 : HostAddr) {s : State} (hs : s.inst.state = .healthy)
    (hm : s.inst.mode ≠ .ptrng) : Ended .healthy (opReseed mul seedp a0 s) := by
  cases hr : reseedReject seedp mul s.inst with
  | some e => rw [opReseed_rejected hs hm hr]; exact ended_raise _ (reseedReject_isFailure hr) _
  | none =>
    cases hmode : s.inst.mode with
    | hrng => rw [opReseed_hrng hs hmode hr]; exact ended_reseed none mul hs
    | drng => rw [opReseed_drng hs hmode hr]; exact ended_reseedWithSeed mul a0 hs
    | ptrng => exact absurd hmode hm

theorem ended_opGenerate (dst : Dst) (size : Nat) (pr : Bool) {s : State} (hs : s.inst.state = .healthy) :
    Ended .healthy ((opGenerate dst size pr s).status, (opGenerate dst size pr s).state) := by
  cases hr : generateReject size pr s.inst with
  | some e => rw [opGenerate_rejected hs hr]; exact ended_raise _ (generateReject_isFailure hr) _
  | none =>
    cases hp : (generatePolicy pr s).1 with
    | some e => rw [opGenerate_policy_fails hs hr hp]; exact ended_raise _ (generatePolicy_isFailure hp) _
    | none =>
      have hk := generateOutput_keep dst (generatePolicy pr s).2
      cases ho : (generateOutput dst (generatePolicy pr s).2).fail with
      | some e => rw [opGenerate_output_fails hs hr hp ho]; exact ended_raise _ (hk.code e ho) _
      | none =>
        have hstate := hk.state
        rw [ho] at hstate
        rw [opGenerate_done hs hr hp ho]
        exact ended_succeed (hstate.trans ((generatePolicy_state hp).trans hs))

theorem ended_opUninstantiate {s : State} (hs : s.inst.state ≠ .uninitialized) :
    Ended .uninitialized (opUninstantiate s) := by
  rw [opUninstantiate_accepted hs]; exact ended_succeed rfl

/-- After a success `I.State` is the one R320 names. -/
theorem Ended.state_of_success {ok : RunState} {r : Status × State} (h : Ended ok r) (hr : r.1 = .success) :
    r.2.inst.state = ok := by rw [h.state, if_pos hr]

theorem ended_opRunKat {s : State} (hs : s.inst.state = .uninitialized) : Ended .uninitialized (opRunKat s) := by
  have hinst := ended_opInstantiate (katConfig s.params) hs
  unfold opRunKat
  simp only
  split_ifs with h1 h2 h3
  · exact hinst.of_failed h1
  all_goals
    have hhealthy := hinst.state_of_success (not_not.1 h1)
    have hgen := ended_opGenerate .scratch 32 false hhealthy
  · exact hgen.of_failed h2
  · exact ended_raise _ (by simp [Status.IsFailure]) _
  · have hgenerated := hgen.state_of_success (not_not.1 h2)
    exact ended_opUninstantiate (by rw [hgenerated]; simp)

theorem ended_opRunHealthTest {s : State} (hs : s.inst.state = .uninitialized) :
    Ended .uninitialized (opRunHealthTest s) := by
  have hinst := ended_opInstantiate (healthConfig s.params) hs
  unfold opRunHealthTest
  simp only
  split_ifs with h1
  · exact hinst.of_failed h1
  · have hhealthy := hinst.state_of_success (not_not.1 h1)
    exact ended_opUninstantiate (by rw [hhealthy]; simp)

/-- Every accepted command of the host ends by the table. -/
theorem HostCommand.ended {i : Instr} (h : HostCommand i) {s t : State} (hs : Accepts i s.inst)
    (ht : exec i s = .next t) : ∃ e, Ended (successState i) (e, t) := by
  cases h with
  | instantiate mode pr dfdis mul seedp persp ha =>
    rw [exec_instantiate _ _ _ _ _ _ ha] at ht
    cases ht
    exact ⟨_, ended_opInstantiate _ hs⟩
  | reseed mul ha =>
    rw [exec_reseed _ ha] at ht
    cases ht
    exact ⟨_, ended_opReseed mul _ _ hs.1 hs.2⟩
  | generate pr size ha =>
    rw [exec_generate _ _ ha] at ht
    cases ht
    exact ⟨_, ended_opGenerate _ _ pr hs⟩
  | uninstantiate => cases ht; exact ⟨_, ended_opUninstantiate hs⟩
  | runKat => cases ht; exact ⟨_, ended_opRunKat hs⟩
  | runHealthTest => cases ht; exact ⟨_, ended_opRunHealthTest hs⟩

/-- The row of R320 of each status. -/
theorem Ended.table {ok : RunState} {e : Status} {t : State} (h : Ended ok (e, t)) :
    (t.result = 0x00 ∧ t.inst.state = ok) ∨ ((t.result = 0x0B ∨ t.result = 0x0C) ∧ t.inst.state = .catastrophic) ∨
      ((t.result = 0x01 ∨ (3 ≤ t.result.toNat ∧ t.result.toNat ≤ 0x0A) ∨ t.result = 0x0D) ∧ t.inst.state = .error) := by
  obtain ⟨hr, hg, hs⟩ := h
  simp only at hr hg hs
  rw [hr, hs]
  cases e <;> simp_all [statusCode, isCatastrophic]

/-- Settles O13: a refused command by the guard of its operation, an accepted one by the row of its status. -/
theorem resultDecidesState : Obligations.ResultDecidesState := by
  intro s t c hc ht
  have h := HostCommand.of_not_malformed hc
  by_cases hs : Accepts (decode c) s.inst
  · obtain ⟨e, he⟩ := h.ended hs ht
    obtain ⟨hr, hst⟩ | ⟨hr, hst⟩ | ⟨hr, hst⟩ := he.table
    · exact .inl ⟨hr, hs, hst⟩
    · exact .inr (.inr (.inl ⟨hr, hs, hst⟩))
    · exact .inr (.inr (.inr ⟨hr, hs, hst⟩))
  · rw [h.exec_of_not_accepts hs] at ht
    cases ht
    exact .inr (.inl ⟨rfl, hs, rfl⟩)

end Sys2Proof.Machine
end

section
/-! What every command keeps because each of its accesses keeps it: one induction over the operations (`CommandClosed`),
used for the accesses a command makes (20_memory.md R70, R79) and for the canonical form of host memory. -/

namespace Sys2Proof.Machine

/-- A port register the commands read. -/
def PortReg.IsRead (r : PortReg) : Prop := r = .ctrl ∨ r = .status ∨ r = .coreOutput

/-- A port register the commands write. -/
def PortReg.IsWritten (r : PortReg) : Prop :=
  r = .ctrl ∨ r = .reset ∨ (∃ k, r = .extSeed k) ∨ ∃ k, r = .perStrng k

/-- A property of port, log, parameters and host memory that every single access of a command keeps. -/
structure CommandClosed (P : State → Prop) : Prop where
  read : ∀ {r : PortReg} {s : State}, r.IsRead → P s → P (read32 r s).2
  write : ∀ {r : PortReg} {s : State} (v : Word), r.IsWritten → P s → P (write32 r v s)
  event : ∀ {e : Event} {s : State}, e.isAccess = false → P s → P (s.logEvent e)
  store : ∀ {s : State} (a : Nat) (b : List Byte), P s → P (s.memWriteAt a b)
  congr : ∀ {s t : State}, P s → t.port = s.port → t.log = s.log → t.params = s.params → t.mem = s.mem → P t

section
variable {P : State → Prop} (hP : CommandClosed P) {s : State}
include hP

theorem closed_poll (mask expect : Word) (sleep n : Nat) (h : P s) : P (pollLoop .status mask expect sleep n s).2 := by
  have hread : ∀ {s}, P s → P (read32 .status s).2 := hP.read (.inr (.inl rfl))
  induction n generalizing s with
  | zero => exact hread h
  | succ n ih =>
    rw [pollLoop]
    split
    · exact hread h
    · exact ih (hP.event rfl (hread h))

theorem closed_rmw (mask v : Word) (h : P s) : P (rmw32 .ctrl mask v s) :=
  hP.write _ (.inl rfl) (hP.read (.inl rfl) h)

theorem closed_hwProgram (sel : HwSel) (h : P s) : P (hwProgram sel s) := hP.write _ (.inl rfl) h

theorem closed_hwHoldReset (h : P s) : P (hwHoldReset s) := hP.write _ (.inr (.inl rfl)) h

theorem closed_hwReset (h : P s) : P (hwReset s) :=
  hP.write _ (.inr (.inl rfl)) (hP.event rfl (closed_hwHoldReset hP h))

theorem closed_foldl {α : Type} (l : List α) (r : α → PortReg) (v : α → Word) (hr : ∀ k, (r k).IsWritten) (h : P s) :
    P (l.foldl (fun s k => write32 (r k) (v k) s) s) := by
  induction l generalizing s with
  | nil => exact h
  | cons k l ih => exact ih (hP.write _ (hr k) h)

theorem closed_writeGroup (g : RegGroup) (b : Vector Byte 48) (h : P s) : P (writeGroup g b s) :=
  closed_foldl hP _ (fun k : Fin 12 => groupReg g k.rev) _ (by
    intro k
    cases g
    exacts [.inr (.inr (.inl ⟨_, rfl⟩)), .inr (.inr (.inr ⟨_, rfl⟩))]) h

theorem closed_zeroizeSeedRegs (h : P s) : P (zeroizeSeedRegs s) :=
  closed_foldl hP _ (fun k : Fin 12 => PortReg.perStrng k) (fun _ => 0) (fun _ => .inr (.inr (.inr ⟨_, rfl⟩)))
    (closed_foldl hP _ (fun k : Fin 12 => PortReg.extSeed k) (fun _ => 0) (fun _ => .inr (.inr (.inl ⟨_, rfl⟩))) h)

theorem closed_putBytes (dst : Dst) (off : Nat) (b : List Byte) (h : P s) : P (putBytes dst off b s) := by
  cases dst with
  | host a =>
    simp only [putBytes]
    split
    · exact h
    · exact hP.store _ _ h
  | scratch => exact h

theorem closed_readBurst (dst : Dst) (b : Nat) (h : P s) : P (readBurst dst b s).state := by
  have hword (k : Fin 4) (r : BurstRead) (hr : P r.state) : P (readBurstWord dst b k r).state :=
    closed_putBytes hP dst _ _ (hP.congr (hP.read (.inr (.inr rfl)) hr) rfl rfl rfl rfl)
  exact hword 3 _ (hword 2 _ (hword 1 _ (hword 0 _ h)))

theorem closed_checkDtf (h : P s) : P (checkDtf s).2 := by
  have hread := hP.read (.inr (.inl rfl)) h
  unfold checkDtf
  split
  exacts [hread, hread, h]

theorem closed_collectLoop (dst : Dst) (n b : Nat) (acc : List Byte) (h : P s) :
    P (collectLoop dst n b acc s).state := by
  induction n generalizing b acc s with
  | zero => exact h
  | succ n ih =>
    have hpoll : P (pollBurst s).2 := closed_poll hP _ _ _ _ h
    have hdtf := closed_checkDtf hP hpoll
    have hread := closed_readBurst hP dst b hdtf
    rw [collectLoop]
    simp only
    split_ifs
    · exact hP.congr hdtf rfl rfl rfl rfl
    · exact hP.congr hread rfl rfl rfl rfl
    · exact ih _ _ hread
    · exact hpoll

theorem closed_collectBurst (dst : Dst) (n : Nat) (h : P s) : P (collectBurst dst n s).state := by
  unfold collectBurst
  split
  · exact h
  · exact closed_collectLoop hP _ _ _ _ (closed_rmw hP _ _ h)

theorem closed_seedMaterial (seed : Option (List Byte)) (h : P s) : P (seedMaterial seed s).state := by
  have hcollect := closed_collectBurst hP .scratch s.inst.entropySize.toNat (closed_hwProgram hP .entropy h)
  unfold seedMaterial
  split
  · exact h
  all_goals
    simp only
    split
    · exact hcollect
    · split <;> exact hcollect

theorem closed_deliverSeed (mat : List Byte) (h : P s) : P (deliverSeed mat s) := by
  unfold deliverSeed
  split
  · simp only
    split
    · exact closed_writeGroup hP _ _ (closed_writeGroup hP _ _ h)
    · exact closed_writeGroup hP _ _ h
  · exact closed_writeGroup hP _ _ h

theorem closed_hardwareReseed (h : P s) : P (hardwareReseed s).2 := by
  have hpoll : P (pollDone (assertStart (hwProgram .reseedExt s))).2 :=
    closed_poll hP _ _ _ _ (closed_rmw hP _ _ (closed_hwProgram hP _ h))
  have hcertf := hP.read (.inr (.inl rfl)) hpoll
  unfold hardwareReseed
  simp only
  split_ifs
  exacts [hcertf, closed_rmw hP _ _ hcertf, hpoll]

theorem closed_reseedCore (seed : Option (List Byte)) (m : BitVec 4) (h : P s) : P (reseedCore seed m s).2 := by
  have hmat : P (seedMaterial seed (beginReseed m s)).state :=
    closed_seedMaterial hP seed (hP.congr h rfl rfl rfl rfl)
  unfold reseedCore
  simp only
  split
  exacts [hmat, closed_hardwareReseed hP (closed_deliverSeed hP _ hmat)]

theorem closed_raise (e : Status) (h : P s) : P (s.raise e).2 := hP.congr h rfl rfl rfl rfl

theorem closed_succeed (h : P s) : P s.succeed.2 := hP.congr h rfl rfl rfl rfl

theorem closed_orRaise {r : Option Status × State} {go : State → Status × State} (h : P r.2)
    (hgo : ∀ t, P t → P (go t).2) : P (orRaise r go).2 := by
  unfold orRaise
  split
  exacts [closed_raise hP _ h, hgo _ h]

theorem closed_logEvents {es : List Event} (he : ∀ e ∈ es, e.isAccess = false) (h : P s) : P (s.logEvents es) := by
  induction es generalizing s with
  | nil => exact h
  | cons e es ih =>
    have hstep := ih (fun x hx => he x (List.mem_cons_of_mem _ hx)) (hP.event (he e (List.mem_cons_self ..)) h)
    exact hP.congr hstep rfl (by simp) rfl rfl

/-- The reads that assemble a configuration are no port accesses. -/
def InstConfig.NoAccess (c : InstConfig) : Prop := ∀ e ∈ c.readsLife ++ c.readsStored, e.isAccess = false

omit hP in
theorem InstConfig.noAccess_record (m : Memory) (mode : BitVec 2) (pr dfdis : Bool) (mul : BitVec 4)
    (seedp persp : Bool) (a0 : HostAddr) : (instConfigOfRecord m mode pr dfdis mul seedp persp a0).NoAccess := by
  intro e he
  simp only [instConfigOfRecord, lifeReads, storeReads, List.mem_append, List.mem_map] at he
  obtain ⟨k, -, rfl⟩ | he | he := he
  · rfl
  all_goals
    split at he
    · obtain rfl := List.mem_singleton.1 he; rfl
    · cases he

theorem closed_configured {c : InstConfig} (hc : c.NoAccess) (h : P s) : P (configured c s) := by
  have hlife : P ((clearStatistics s).logEvents c.readsLife) :=
    closed_logEvents hP (fun e he => hc e (List.mem_append_left _ he)) (hP.congr h rfl rfl rfl rfl)
  have hstored := closed_logEvents hP (fun e he => hc e (List.mem_append_right _ he)) hlife
  exact closed_hwReset hP (hP.congr hstored rfl rfl rfl rfl)

theorem closed_finishInstantiate (h : P s) : P (finishInstantiate s).2 := by
  unfold finishInstantiate
  split
  · exact hP.congr h rfl rfl rfl rfl
  all_goals exact closed_orRaise hP (closed_reseedCore hP _ _ h) fun t ht => hP.congr ht rfl rfl rfl rfl

theorem closed_opInstantiate {c : InstConfig} (hc : c.NoAccess) (h : P s) : P (opInstantiate c s).2 := by
  by_cases hs : s.inst.state = .uninitialized
  · cases hv : validate c with
    | none => rw [opInstantiate_valid hs hv]; exact closed_finishInstantiate hP (closed_configured hP hc h)
    | some e =>
      rw [opInstantiate_invalid hs hv]
      exact closed_raise hP e (closed_logEvents hP (fun e he => hc e (List.mem_append_left _ he))
        (hP.congr h rfl rfl rfl rfl))
  · rw [opInstantiate_guard c hs]; exact closed_raise hP _ h

theorem closed_reseed (seed : Option (List Byte)) (m : BitVec 4) (h : P s) :
    P (orRaise (reseedCore seed m s) State.succeed).2 :=
  closed_orRaise hP (closed_reseedCore hP seed m h) fun _ ht => closed_succeed hP ht

theorem closed_opReseed (mul : BitVec 4) (seedp : Bool) (a0 : HostAddr) (h : P s) :
    P (opReseed mul seedp a0 s).2 := by
  unfold opReseed
  split
  · exact closed_raise hP _ h
  · split
    · exact closed_raise hP _ h
    · split
      · have hread : P (s.logEvent (seedRead s.mem a0 (entropySizeFor s.inst.dfDisabled mul))) := hP.event rfl h
        unfold reseedWithSeed
        simp only
        split
        · exact closed_raise hP _ hread
        · exact closed_reseed hP _ mul hread
      all_goals exact closed_reseed hP none mul h

theorem closed_generatePolicy (pr : Bool) (h : P s) : P (generatePolicy pr s).2 := by
  obtain ⟨-, -, hp⟩ | ⟨-, hp⟩ | ⟨hp, -⟩ := generatePolicy_cases pr s <;> rw [hp]
  · exact closed_reseedCore hP _ _ h
  · exact h
  · exact h

theorem closed_generateOutput (dst : Dst) (h : P s) : P (generateOutput dst s).state := by
  unfold generateOutput
  split
  · split
    · exact closed_collectBurst hP _ _ (closed_hwProgram hP _ h)
    · have hcollect := closed_collectBurst hP .scratch s.inst.entropySize.toNat (closed_hwProgram hP .entropy h)
      simp only
      split
      exacts [hcollect, closed_putBytes hP _ _ _ hcollect]
  all_goals exact closed_collectBurst hP _ _ (closed_hwProgram hP _ h)

theorem closed_opGenerate (dst : Dst) (size : Nat) (pr : Bool) (h : P s) : P (opGenerate dst size pr s).state := by
  have hpolicy := closed_generatePolicy hP pr h
  have houtput := closed_generateOutput hP dst hpolicy
  unfold opGenerate
  split
  · exact closed_raise hP _ h
  · split
    · exact closed_raise hP _ h
    · simp only
      split
      · exact closed_raise hP _ hpolicy
      · split
        · exact closed_raise hP _ houtput
        · exact hP.congr houtput rfl rfl rfl rfl

theorem closed_opUninstantiate (h : P s) : P (opUninstantiate s).2 := by
  by_cases hs : s.inst.state = .uninitialized
  · rw [opUninstantiate_guard hs]; exact closed_raise hP _ h
  · rw [opUninstantiate_accepted hs]
    exact hP.congr (closed_hwHoldReset hP (closed_zeroizeSeedRegs hP h)) rfl rfl rfl rfl

theorem closed_opRunKat (h : P s) : P (opRunKat s).2 := by
  have hinst := closed_opInstantiate hP (c := katConfig s.params) (fun _ he => by cases he) h
  have hgen := closed_opGenerate hP .scratch 32 false hinst
  unfold opRunKat
  simp only
  split_ifs
  exacts [hinst, hgen, closed_raise hP _ hgen, closed_opUninstantiate hP hgen]

theorem closed_opRunHealthTest (h : P s) : P (opRunHealthTest s).2 := by
  have hinst := closed_opInstantiate hP (c := healthConfig s.params) (fun _ he => by cases he) h
  unfold opRunHealthTest
  simp only
  split_ifs
  exacts [hinst, closed_opUninstantiate hP hinst]

/-- Every command of the host keeps what its accesses keep. -/
theorem closed_exec {c : Command} {t : State} (h : P s.beginCommand) (ht : exec (decode c) s = .next t) : P t := by
  by_cases hc : Malformed c
  · rw [exec_of_malformed hc] at ht
    cases ht
    exact hP.congr h rfl rfl rfl rfl
  · have hcmd := HostCommand.of_not_malformed hc
    generalize decode c = i at hcmd ht
    cases hcmd with
    | instantiate mode pr dfdis mul seedp persp ha =>
      rw [exec_instantiate _ _ _ _ _ _ ha] at ht
      cases ht
      exact closed_opInstantiate hP (InstConfig.noAccess_record _ _ _ _ _ _ _ _) h
    | reseed mul ha =>
      rw [exec_reseed _ ha] at ht
      cases ht
      exact closed_opReseed hP mul _ _ h
    | generate pr size ha =>
      rw [exec_generate _ _ ha] at ht
      cases ht
      exact closed_opGenerate hP _ _ pr h
    | uninstantiate => cases ht; exact closed_opUninstantiate hP h
    | runKat => cases ht; exact closed_opRunKat hP h
    | runHealthTest => cases ht; exact closed_opRunHealthTest hP h

end

/-! ## The registers accessed (10_state.md R38, R42) -/

/-- Every event is one the commands may make, and `OSC_EN` is as it was or zero. -/
def OnlyAllowed (oscEn : Word) (s : State) : Prop :=
  (∀ e ∈ s.log, AllowedEvent s.params e) ∧ (s.port.oscEn = oscEn ∨ s.port.oscEn = 0)

theorem allowed_rd {r : PortReg} (hr : r.IsRead) (p : Params) (v : Word) : AllowedEvent p (.rd (portAddr p r) v) := by
  obtain rfl | rfl | rfl := hr
  exacts [.inl rfl, .inr (.inl rfl), .inr (.inr rfl)]

theorem allowed_wr {r : PortReg} (hr : r.IsWritten) (p : Params) (v : Word) :
    AllowedEvent p (.wr (portAddr p r) v) := by
  obtain rfl | rfl | ⟨k, rfl⟩ | ⟨k, rfl⟩ := hr
  exacts [.inl rfl, .inr (.inl rfl), .inr (.inr (.inl ⟨k, rfl⟩)), .inr (.inr (.inr ⟨k, rfl⟩))]

/-- A write of another register leaves `OSC_EN` or, asserting the reset, clears it. -/
theorem write32_oscEn {r : PortReg} (hr : r ≠ .oscEn) (v : Word) (s : State) :
    (write32 r v s).port.oscEn = s.port.oscEn ∨ (write32 r v s).port.oscEn = 0 := by
  unfold write32 writePort
  simp only [State.logEvent_port]
  split_ifs
  · exact .inr rfl
  · exact .inl rfl
  · exact .inl rfl
  · cases r
    case oscEn => exact absurd rfl hr
    all_goals exact .inl rfl

theorem onlyAllowed_closed (oscEn : Word) : CommandClosed (OnlyAllowed oscEn) where
  read {r s} hr h := by
    have hf := read32_frame r s
    refine ⟨?_, by rw [hf.oscEn]; exact h.2⟩
    rw [hf.params, read32_log]
    exact List.forall_mem_cons.2 ⟨allowed_rd hr _ _, h.1⟩
  write {r s} v hr h := by
    obtain ⟨hf, -, -, hlog⟩ := write32_frame r v s
    have hosc : r ≠ .oscEn := by rintro rfl; simp [PortReg.IsWritten] at hr
    refine ⟨?_, ?_⟩
    · rw [hf.params, hlog]
      exact List.forall_mem_cons.2 ⟨allowed_wr hr _ _, h.1⟩
    · obtain ho | ho := write32_oscEn hosc v s
      · rw [ho]; exact h.2
      · exact .inr ho
  event {e s} he h := by
    refine ⟨List.forall_mem_cons.2 ⟨?_, h.1⟩, h.2⟩
    cases e <;> trivial
  store a b h := ⟨List.forall_mem_cons.2 ⟨trivial, h.1⟩, h.2⟩
  congr h hport hlog hparams _ := by
    unfold OnlyAllowed
    rw [hport, hlog, hparams]
    exact h

/-- On a legal map no access a command may make is one of `OSC_EN`. -/
theorem oscEn_not_allowed {p : Params} (hm : MapOk p.map) (v : Word) :
    ¬ AllowedEvent p (.rd (portAddr p .oscEn) v) ∧ ¬ AllowedEvent p (.wr (portAddr p .oscEn) v) := by
  constructor
  · rintro (h | h | h) <;> cases portAddr_inj hm h
  · rintro (h | h | ⟨k, h⟩ | ⟨k, h⟩) <;> cases portAddr_inj hm h

/-- Settles O17: every single access keeps the log within the allowed ones, and `OSC_EN` has an address of its own. -/
theorem commandsAccessOnlyTheirRegisters : Obligations.CommandsAccessOnlyTheirRegisters := by
  intro s t c ht
  have hstart : OnlyAllowed s.port.oscEn s.beginCommand := ⟨by simp, .inl rfl⟩
  obtain ⟨hlog, hosc⟩ := closed_exec (onlyAllowed_closed s.port.oscEn) hstart ht
  rw [(exec_keepsHost _ s t ht).params] at hlog
  exact ⟨hlog, fun hm v => ⟨fun h => (oscEn_not_allowed hm v).1 (hlog _ h), fun h => (oscEn_not_allowed hm v).2 (hlog _ h)⟩,
    hosc⟩

/-! ## Host memory stays in its canonical form -/

theorem memoryWf_closed : CommandClosed fun s => Memory.wf s.mem = true where
  read _ h := by rw [(read32_frame _ _).mem]; exact h
  write v _ h := by rw [(write32_frame _ v _).1.mem]; exact h
  event _ h := h
  store a b h := memWriteBytes_wf _ h a b
  congr h _ _ _ hmem := by rw [hmem]; exact h

end Sys2Proof.Machine
end

section
/-! The invariant of the machine (10_state.md R26): what a validated configuration is, that no operation spoils it, and
that every command leaves a consistent machine. -/

namespace Sys2Proof.Machine

/-! ## Validation (40_core_operations.md R153) -/

/-- A configuration that passes V1 to V6b in a mode. -/
structure ValidConfig (c : InstConfig) (mode : Mode) : Prop where
  names : modeOfBits c.mode = some mode
  ptrng : mode = .ptrng → c.life = 0 ∧ c.seed = none ∧ c.pers = none ∧ c.pr = false
  seed : mode ≠ .ptrng → (c.seed.isSome = true ↔ mode = .drng)
  life : mode ≠ .ptrng → 1 ≤ c.life.toNat ∧ c.life.toNat ≤ 2 ^ 48
  multiplier : mulLegal c.dfdis c.mul = true

theorem validate_eq_none_iff {c : InstConfig} : validate c = none ↔ ∃ mode, ValidConfig c mode := by
  unfold validate
  constructor
  · intro h
    split at h
    · cases h
    · next mode hmode =>
      split_ifs at h with h1 h2 h3 h4 h5
      refine ⟨mode, hmode, ?_, ?_, ?_, by simpa using h5⟩
      · intro hp
        simpa [hp, Option.isSome_iff_ne_none] using h1
      · intro hp
        cases mode with
        | hrng => simpa using h3
        | drng => simpa [Option.isSome_iff_ne_none] using h2
        | ptrng => exact absurd rfl hp
      · intro hp
        simp only [hp, ne_eq, not_false_eq_true, true_and, not_or, not_lt] at h4
        exact h4
  · rintro ⟨mode, hmode, hptrng, hseed, hlife, hmul⟩
    rw [hmode]
    cases mode with
    | hrng =>
      obtain ⟨hmin, hmax⟩ := hlife (by simp)
      have hnone : c.seed = none := by simpa using hseed (by simp)
      simp [hnone, hmul]
      exact ⟨by omega, hmax⟩
    | drng =>
      obtain ⟨hmin, hmax⟩ := hlife (by simp)
      obtain ⟨b, hsome⟩ := Option.isSome_iff_exists.1 ((hseed (by simp)).2 rfl)
      simp [hsome, hmul]
      exact ⟨by omega, hmax⟩
    | ptrng =>
      obtain ⟨hl, hsd, hp, hpr⟩ := hptrng rfl
      simp [hl, hsd, hp, hpr, hmul]

/-! ## A ready configuration -/

/-- What the invariant says of a configured device in every `I.State`: it passed validation and is within its seed life. -/
structure Instance.Ready (i : Instance) : Prop where
  contract : i.PtrngContract
  counters : i.randBytesSinceReseed = 32 * i.generateCallsSinceReseed
  configured : i.Configured
  withinLife : i.WithinLife

/-- The window and `I.State` are no part of it. -/
theorem Instance.Ready.congr {i j : Instance} (h : i.Ready) (hj : j = { i with win := j.win, state := j.state }) :
    j.Ready := by
  obtain ⟨hc, hn, ⟨hmul, hsize, hlife, hseed⟩, hw⟩ := h
  rw [hj]
  exact ⟨hc, hn, ⟨hmul, hsize, hlife, hseed⟩, hw⟩

/-- A reseed with a legal multiplier starts a new seed life (R165, R166). -/
theorem Instance.Ready.reseeded {i : Instance} (h : i.Ready) {m : BitVec 4} (hm : mulLegal i.dfDisabled m = true) :
    (reseededInst m i).Ready := by
  obtain ⟨hc, -, ⟨-, -, hlife, hseed⟩, -⟩ := h
  refine ⟨hc, rfl, ⟨hm, entropySize_toNat hm, hlife, hseed⟩, ?_, ?_⟩ <;> intro _ <;> simp [reseededInst]

/-- The seed life allows one more call (R172, R173). -/
def Instance.CallLeft (i : Instance) : Prop :=
  (i.mode = .hrng → i.generateCallsSinceReseed.toNat < i.seedLife.toNat) ∧
    (i.mode = .drng → i.generateCallsSinceReseed.toNat ≤ i.seedLife.toNat)

/-- A call the seed life allows is counted within it (R176). -/
theorem Instance.Ready.counted {i : Instance} (h : i.Ready) (hleft : i.CallLeft) : (countedInst i).Ready := by
  obtain ⟨hc, hn, ⟨hmul, hsize, hlife, hseed⟩, -⟩ := h
  have hbound := i.seedLife.isLt
  have hnext : (i.generateCallsSinceReseed + 1).toNat ≤ i.generateCallsSinceReseed.toNat + 1 := by
    rw [BitVec.toNat_add]
    exact Nat.mod_le _ _
  refine ⟨hc, ?_, ⟨hmul, hsize, hlife, hseed⟩, fun hm => ?_, fun hm => ?_⟩
  · simp only [countedInst, hn]
    ring
  · exact hnext.trans (hleft.1 hm)
  · exact hnext.trans (Nat.succ_le_succ (hleft.2 hm))

/-- A validated configuration, stored over the zero registers, is ready (R152 step 5). -/
theorem ValidConfig.ready {c : InstConfig} {mode : Mode} (h : ValidConfig c mode) {s : State}
    (hs : s.inst = Instance.zero) : (storeConfig c s).inst.Ready := by
  obtain ⟨hmode, hptrng, hseed, hlife, hmul⟩ := h
  have hlife49 : mode ≠ .ptrng → (c.life.setWidth 49).toNat = c.life.toNat := by
    intro hm
    have := hlife hm
    rw [BitVec.toNat_setWidth]
    omega
  refine ⟨?_, ?_, ⟨hmul, entropySize_toNat hmul, ?_, ?_⟩, ?_, ?_⟩ <;>
    simp only [storeConfig, hs, hmode, Option.getD_some, Instance.zero, Bool.or_false]
  · intro hm
    obtain ⟨hl, hsd, hp, hpr⟩ := hptrng hm
    simp [hl, hsd, hp, hpr]
  · rfl
  · intro hm
    rw [hlife49 hm]
    exact hlife hm
  · by_cases hm : mode = .ptrng
    · simp [hm, (hptrng hm).2.1]
    · exact hseed hm
  · simp
  · simp

/-! ## Consistent machines -/

/-- The invariant's part about the device and `RESET` (10_state.md R26, R37). -/
structure State.Consistent (s : State) : Prop where
  zeroed : s.inst.state = .uninitialized → s.inst = Instance.zero
  configured : s.inst.state = .healthy → s.inst.Configured
  ptrngContract : s.inst.PtrngContract
  counters : s.inst.randBytesSinceReseed = 32 * s.inst.generateCallsSinceReseed
  withinLife : s.inst.state = .healthy → s.inst.WithinLife
  released : s.inst.state = .healthy → s.held = false
  quiet : s.inst.state = .uninitialized ∨ s.held = true → s.port = Port.zeroed s.port.reset s.port.coreOutput

theorem State.Inv.consistent {s : State} (h : s.Inv) : s.Consistent :=
  ⟨h.zeroInstance, h.configured, h.ptrngContract, h.counters, h.withinLife, h.released, h.quiet⟩

/-- A ready configuration on hardware that is not held. -/
structure State.Live (s : State) : Prop where
  ready : s.inst.Ready
  released : s.held = false

theorem State.Consistent.live {s : State} (h : s.Consistent) (hs : s.inst.state = .healthy) : s.Live :=
  ⟨⟨h.ptrngContract, h.counters, h.configured hs, h.withinLife hs⟩, h.released hs⟩

theorem State.Live.consistent {s : State} (h : s.Live) (hs : s.inst.state ≠ .uninitialized) : s.Consistent where
  zeroed h0 := absurd h0 hs
  configured _ := h.ready.configured
  ptrngContract := h.ready.contract
  counters := h.ready.counters
  withinLife _ := h.ready.withinLife
  released _ := h.released
  quiet hq := by simp [hs, h.released] at hq

/-- Operations that write neither the configuration nor `RESET` keep a live machine live. -/
theorem State.Live.congr {s t : State} (h : s.Live)
    (hi : t.inst = { s.inst with win := t.inst.win, state := t.inst.state }) (hr : t.port.reset = s.port.reset)
    (hp : t.params = s.params) : t.Live :=
  ⟨h.ready.congr hi, (State.held_congr hr hp).trans h.released⟩

theorem State.Live.raise {s : State} (h : s.Live) (e : Status) : (s.raise e).2.Live := h.congr rfl rfl rfl

theorem State.Live.succeed {s : State} (h : s.Live) : s.succeed.2.Live := h.congr rfl rfl rfl

theorem State.Live.reseedCore {s : State} (h : s.Live) (seed : Option (List Byte)) {m : BitVec 4}
    (hm : mulLegal s.inst.dfDisabled m = true) : (reseedCore seed m s).2.Live := by
  have ho := reseedCore_outcome seed m s
  exact ⟨(h.ready.reseeded hm).congr ho.inst, (State.held_congr ho.reset ho.params).trans h.released⟩

theorem State.Live.orRaise {r : Option Status × State} {go : State → Status × State} (h : r.2.Live)
    (hgo : ∀ t : State, t.Live → (go t).2.Live) : (orRaise r go).2.Live := by
  unfold Machine.orRaise
  split
  exacts [h.raise _, hgo _ h]

/-! ## The core operations -/

/-- An operation that ended with a success state other than UNINITIALIZED did not leave it. -/
theorem Ended.initialized {ok : RunState} {r : Status × State} (h : Ended ok r)
    (hok : r.1 = .success → ok ≠ .uninitialized) : r.2.inst.state ≠ .uninitialized := by
  rw [h.state]
  by_cases hs : r.1 = .success
  · rw [if_pos hs]; exact hok hs
  · rw [if_neg hs]; split <;> simp

theorem State.Live.finishInstantiate {s : State} (h : s.Live) : (finishInstantiate s).2.Live := by
  by_cases hm : s.inst.mode = .ptrng
  · rw [finishInstantiate_ptrng hm]; exact h.congr rfl rfl rfl
  · rw [finishInstantiate_reseeds hm]
    exact (h.reseedCore _ h.ready.configured.multiplier).orRaise fun t ht => ht.congr rfl rfl rfl

theorem live_configured {c : InstConfig} (hv : validate c = none) {s : State} (hs : s.inst = Instance.zero)
    (hm : s.params.map.resetAssert ≠ 0) : (configured c s).Live := by
  obtain ⟨mode, hvalid⟩ := validate_eq_none_iff.1 hv
  unfold configured
  rw [hwReset_eq (by exact hm)]
  exact ⟨hvalid.ready (by simp [clearStatistics, hs, Instance.zero]), State.held_of_released rfl⟩

theorem raisedState_ne_healthy {e : Status} (h : e.IsFailure) (old : RunState) : raisedState e old ≠ .healthy := by
  rw [raisedState_of_isFailure h]
  split <;> simp

theorem consistent_opInstantiate (c : InstConfig) {s : State} (h : s.Consistent) (hs : s.inst.state = .uninitialized)
    (hm : s.params.map.resetAssert ≠ 0) : (opInstantiate c s).2.Consistent := by
  have hended := ended_opInstantiate c hs
  have hzero := h.zeroed hs
  cases hv : validate c with
  | none =>
    refine State.Live.consistent ?_ (hended.initialized (by simp))
    rw [opInstantiate_valid hs hv]
    exact (live_configured hv hzero hm).finishInstantiate
  | some e =>
    have hst : (opInstantiate c s).2.inst.state ≠ .uninitialized := hended.initialized (by simp)
    rw [opInstantiate_invalid hs hv] at hst ⊢
    have hfail := raisedState_ne_healthy (validate_isFailure hv) s.inst.state
    exact
      { zeroed := fun h0 => absurd h0 hst
        configured := fun h1 => absurd h1 hfail
        ptrngContract := h.ptrngContract
        counters := rfl
        withinLife := fun h1 => absurd h1 hfail
        released := fun h1 => absurd h1 hfail
        quiet := fun hq => h.quiet (.inl hs) }

theorem State.Live.opReseed {s : State} (h : s.Live) (mul : BitVec 4) (seedp : Bool) (a0 : HostAddr)
    (hs : s.inst.state = .healthy) (hm : s.inst.mode ≠ .ptrng) : (opReseed mul seedp a0 s).2.Live := by
  cases hr : reseedReject seedp mul s.inst with
  | some e => rw [opReseed_rejected hs hm hr]; exact h.raise e
  | none =>
    obtain ⟨-, -, hmul⟩ := reseedReject_eq_none_iff.1 hr
    cases hmode : s.inst.mode with
    | hrng =>
      rw [opReseed_hrng hs hmode hr]
      exact (h.reseedCore none hmul).orRaise fun t ht => ht.succeed
    | drng =>
      have hread : (s.logEvent (seedRead s.mem a0 (entropySizeFor s.inst.dfDisabled mul))).Live := h.congr rfl rfl rfl
      rw [opReseed_drng hs hmode hr]
      unfold reseedWithSeed
      simp only
      split
      · exact hread.raise _
      · exact (hread.reseedCore _ hmul).orRaise fun t ht => ht.succeed
    | ptrng => exact absurd hmode hm

/-- A call that passes the seed policy has a call left on the seed, its own reseed included (R172, R173). -/
theorem State.Live.generatePolicy {s : State} (h : s.Live) (pr : Bool) :
    (generatePolicy pr s).2.Live ∧ ((generatePolicy pr s).1 = none → (generatePolicy pr s).2.inst.CallLeft) := by
  obtain ⟨hm, hdue, hp⟩ | ⟨hm, hp⟩ | ⟨hp, hhrng, hdrng⟩ := generatePolicy_cases pr s <;> rw [hp]
  · have hlive := h.reseedCore none h.ready.configured.multiplier
    refine ⟨hlive, fun _ => ?_⟩
    have hlife := h.ready.configured.life (by simp [hm])
    have ho := (reseedCore_outcome none s.inst.dfLenMul s).inst
    rw [ho]
    exact ⟨fun _ => hlife.1, fun _ => Nat.zero_le _⟩
  · exact ⟨h, by simp⟩
  · refine ⟨h, fun _ => ⟨fun hm => ?_, fun hm => ?_⟩⟩
    · have := hhrng hm
      simp only [selfHealDue, Bool.or_eq_false_iff, decide_eq_false_iff_not, not_le] at this
      exact this.1
    · have := (hdrng hm).1
      unfold drngLifeSpent at this
      split at this <;> rw [decide_eq_false_iff_not] at this
      · exact (not_le.1 this).le
      · exact not_lt.1 this

theorem State.Live.opGenerate {s : State} (h : s.Live) (dst : Dst) (size : Nat) (pr : Bool)
    (hs : s.inst.state = .healthy) : (opGenerate dst size pr s).state.Live := by
  obtain ⟨hlive, hleft⟩ := h.generatePolicy pr
  have ho := generateOutput_keep dst (Machine.generatePolicy pr s).2
  have hout := hlive.congr ho.inst ho.reset ho.host.params
  cases hr : generateReject size pr s.inst with
  | some e => rw [opGenerate_rejected hs hr]; exact h.raise e
  | none =>
    cases hp : (Machine.generatePolicy pr s).1 with
    | some e => rw [opGenerate_policy_fails hs hr hp]; exact hlive.raise e
    | none =>
      cases hf : (generateOutput dst (Machine.generatePolicy pr s).2).fail with
      | some e => rw [opGenerate_output_fails hs hr hp hf]; exact hout.raise e
      | none =>
        rw [opGenerate_done hs hr hp hf]
        have hcall : (generateOutput dst (Machine.generatePolicy pr s).2).state.inst.CallLeft := by
          rw [ho.inst]; exact hleft hp
        exact ⟨hout.ready.counted hcall, hout.released⟩

/-- `UNINSTANTIATE`: 24 zero writes, the reset asserted, the zero registers (R180). -/
theorem opUninstantiate_eq {s : State} (hs : s.inst.state ≠ .uninitialized) (hm : s.params.map.resetAssert ≠ 0) :
    opUninstantiate s =
      (.success,
        { s with
          inst := Instance.zero
          port := Port.zeroed s.params.map.resetAssert (Config.coreOutputAfterReset s.resetCount)
          result := 0x00
          resetCount := s.resetCount + 1
          log := (zeroizeEvents s.params ++ [Event.wr (portAddr s.params .reset) s.params.map.resetAssert]).reverse ++
            s.log }) := by
  rw [opUninstantiate_accepted hs, List.reverse_append, List.append_assoc]
  cases hh : s.held
  · rw [zeroizeSeedRegs_released hh, hwHoldReset_eq (by exact hm)]; rfl
  · rw [zeroizeSeedRegs_held hh, hwHoldReset_eq (by exact hm)]; rfl

theorem consistent_opUninstantiate {s : State} (hs : s.inst.state ≠ .uninitialized)
    (hm : s.params.map.resetAssert ≠ 0) : (opUninstantiate s).2.Consistent := by
  rw [opUninstantiate_eq hs hm]
  exact
    { zeroed := fun _ => rfl
      configured := fun h => by cases h
      ptrngContract := fun h => by cases h
      counters := rfl
      withinLife := fun h => by cases h
      released := fun h => by cases h
      quiet := fun _ => rfl }

/-! ## The self-tests (43_self_test.md) -/

theorem consistent_opGenerate (dst : Dst) (size : Nat) (pr : Bool) {s : State} (h : s.Consistent)
    (hs : s.inst.state = .healthy) : (opGenerate dst size pr s).state.Consistent :=
  ((h.live hs).opGenerate dst size pr hs).consistent ((ended_opGenerate dst size pr hs).initialized (by simp))

theorem consistent_opRunKat {s : State} (h : s.Consistent) (hs : s.inst.state = .uninitialized)
    (hm : s.params.map.resetAssert ≠ 0) : (opRunKat s).2.Consistent := by
  have hinst := consistent_opInstantiate (katConfig s.params) h hs hm
  have hended := ended_opInstantiate (katConfig s.params) hs
  have hparams := (hostFrame_opInstantiate (katConfig s.params) s).params
  unfold opRunKat
  simp only
  split_ifs with h1 h2 h3
  · exact hinst
  all_goals
    have hhealthy := hended.state_of_success (not_not.1 h1)
    have hgen := consistent_opGenerate .scratch 32 false hinst hhealthy
    have hgended := ended_opGenerate .scratch 32 false hhealthy
  · exact hgen
  · have hstate := hgended.state_of_success (not_not.1 h2)
    exact ((hgen.live hstate).raise _).consistent (by simp [raisedState, isCatastrophic])
  · have hstate := hgended.state_of_success (not_not.1 h2)
    have hgparams := (hostFrame_opGenerate .scratch 32 false (opInstantiate (katConfig s.params) s).2).params
    exact consistent_opUninstantiate (by rw [hstate]; simp) (by rw [hgparams, hparams]; exact hm)

theorem consistent_opRunHealthTest {s : State} (h : s.Consistent) (hs : s.inst.state = .uninitialized)
    (hm : s.params.map.resetAssert ≠ 0) : (opRunHealthTest s).2.Consistent := by
  have hinst := consistent_opInstantiate (healthConfig s.params) h hs hm
  have hended := ended_opInstantiate (healthConfig s.params) hs
  have hparams := (hostFrame_opInstantiate (healthConfig s.params) s).params
  unfold opRunHealthTest
  simp only
  split_ifs with h1
  · exact hinst
  · have hhealthy := hended.state_of_success (not_not.1 h1)
    exact consistent_opUninstantiate (by rw [hhealthy]; simp) (by rw [hparams]; exact hm)

/-! ## Every command -/

theorem HostCommand.consistent {i : Instr} (h : HostCommand i) {s t : State} (hs : Accepts i s.inst)
    (hc : s.beginCommand.Consistent) (hm : s.params.map.resetAssert ≠ 0) (ht : exec i s = .next t) : t.Consistent := by
  have hended := h.ended hs ht
  cases h with
  | instantiate mode pr dfdis mul seedp persp ha =>
    rw [exec_instantiate _ _ _ _ _ _ ha] at ht
    cases ht
    exact consistent_opInstantiate _ hc hs hm
  | reseed mul ha =>
    obtain ⟨e, he⟩ := hended
    rw [exec_reseed _ ha] at ht
    cases ht
    exact ((hc.live hs.1).opReseed mul _ _ hs.1 hs.2).consistent (he.initialized (by simp [successState]))
  | generate pr size ha =>
    rw [exec_generate _ _ ha] at ht
    cases ht
    exact consistent_opGenerate _ _ pr hc hs
  | uninstantiate => cases ht; exact consistent_opUninstantiate hs hm
  | runKat => cases ht; exact consistent_opRunKat hc hs hm
  | runHealthTest => cases ht; exact consistent_opRunHealthTest hc hs hm

theorem statusCode_le (e : Status) : (statusCode e).toNat ≤ 0x0D := by cases e <;> decide

theorem clean_closed : CommandClosed State.Clean where
  read hr h := clean_read32 hr h
  write v hr h := clean_write32 hr v h
  event {_ s} he h := ⟨h.1, ((onlyAllowed_closed s.port.oscEn).event he ⟨h.2, .inl rfl⟩).1⟩
  store _ _ h := ⟨h.1, clean_cons h.2 trivial⟩
  congr h hport hlog hparams _ := h.of_eq hport hlog hparams

/-- A command that was refused changed nothing the invariant speaks of but `RESULT`. -/
theorem State.Inv.onlyResult {s : State} (h : s.Inv) {code : BitVec 8} (hcode : code.toNat ≤ 0x0D) :
    (s.onlyResult code).Inv :=
  { h with resultCode := hcode }

theorem exec_keeps_inv {c : Command} {s t : State} (h : s.Inv) (ht : exec (decode c) s = .next t) : t.Inv := by
  by_cases hc : Malformed c
  · rw [exec_of_malformed hc] at ht
    cases ht
    exact h.onlyResult (by decide)
  · have hcmd := HostCommand.of_not_malformed hc
    by_cases hs : Accepts (decode c) s.inst
    · obtain ⟨e, he⟩ := hcmd.ended hs ht
      have hcons := hcmd.consistent hs (s := s) { h.consistent with } h.map.assert ht
      have hclean := closed_exec clean_closed (s := s) ⟨h.reserved, by simp⟩ ht
      exact
        { memory := closed_exec memoryWf_closed (s := s) h.memory ht
          resultCode := by rw [he.result]; exact statusCode_le e
          zeroInstance := hcons.zeroed
          configured := hcons.configured
          ptrngContract := hcons.ptrngContract
          counters := hcons.counters
          withinLife := hcons.withinLife
          released := hcons.released
          quiet := hcons.quiet
          reserved := hclean.1
          map := by rw [(exec_keepsHost _ s t ht).params]; exact h.map }
    · rw [hcmd.exec_of_not_accepts hs] at ht
      cases ht
      exact h.onlyResult (by decide)

/-- Settles O12: the command at the index keeps the invariant, and the index is no part of it. -/
theorem stepKeepsInv : Obligations.StepKeepsInv := by
  intro s t h hstep
  obtain ⟨c, u, -, hu, rfl⟩ := step_inv hstep
  exact { exec_keeps_inv h hu with }

/-- Settles O11: the registers right after creation are the zero ones, on the default map. -/
theorem invHoldsAtReset : Obligations.InvHoldsAtReset :=
  { memory := reset_memory_wf
    resultCode := by decide
    zeroInstance := fun _ => rfl
    configured := fun h => by cases h
    ptrngContract := fun h => by cases h
    counters := rfl
    withinLife := fun h => by cases h
    released := fun h => by cases h
    quiet := fun _ => rfl
    reserved := ⟨rfl, rfl, .inl rfl, rfl⟩
    map := defaultMap_ok }

end Sys2Proof.Machine
end

section
/-! What the operations leave alone: host memory but for what is stored there (20_memory.md R85), the configuration
registers (10_state.md R22, R23), the statistics (40_core_operations.md R176). -/

namespace Sys2Proof.Machine

/-! ## Host memory -/

theorem mem_orRaise {r : Option Status × State} {go : State → Status × State} {m : Memory} (h : r.2.mem = m)
    (hgo : ∀ t, (go t).2.mem = t.mem) : (orRaise r go).2.mem = m := by
  unfold orRaise
  split
  · exact h
  · exact (hgo _).trans h

theorem mem_reseedCore (seed : Option (List Byte)) (m : BitVec 4) (s : State) : (reseedCore seed m s).2.mem = s.mem :=
  (reseedCore_outcome seed m s).mem

theorem mem_finishInstantiate (s : State) : (finishInstantiate s).2.mem = s.mem := by
  unfold finishInstantiate
  split
  · rfl
  all_goals exact mem_orRaise (mem_reseedCore _ _ s) fun _ => rfl

theorem mem_opInstantiate (c : InstConfig) (s : State) : (opInstantiate c s).2.mem = s.mem := by
  by_cases hs : s.inst.state = .uninitialized
  · cases hv : validate c with
    | none => rw [opInstantiate_valid hs hv, mem_finishInstantiate]; exact (hwReset_frame _).mem
    | some e => rw [opInstantiate_invalid hs hv]; rfl
  · rw [opInstantiate_guard c hs]; rfl

theorem mem_opReseed (mul : BitVec 4) (seedp : Bool) (a0 : HostAddr) (s : State) :
    (opReseed mul seedp a0 s).2.mem = s.mem := by
  unfold opReseed
  split
  · rfl
  · split
    · rfl
    · split
      · unfold reseedWithSeed
        simp only
        split
        · rfl
        · exact mem_orRaise (mem_reseedCore _ _ _) fun _ => rfl
      all_goals exact mem_orRaise (mem_reseedCore _ _ s) fun _ => rfl

theorem mem_opUninstantiate (s : State) : (opUninstantiate s).2.mem = s.mem := by
  by_cases hs : s.inst.state = .uninitialized
  · rw [opUninstantiate_guard hs]; rfl
  · rw [opUninstantiate_accepted hs]
    exact (hwHoldReset_frame _).mem.trans (zeroizeSeedRegs_frame s).mem

theorem mem_generatePolicy (pr : Bool) (s : State) : (generatePolicy pr s).2.mem = s.mem := by
  obtain ⟨-, -, hp⟩ | ⟨-, hp⟩ | ⟨hp, -⟩ := generatePolicy_cases pr s <;> rw [hp]
  exact mem_reseedCore _ _ s

/-- A `GENERATE` changes no byte outside the 32 of its destination. -/
theorem opGenerate_outside (dst : Dst) (size : Nat) (pr : Bool) (s : State) {j : Nat} (hj : ¬ Covers dst 0 32 j) :
    memRead (opGenerate dst size pr s).state.mem j = memRead s.mem j := by
  have hpolicy := mem_generatePolicy pr s
  have hout : memRead (generateOutput dst (generatePolicy pr s).2).state.mem j = memRead s.mem j := by
    rw [(generateOutput_keep dst _).outside j hj, hpolicy]
  unfold opGenerate
  split
  · rfl
  · split
    · rfl
    · simp only
      split
      · exact congrArg (memRead · j) hpolicy
      · split <;> exact hout

theorem opRunKat_memory (s : State) (j : Nat) : memRead (opRunKat s).2.mem j = memRead s.mem j := by
  have hinst := congrArg (memRead · j) (mem_opInstantiate (katConfig s.params) s)
  have hgen := (opGenerate_outside .scratch 32 false (opInstantiate (katConfig s.params) s).2 (j := j) id).trans hinst
  unfold opRunKat
  simp only
  split_ifs
  · exact hinst
  · exact hgen
  · exact hgen
  · rw [mem_opUninstantiate]; exact hgen

theorem mem_opRunHealthTest (s : State) : (opRunHealthTest s).2.mem = s.mem := by
  have hinst := mem_opInstantiate (healthConfig s.params) s
  unfold opRunHealthTest
  simp only
  split_ifs
  · exact hinst
  · rw [mem_opUninstantiate]; exact hinst

/-- An outcome whose next state, if it has one, has the property. -/
def NextIs (P : State → Prop) (o : Host.Outcome State Fault Refusal) : Prop := ∀ t, o = .next t → P t

theorem NextIs.next {P : State → Prop} {t : State} (h : P t) : NextIs P (.next t) := by
  rintro _ ⟨⟩; exact h

theorem NextIs.ite {P : State → Prop} {o o' : Host.Outcome State Fault Refusal} {p : Prop} [Decidable p]
    (h : NextIs P o) (h' : NextIs P o') : NextIs P (if p then o else o') := by
  split <;> assumption

theorem NextIs.refused {P : State → Prop} (r : Refusal) : NextIs P (.refused r) := by
  rintro _ ⟨⟩

theorem NextIs.mono {P Q : State → Prop} {o : Host.Outcome State Fault Refusal} (h : NextIs P o)
    (hPQ : ∀ t, P t → Q t) : NextIs Q o := fun t ht => hPQ t (h t ht)

/-- `PollField` run on its own only reads the port. -/
theorem execPollField_frame (off mask expect : Word) (timeoutUs : Nat) (s : State) :
    NextIs (fun t => t.inst = s.inst ∧ t.mem = s.mem) (execPollField off mask expect timeoutUs s) := by
  unfold execPollField
  split
  · exact .refused _
  · next r _ =>
    have hf := pollField_frame r mask expect timeoutUs s.beginCommand
    exact .next ⟨hf.inst, hf.mem⟩

theorem execReinstantiate_mem (mode : BitVec 2) (pr dfdis : Bool) (mul : BitVec 4) (seedp persp : Bool)
    (a0 : HostAddr) (s : State) :
    NextIs (fun t => t.mem = s.mem) (execReinstantiate mode pr dfdis mul seedp persp a0 s) :=
  have hun := mem_opUninstantiate s.beginCommand
  .ite (.next hun) (.next ((mem_opInstantiate _ _).trans hun))

/-- The operations that store nothing in host memory. -/
theorem exec_mem (i : Instr) (s : State) (hgen : ∀ pr size a0, i ≠ .generate pr size a0)
    (hcol : ∀ dst n, i ≠ .collectBurst dst n) (hkat : i ≠ .runKat) : NextIs (fun t => t.mem = s.mem) (exec i s) := by
  cases i with
  | instantiate mode pr dfdis mul seedp persp a0 => exact .ite (.next rfl) (.next (mem_opInstantiate _ _))
  | reseed mul seedp a0 => exact .ite (.next rfl) (.next (mem_opReseed mul seedp a0 _))
  | generate pr size a0 => exact absurd rfl (hgen pr size a0)
  | uninstantiate => exact .next (mem_opUninstantiate _)
  | runKat => exact absurd rfl hkat
  | runHealthTest => exact .next (mem_opRunHealthTest _)
  | reseedCore seed m => exact .ite (.next (mem_reseedCore seed m _)) (.refused _)
  | collectBurst dst n => exact absurd rfl (hcol dst n)
  | checkSeedPattern buf n => exact .ite (.next rfl) (.refused _)
  | df ent pers tag => exact .ite (.next rfl) (.refused _)
  | dfPack ent pers tag => exact .ite (.next rfl) (.refused _)
  | dfBcc packed i => exact .ite (.next rfl) (.refused _)
  | dfOut t => exact .next rfl
  | cbcMac key chain0 msg => exact .ite (.next rfl) (.refused _)
  | hwReset => exact .next (hwReset_frame _).mem
  | hwHoldReset => exact .next (hwHoldReset_frame _).mem
  | hwProgram sel => exact .next (keep_hwProgram sel _).mem
  | writeGroup g b => exact .next (writeGroup_frame g b _).mem
  | zeroizeSeedRegs => exact .next (zeroizeSeedRegs_frame _).mem
  | pollField off mask expect timeoutUs =>
    exact (execPollField_frame off mask expect timeoutUs s).mono fun _ h => h.2
  | reinstantiate mode pr dfdis mul seedp persp a0 => exact execReinstantiate_mem mode pr dfdis mul seedp persp a0 s
  | reserved cw a0 => exact .next rfl

/-- Settles O15: the two operations that store keep to their destination, the others store nothing. -/
theorem hostMemoryFrame : Obligations.HostMemoryFrame := by
  intro i s t ht a
  have hmem := fun h1 h2 h3 => congrArg (memRead · a) (exec_mem i s h1 h2 h3 t ht)
  cases i with
  | generate pr size a0 =>
    intro ha
    have hcov : ¬ Covers (.host a0) 0 32 a := fun ⟨h0, h1, h2⟩ => ha.elim h0 fun ha => by omega
    have hnext : NextIs (fun t => memRead t.mem a = memRead s.mem a) (exec (.generate pr size a0) s) :=
      .ite (.next rfl) (.next (opGenerate_outside (.host a0) size.toNat pr s.beginCommand hcov))
    exact hnext t ht
  | collectBurst dst n =>
    cases ht
    have ho := (collectBurst_keep dst n s.beginCommand).outside a
    cases dst with
    | host b =>
      intro ha
      exact ho fun ⟨h0, h1, h2⟩ => ha.elim h0 fun ha => by omega
    | scratch => exact ho id
  | runKat => cases ht; exact opRunKat_memory _ a
  | _ => exact hmem (by simp) (by simp) (by simp)

/-! ## The registers of the device -/

/-- The same registers but for the burst window and `I.State`. -/
def Instance.SameRegs (i j : Instance) : Prop := ∃ w st, j = { i with win := w, state := st }

theorem Instance.SameRegs.refl (i : Instance) : i.SameRegs i := ⟨i.win, i.state, rfl⟩

theorem Instance.SameRegs.of_eq {i j : Instance} (h : j = { i with win := j.win, state := j.state }) : i.SameRegs j :=
  ⟨_, _, h⟩

theorem Instance.SameRegs.trans {i j k : Instance} (h : i.SameRegs j) (h' : j.SameRegs k) : i.SameRegs k := by
  obtain ⟨w, st, rfl⟩ := h
  obtain ⟨w', st', rfl⟩ := h'
  exact ⟨w', st', rfl⟩

/-- Writing `I.State` is no change of the other registers. -/
theorem Instance.SameRegs.withState {i j : Instance} (h : i.SameRegs j) (st : RunState) :
    i.SameRegs { j with state := st } := h.trans ⟨j.win, st, rfl⟩

theorem Instance.SameRegs.counted {i j : Instance} (h : i.SameRegs j) : (countedInst i).SameRegs (countedInst j) := by
  obtain ⟨w, st, rfl⟩ := h
  exact ⟨w, st, rfl⟩

/-- A reseed writes the registers of its first two steps, whatever becomes of it (R165, R166). -/
theorem sameRegs_reseedCore (seed : Option (List Byte)) (m : BitVec 4) (s : State) :
    (reseededInst m s.inst).SameRegs (reseedCore seed m s).2.inst := .of_eq (reseedCore_outcome seed m s).inst

theorem sameRegs_orRaise {i : Instance} {r : Option Status × State} (h : i.SameRegs r.2.inst) :
    i.SameRegs (orRaise r State.succeed).2.inst := by
  unfold orRaise
  split
  · exact h.withState _
  · exact h

/-- A `RESEED` either only fails or runs its reseed (R160). -/
theorem opReseed_regs (mul : BitVec 4) (seedp : Bool) (a0 : HostAddr) (s : State) :
    s.inst.SameRegs (opReseed mul seedp a0 s).2.inst ∨
      (reseededInst mul s.inst).SameRegs (opReseed mul seedp a0 s).2.inst := by
  unfold opReseed
  split
  · exact .inl ((Instance.SameRegs.refl _).withState _)
  · split
    · exact .inl ((Instance.SameRegs.refl _).withState _)
    · split
      · unfold reseedWithSeed
        simp only
        split
        · exact .inl ((Instance.SameRegs.refl _).withState _)
        · exact .inr (sameRegs_orRaise (sameRegs_reseedCore _ mul _))
      all_goals exact .inr (sameRegs_orRaise (sameRegs_reseedCore none mul s))

/-- The block reseeds itself before this `GENERATE` (R172). -/
def Instance.Heals (pr : Bool) (i : Instance) : Prop := i.mode = .hrng ∧ selfHealDue pr i = true

/-- The registers after the seed policy: those of a reseed with the kept multiplier, if one was due. -/
theorem generatePolicy_regs (pr : Bool) (s : State) :
    (s.inst.Heals pr ∧ (reseededInst s.inst.dfLenMul s.inst).SameRegs (generatePolicy pr s).2.inst) ∨
      (¬ s.inst.Heals pr ∧ s.inst.SameRegs (generatePolicy pr s).2.inst) := by
  obtain ⟨hm, hdue, hp⟩ | ⟨hm, hp⟩ | ⟨hp, hhrng, -⟩ := generatePolicy_cases pr s <;> rw [hp]
  · exact .inl ⟨⟨hm, hdue⟩, sameRegs_reseedCore _ _ s⟩
  · exact .inr ⟨fun h => by simp [h.1] at hm, .refl _⟩
  · exact .inr ⟨fun ⟨hm, hdue⟩ => by simp [hhrng hm] at hdue, .refl _⟩

/-- The registers after a `GENERATE` that passed its checks: those after the policy, counted after a success (R176). -/
theorem opGenerate_regs (dst : Dst) {size : Nat} {pr : Bool} {s : State} (hs : s.inst.state = .healthy)
    (hr : generateReject size pr s.inst = none) :
    ((opGenerate dst size pr s).status = .success ∧
        (countedInst (generatePolicy pr s).2.inst).SameRegs (opGenerate dst size pr s).state.inst) ∨
      ((opGenerate dst size pr s).status ≠ .success ∧
        (generatePolicy pr s).2.inst.SameRegs (opGenerate dst size pr s).state.inst) := by
  have hk := generateOutput_keep dst (generatePolicy pr s).2
  cases hp : (generatePolicy pr s).1 with
  | some e =>
    rw [opGenerate_policy_fails hs hr hp]
    exact .inr ⟨(generatePolicy_isFailure hp).1, (Instance.SameRegs.refl _).withState _⟩
  | none =>
    cases ho : (generateOutput dst (generatePolicy pr s).2).fail with
    | some e =>
      rw [opGenerate_output_fails hs hr hp ho]
      exact .inr ⟨(hk.code e ho).1, (Instance.SameRegs.of_eq hk.inst).withState _⟩
    | none =>
      rw [opGenerate_done hs hr hp ho]
      exact .inl ⟨rfl, (Instance.SameRegs.of_eq hk.inst).counted⟩

/-- A `GENERATE` refused or rejected before its policy writes `I.State` at most. -/
theorem opGenerate_regs_rejected (dst : Dst) {size : Nat} {pr : Bool} {s : State}
    (h : s.inst.state ≠ .healthy ∨ generateReject size pr s.inst ≠ none) :
    (opGenerate dst size pr s).status ≠ .success ∧ s.inst.SameRegs (opGenerate dst size pr s).state.inst := by
  by_cases hs : s.inst.state = .healthy
  · obtain ⟨e, he⟩ := Option.ne_none_iff_exists'.1 (h.resolve_left (not_not_intro hs))
    rw [opGenerate_rejected hs he]
    exact ⟨(generateReject_isFailure he).1, (Instance.SameRegs.refl _).withState _⟩
  · rw [opGenerate_guard dst size pr hs]
    exact ⟨nofun, (Instance.SameRegs.refl _).withState _⟩

/-! ## The configuration registers -/

/-- The registers only `INSTANTIATE` and `UNINSTANTIATE` write (10_state.md R22, R23). -/
structure Instance.SameConfig (i j : Instance) : Prop where
  mode : j.mode = i.mode
  seedLife : j.seedLife = i.seedLife
  predResEn : j.predResEn = i.predResEn
  dfDisabled : j.dfDisabled = i.dfDisabled
  persStrPresent : j.persStrPresent = i.persStrPresent
  persStr : j.persStr = i.persStr
  initSeedPresent : j.initSeedPresent = i.initSeedPresent
  initSeed : j.initSeed = i.initSeed

theorem Instance.SameConfig.trans {i j k : Instance} (h : i.SameConfig j) (h' : j.SameConfig k) : i.SameConfig k :=
  ⟨h'.mode.trans h.mode, h'.seedLife.trans h.seedLife, h'.predResEn.trans h.predResEn, h'.dfDisabled.trans h.dfDisabled,
    h'.persStrPresent.trans h.persStrPresent, h'.persStr.trans h.persStr, h'.initSeedPresent.trans h.initSeedPresent,
    h'.initSeed.trans h.initSeed⟩

theorem sameConfig_reseeded (m : BitVec 4) (i : Instance) : i.SameConfig (reseededInst m i) :=
  ⟨rfl, rfl, rfl, rfl, rfl, rfl, rfl, rfl⟩

theorem sameConfig_counted (i : Instance) : i.SameConfig (countedInst i) := ⟨rfl, rfl, rfl, rfl, rfl, rfl, rfl, rfl⟩

theorem Instance.SameRegs.sameConfig {i j : Instance} (h : i.SameRegs j) : i.SameConfig j := by
  obtain ⟨w, st, rfl⟩ := h
  exact ⟨rfl, rfl, rfl, rfl, rfl, rfl, rfl, rfl⟩

theorem Instance.SameRegs.multiplier {i j : Instance} (h : i.SameRegs j) :
    j.dfLenMul = i.dfLenMul ∧ j.entropySize = i.entropySize := by
  obtain ⟨w, st, rfl⟩ := h
  exact ⟨rfl, rfl⟩

/-- A reseed with multiplier `m` that ran or did not. -/
def ReseedChange (m : BitVec 4) (i j : Instance) : Prop :=
  i.SameConfig j ∧ ((j.dfLenMul = i.dfLenMul ∧ j.entropySize = i.entropySize) ∨
    (j.dfLenMul = m ∧ j.entropySize = BitVec.ofNat 8 (entropySizeFor i.dfDisabled m)))

theorem reseedChange_of_regs {m : BitVec 4} {i j : Instance} (h : i.SameRegs j ∨ (reseededInst m i).SameRegs j) :
    ReseedChange m i j := by
  obtain h | h := h
  · exact ⟨h.sameConfig, .inl h.multiplier⟩
  · exact ⟨(sameConfig_reseeded m i).trans h.sameConfig, .inr h.multiplier⟩

/-- What a `GENERATE` leaves of the configuration. -/
def GenerateChange (i j : Instance) : Prop :=
  i.SameConfig j ∧ j.dfLenMul = i.dfLenMul ∧ (j.entropySize = i.entropySize ∨
    (i.mode = .hrng ∧ j.entropySize = BitVec.ofNat 8 (entropySizeFor i.dfDisabled i.dfLenMul)))

theorem GenerateChange.of_regs {i j k : Instance} (h : GenerateChange i j) (h' : j.SameRegs k) : GenerateChange i k := by
  obtain ⟨w, st, rfl⟩ := h'
  exact ⟨⟨h.1.mode, h.1.seedLife, h.1.predResEn, h.1.dfDisabled, h.1.persStrPresent, h.1.persStr, h.1.initSeedPresent,
    h.1.initSeed⟩, h.2⟩

theorem generateChange_refl (i : Instance) : GenerateChange i i :=
  ⟨⟨rfl, rfl, rfl, rfl, rfl, rfl, rfl, rfl⟩, rfl, .inl rfl⟩

theorem GenerateChange.counted {i j : Instance} (h : GenerateChange i j) : GenerateChange i (countedInst j) :=
  ⟨h.1.trans (sameConfig_counted j), h.2⟩

theorem generatePolicy_change (pr : Bool) (s : State) : GenerateChange s.inst (generatePolicy pr s).2.inst := by
  obtain ⟨⟨hm, -⟩, h⟩ | ⟨-, h⟩ := generatePolicy_regs pr s
  · have hchange : GenerateChange s.inst (reseededInst s.inst.dfLenMul s.inst) :=
      ⟨sameConfig_reseeded _ _, rfl, .inr ⟨hm, rfl⟩⟩
    exact hchange.of_regs h
  · exact (generateChange_refl _).of_regs h

theorem opGenerate_change (dst : Dst) (size : Nat) (pr : Bool) (s : State) :
    GenerateChange s.inst (opGenerate dst size pr s).state.inst := by
  have hp := generatePolicy_change pr s
  by_cases h : s.inst.state ≠ .healthy ∨ generateReject size pr s.inst ≠ none
  · exact (generateChange_refl _).of_regs (opGenerate_regs_rejected dst h).2
  · simp only [not_or, not_not] at h
    obtain ⟨-, hregs⟩ | ⟨-, hregs⟩ := opGenerate_regs dst h.1 h.2
    · exact hp.counted.of_regs hregs
    · exact hp.of_regs hregs

/-- The registers after an operation that is none of the commands. -/
theorem exec_internal_regs (i : Instr) (s : State) (hseed : ∀ seed m, i ≠ .reseedCore seed m)
    (hint : encode i = none ∨ ∃ cw a0, i = .reserved cw a0) (hre : ∀ mode pr dfdis mul seedp persp a0,
      i ≠ .reinstantiate mode pr dfdis mul seedp persp a0) :
    NextIs (fun t => s.inst.SameRegs t.inst) (exec i s) := by
  have hrefl := Instance.SameRegs.refl s.inst
  have hof : ∀ t : State, t.inst = s.inst → s.inst.SameRegs t.inst := fun t h => h ▸ hrefl
  cases i with
  | reseedCore seed m => exact absurd rfl (hseed seed m)
  | collectBurst dst n => exact .next (.of_eq (collectBurst_keep dst n s.beginCommand).inst)
  | checkSeedPattern buf n => exact .ite (.next hrefl) (.refused _)
  | df ent pers tag => exact .ite (.next hrefl) (.refused _)
  | dfPack ent pers tag => exact .ite (.next hrefl) (.refused _)
  | dfBcc packed i => exact .ite (.next hrefl) (.refused _)
  | dfOut t => exact .next hrefl
  | cbcMac key chain0 msg => exact .ite (.next hrefl) (.refused _)
  | hwReset => exact .next (hof _ (hwReset_frame s.beginCommand).inst)
  | hwHoldReset => exact .next (hof _ (hwHoldReset_frame s.beginCommand).inst)
  | hwProgram sel => exact .next (hof _ (keep_hwProgram sel s.beginCommand).inst)
  | writeGroup g b => exact .next (hof _ (writeGroup_frame g b s.beginCommand).inst)
  | zeroizeSeedRegs => exact .next (hof _ (zeroizeSeedRegs_frame s.beginCommand).inst)
  | pollField off mask expect timeoutUs =>
    exact (execPollField_frame off mask expect timeoutUs s).mono fun t h => hof t h.1
  | reserved cw a0 => exact .next hrefl
  | reinstantiate mode pr dfdis mul seedp persp a0 => exact absurd rfl (hre mode pr dfdis mul seedp persp a0)
  | _ => simp [encode] at hint

/-- Settles O16: only a reseed, a command's own or a self-heal, writes the two registers it is allowed to. -/
theorem configurationIsImmutable : Obligations.ConfigurationIsImmutable := by
  intro i s t ht
  have hint := fun h1 h2 h3 => exec_internal_regs i s h1 h2 h3 t ht
  cases i with
  | instantiate => trivial
  | uninstantiate => trivial
  | runKat => trivial
  | runHealthTest => trivial
  | reinstantiate => trivial
  | reseed mul seedp a0 =>
    have hnext : NextIs (fun t => ReseedChange mul s.inst t.inst) (exec (.reseed mul seedp a0) s) :=
      .ite (.next (reseedChange_of_regs (.inl (.refl _))))
        (.next (reseedChange_of_regs (opReseed_regs mul seedp a0 s.beginCommand)))
    obtain ⟨⟨h1, h2, h3, h4, h5, h6, h7, h8⟩, h⟩ := hnext t ht
    exact ⟨h1, h2, h3, h4, h5, h6, h7, h8, h⟩
  | reseedCore seed m =>
    have hnext : NextIs (fun t => ReseedChange m s.inst t.inst) (exec (.reseedCore seed m) s) :=
      .ite (.next (reseedChange_of_regs (.inr (sameRegs_reseedCore seed m s.beginCommand)))) (.refused _)
    obtain ⟨⟨h1, h2, h3, h4, h5, h6, h7, h8⟩, h⟩ := hnext t ht
    exact ⟨h1, h2, h3, h4, h5, h6, h7, h8, h⟩
  | generate pr size a0 =>
    have hnext : NextIs (fun t => GenerateChange s.inst t.inst) (exec (.generate pr size a0) s) :=
      .ite (.next (generateChange_refl _)) (.next (opGenerate_change (.host a0) size.toNat pr s.beginCommand))
    obtain ⟨⟨h1, h2, h3, h4, h5, h6, h7, h8⟩, h⟩ := hnext t ht
    exact ⟨h1, h2, h3, h4, h5, h6, h7, h8, h⟩
  | _ =>
    have hregs := hint (by simp) (by simp [encode]) (by simp)
    obtain ⟨h1, h2, h3, h4, h5, h6, h7, h8⟩ := hregs.sameConfig
    exact ⟨h1, h2, h3, h4, h5, h6, h7, h8, hregs.multiplier⟩

/-! ## The statistics (R176) -/

/-- The statistics after a failure and after a success, from the registers the seed policy left. -/
theorem Instance.SameRegs.statistics {i j : Instance} (h : i.SameRegs j) :
    j.randBytesTotal = i.randBytesTotal ∧ j.randBytesSinceReseed = i.randBytesSinceReseed ∧
      j.generateCallsSinceReseed = i.generateCallsSinceReseed := by
  obtain ⟨w, st, rfl⟩ := h
  exact ⟨rfl, rfl, rfl⟩

/-- The two grounds for a self-heal (R172). -/
theorem heals_iff {pr : Bool} {i : Instance} :
    i.Heals pr ↔ i.mode = .hrng ∧ (i.seedLife.toNat ≤ i.generateCallsSinceReseed.toNat ∨
      (pr = true ∧ 1 ≤ i.generateCallsSinceReseed.toNat)) := by
  simp [Instance.Heals, selfHealDue]

/-- What `GenerateStatistics` says of a `GENERATE` that ended with `ok` or not, from the registers `i` to `j`. -/
structure StatisticsKept (ok heals starts : Prop) (i j : Instance) : Prop where
  success : ok → j.randBytesTotal = i.randBytesTotal + 32 ∧
    (¬ heals → j.randBytesSinceReseed = i.randBytesSinceReseed + 32 ∧
      j.generateCallsSinceReseed = i.generateCallsSinceReseed + 1) ∧
    (heals → j.randBytesSinceReseed = 32 ∧ j.generateCallsSinceReseed = 1)
  failure : ¬ ok → j.randBytesTotal = i.randBytesTotal ∧
    (¬ starts → j.randBytesSinceReseed = i.randBytesSinceReseed ∧
      j.generateCallsSinceReseed = i.generateCallsSinceReseed) ∧
    (starts → j.randBytesSinceReseed = 0 ∧ j.generateCallsSinceReseed = 0)

/-- A call that failed before its policy. -/
theorem statistics_rejected {ok heals starts : Prop} {i j : Instance} (hok : ¬ ok) (hst : ¬ starts) (h : i.SameRegs j) :
    StatisticsKept ok heals starts i j :=
  ⟨fun h => absurd h hok, fun _ => ⟨h.statistics.1, fun _ => h.statistics.2, fun h => absurd h hst⟩⟩

/-- The seed policy leaves the statistics alone unless it reseeds (R166, R172). -/
theorem generatePolicy_statistics (pr : Bool) (s : State) :
    (generatePolicy pr s).2.inst.randBytesTotal = s.inst.randBytesTotal ∧
      (¬ s.inst.Heals pr → (generatePolicy pr s).2.inst.randBytesSinceReseed = s.inst.randBytesSinceReseed ∧
        (generatePolicy pr s).2.inst.generateCallsSinceReseed = s.inst.generateCallsSinceReseed) ∧
      (s.inst.Heals pr → (generatePolicy pr s).2.inst.randBytesSinceReseed = 0 ∧
        (generatePolicy pr s).2.inst.generateCallsSinceReseed = 0) := by
  obtain ⟨hh, h⟩ | ⟨hh, h⟩ := generatePolicy_regs pr s
  · exact ⟨h.statistics.1, fun hn => absurd hh hn, fun _ => h.statistics.2⟩
  · exact ⟨h.statistics.1, fun _ => h.statistics.2, fun hn => absurd hn hh⟩

/-- A call that passed its checks: the self-heal that is due has started. -/
theorem statistics_opGenerate (dst : Dst) {size : Nat} {pr : Bool} {s : State} (hs : s.inst.state = .healthy)
    (hr : generateReject size pr s.inst = none) :
    StatisticsKept ((opGenerate dst size pr s).status = .success) (s.inst.Heals pr) (s.inst.Heals pr) s.inst
      (opGenerate dst size pr s).state.inst := by
  obtain ⟨ptotal, pkept, pzero⟩ := generatePolicy_statistics pr s
  obtain ⟨hok, h⟩ | ⟨hok, h⟩ := opGenerate_regs dst hs hr <;> obtain ⟨htotal, hbytes, hcalls⟩ := h.statistics
  · simp only [countedInst] at htotal hbytes hcalls
    refine ⟨fun _ => ⟨by rw [htotal, ptotal], fun hn => ?_, fun hh => ?_⟩, fun hn => absurd hok hn⟩
    · rw [hbytes, hcalls, (pkept hn).1, (pkept hn).2]; exact ⟨rfl, rfl⟩
    · rw [hbytes, hcalls, (pzero hh).1, (pzero hh).2]; exact ⟨rfl, rfl⟩
  · refine ⟨fun h => absurd h hok, fun _ => ⟨htotal.trans ptotal, fun hn => ?_, fun hh => ?_⟩⟩
    · rw [hbytes, hcalls]; exact pkept hn
    · rw [hbytes, hcalls]; exact pzero hh

theorem statusCode_eq_zero_iff {e : Status} : statusCode e = 0x00 ↔ e = .success := by cases e <;> decide

/-- `RESULT` is the status of the call. -/
theorem opGenerate_result (dst : Dst) (size : Nat) (pr : Bool) (s : State) :
    (opGenerate dst size pr s).state.result = statusCode (opGenerate dst size pr s).status := by
  by_cases hs : s.inst.state = .healthy
  · exact (ended_opGenerate dst size pr hs).result
  · rw [opGenerate_guard dst size pr hs]; rfl

/-- Settles O55: before the policy nothing is counted, in the policy the self-heal clears, after it a success counts. -/
theorem generateStatistics : Obligations.GenerateStatistics := by
  intro s t pr size a0 heals starts ht hheals hstarts
  rw [← heals_iff] at hheals
  suffices h : StatisticsKept (t.result = 0x00) heals starts s.inst t.inst from ⟨h.success, h.failure⟩
  by_cases ha : a0 = nullAddr
  · have hst : ¬ starts := fun h => (hstarts.1 h).2.2.1 ha
    have hnext : exec (.generate pr size a0) s = .next s.beginCommand.refuseMalformed :=
      if_pos (by simpa [Instr.lacksOperand] using ha)
    rw [hnext] at ht
    cases ht
    exact statistics_rejected (by simp [statusCode]) hst (.refl _)
  · rw [exec_generate pr size ha] at ht
    cases ht
    rw [opGenerate_result, statusCode_eq_zero_iff]
    by_cases h : s.inst.state ≠ .healthy ∨ generateReject size.toNat pr s.inst ≠ none
    · obtain ⟨hok, hregs⟩ := opGenerate_regs_rejected (.host a0) (s := s.beginCommand) h
      refine statistics_rejected hok (fun hst => ?_) hregs
      obtain ⟨hh, hs, -, hsize, hpr⟩ := hstarts.1 hst
      have hr : generateReject size.toNat pr s.inst = none :=
        generateReject_eq_none_iff.2 ⟨hsize, fun hp => ⟨by simp [(hheals.1 hh).1], hpr hp⟩⟩
      exact h.elim (absurd hs) (absurd hr)
    · simp only [not_or, not_not] at h
      obtain ⟨hs, hr⟩ := h
      obtain ⟨hsize, hpr⟩ := generateReject_eq_none_iff.1 hr
      have hst : starts ↔ s.inst.Heals pr :=
        hstarts.trans ⟨fun h => hheals.1 h.1, fun h => ⟨hheals.2 h, hs, ha, hsize, fun hp => (hpr hp).2⟩⟩
      rw [propext hheals, propext hst]
      exact statistics_opGenerate (.host a0) (s := s.beginCommand) hs hr

end Sys2Proof.Machine
end

section
/-! The port (10_state.md R31 to R38, 20_memory.md R80 to R82, 44_port_sequences.md): its registers, its sequences and
its poll run on their own. -/

namespace Sys2Proof.Machine

/-- Settles O10: the registers of creation, read off one by one. -/
theorem resetState : Obligations.ResetState :=
  ⟨rfl, rfl, rfl, rfl, rfl, rfl, rfl, rfl, rfl, rfl, rfl, rfl, rfl, rfl, rfl, rfl, rfl, rfl, rfl, rfl, rfl, rfl, rfl,
    rfl, rfl⟩

/-! ## Single accesses -/

/-- A released register that is no draw reads as stored (20_memory.md R80). -/
theorem read32_stored {r : PortReg} (hr : r ≠ .status ∧ r ≠ .coreOutput) {s : State} (hh : s.held = false) :
    (read32 r s).1 = s.port.stored r := by
  cases r <;> simp_all [read32, readPort, Port.stored]

/-- Reading back a register other than `RESET` after it was stored. -/
theorem read32_write32 {r : PortReg} (hr : r ≠ .status ∧ r ≠ .coreOutput ∧ r ≠ .reset) (v : Word) {s : State}
    (hh : s.held = false) : (read32 r (write32 r v s)).1 = (s.port.store s.params.map r v).stored r := by
  obtain ⟨h1, h2, h3⟩ := hr
  rw [write32_released h3 v hh, read32_stored ⟨h1, h2⟩ ((held_store s r v _).trans hh)]

theorem stored_store_ne (m : PortMap) (p : Port) {r q : PortReg} (h : r ≠ q) (v : Word) :
    (p.store m r v).stored q = p.stored q := by
  cases r with
  | extSeed k =>
    cases q <;> try rfl
    case extSeed j => exact Vector.getElem_set_ne k.isLt j.isLt fun e => h (congrArg _ (Fin.ext e))
  | perStrng k =>
    cases q <;> try rfl
    case perStrng j => exact Vector.getElem_set_ne k.isLt j.isLt fun e => h (congrArg _ (Fin.ext e))
  | _ => cases q <;> first | rfl | exact absurd rfl h

/-- Settles O18: a released write stores, a released read gives back what is stored. -/
theorem portRegistersReadBack : Obligations.PortRegistersReadBack := by
  intro s v hh
  refine ⟨read32_write32 (by simp) v hh, read32_write32 (by simp) v hh, fun k => ?_, fun k => ?_, fun r q hrq hr => ?_⟩
  · rw [read32_write32 (by simp) v hh]; exact Vector.getElem_set_self _
  · rw [read32_write32 (by simp) v hh]; exact Vector.getElem_set_self _
  · rw [write32_released hr v hh]; exact stored_store_ne _ _ hrq v

/-- A held register reads as its reset value (10_state.md R37). -/
theorem read32_held {r : PortReg} (hr : r ≠ .reset ∧ r ≠ .coreOutput) {s : State} (hh : s.held = true) :
    (read32 r s).1 = 0 := by
  cases r <;> simp_all [read32, readPort]

/-- Writing `RESET` goes by its `ASSERT` bit alone. -/
theorem write32_reset (v : Word) (s : State) :
    (write32 .reset v s).port =
      if v &&& s.params.map.resetAssert ≠ 0 then
        Port.zeroed s.params.map.resetAssert (Config.coreOutputAfterReset s.resetCount)
      else { s.port with reset := 0 } := by
  unfold write32 writePort
  simp only [if_true, bne_iff_ne]
  split <;> rfl

/-- Settles O19: the held read and write, and the two values of `ASSERT` in a write of `RESET`. -/
theorem resetHoldsTheHardware : Obligations.ResetHoldsTheHardware := by
  intro s
  refine ⟨fun hh r hr => ⟨fun v => ?_, fun hc => read32_held ⟨hr, hc⟩ hh⟩, fun v hv => ?_, fun v hv => ?_⟩
  · rw [write32_held hr v hh]
  · have hp : (write32 .reset v s).port =
        Port.zeroed s.params.map.resetAssert (Config.coreOutputAfterReset s.resetCount) := by
      rw [write32_reset, if_pos hv]
    have hparams := (write32_frame .reset v s).1.params
    refine ⟨⟨_, hp⟩, State.held_of_asserted (by rw [hp, hparams]; rfl) ?_⟩
    rw [hparams]
    rintro h0
    simp [h0] at hv
  · have hp : (write32 .reset v s).port = { s.port with reset := 0 } := by
      rw [write32_reset, if_neg (not_not_intro hv)]
    exact ⟨hp, State.held_of_released (by rw [hp])⟩

/-- A read-modify-write while the hardware is held reads 0 and stores nothing (10_state.md R37). -/
theorem rmw32_ctrl_held (mask v : Word) {s : State} (hh : s.held = true) :
    rmw32 .ctrl mask v s =
      { s with
        log := [.wr (portAddr s.params .ctrl) (v &&& mask), .rd (portAddr s.params .ctrl) 0] ++ s.log } := by
  have hread : read32 .ctrl s = (0, { s with log := .rd (portAddr s.params .ctrl) 0 :: s.log }) := by
    simp [read32, readPort, hh, State.logEvent]
  unfold rmw32
  rw [hread, write32_held (by simp) _ (by exact hh)]
  simp

/-- Settles O21, released and held. -/
theorem readModifyWriteOfCtrl : Obligations.ReadModifyWriteOfCtrl :=
  fun mask v _ => ⟨fun hh => rmw32_ctrl mask v hh, fun hh => rmw32_ctrl_held mask v hh⟩

/-! ## Sequences (44_port_sequences.md) -/

theorem exec_hwReset (s : State) : exec .hwReset s = .next (hwReset s.beginCommand) := rfl

theorem exec_hwHoldReset (s : State) : exec .hwHoldReset s = .next (hwHoldReset s.beginCommand) := rfl

theorem exec_hwProgram (sel : HwSel) (s : State) : exec (.hwProgram sel) s = .next (hwProgram sel s.beginCommand) := rfl

theorem exec_writeGroup (g : RegGroup) (b : Vector Byte 48) (s : State) :
    exec (.writeGroup g b) s = .next (writeGroup g b s.beginCommand) := rfl

theorem exec_zeroizeSeedRegs (s : State) : exec .zeroizeSeedRegs s = .next (zeroizeSeedRegs s.beginCommand) := rfl

@[simp] theorem State.beginCommand_held (s : State) : s.beginCommand.held = s.held := rfl

/-- Settles O22: the pulse and the held reset, each from a fresh log. -/
theorem hardwareResetsCompleted : Obligations.HardwareResetsCompleted := by
  intro s hm
  rw [exec_hwReset, exec_hwHoldReset, hwReset_eq (s := s.beginCommand) hm.assert,
    hwHoldReset_eq (s := s.beginCommand) hm.assert]
  exact ⟨⟨_, by rw [State.beginCommand_log, List.append_nil]; rfl⟩, _, rfl⟩

/-- Settles O23: a released write of a selection, whose bits are all defined, and a held one. -/
theorem hwProgramSelects : Obligations.HwProgramSelects := by
  refine ⟨fun sel s hm => ?_, by decide, by decide, by decide⟩
  rw [exec_hwProgram]
  cases hh : s.held
  · rw [hwProgram_released sel (s := s.beginCommand) hm hh]; rfl
  · rw [hwProgram, write32_held (by simp) _ (s := s.beginCommand) hh]; rfl

/-- Settles O24, released and held. -/
theorem writeGroupPlacesBytes : Obligations.WriteGroupPlacesBytes := by
  intro g b s
  rw [exec_writeGroup]
  cases hh : s.held
  · rw [writeGroup_released g b (s := s.beginCommand) hh, State.beginCommand_log, List.append_nil]
    cases g <;> rfl
  · rw [writeGroup_held g b (s := s.beginCommand) hh, State.beginCommand_log, List.append_nil]
    rfl

theorem accessCount_append (l l' : List Event) : accessCount (l ++ l') = accessCount l + accessCount l' :=
  List.countP_append

theorem accessCount_reverse (l : List Event) : accessCount l.reverse = accessCount l := List.countP_reverse

/-- A list of writes is as many accesses. -/
theorem accessCount_writes {α : Type} (l : List α) (a : α → HostAddr) (v : α → Word) :
    accessCount (l.map fun k => Event.wr (a k) (v k)) = l.length := by
  rw [accessCount, List.countP_map]
  exact List.countP_eq_length.2 fun _ _ => rfl

theorem accessCount_zeroizeEvents (p : Params) : accessCount (zeroizeEvents p) = 24 := by
  rw [zeroizeEvents, accessCount_append, accessCount_writes, accessCount_writes]
  rfl

/-- Settles O25, released and held. -/
theorem zeroizeClearsBothGroups : Obligations.ZeroizeClearsBothGroups := by
  intro s
  refine ⟨?_, accessCount_zeroizeEvents s.params⟩
  rw [exec_zeroizeSeedRegs]
  cases hh : s.held
  · rw [zeroizeSeedRegs_released (s := s.beginCommand) hh, State.beginCommand_log, List.append_nil]; rfl
  · rw [zeroizeSeedRegs_held (s := s.beginCommand) hh, State.beginCommand_log, List.append_nil]; rfl

/-! ## The poll (R299) -/

/-- `PollField` at the offset of a register of the map. -/
theorem exec_pollField {off : Word} {r : PortReg} {s : State} (hm : MapOk s.params.map)
    (hoff : off.toNat = portOffset s.params.map r) (mask expect : Word) (timeoutUs : Nat) :
    exec (.pollField off mask expect timeoutUs) s =
      .next ((pollField r mask expect timeoutUs s.beginCommand).2.returning
        (.poll (pollField r mask expect timeoutUs s.beginCommand).1)) := by
  show execPollField off mask expect timeoutUs s = _
  unfold execPollField
  rw [(portRegAt_eq_some hm).2 hoff]

/-- Settles O26: the loop reads until it is shown the field. -/
theorem pollEndsAtTheFirstMatch : Obligations.PollEndsAtTheFirstMatch := by
  intro mask expect timeoutUs s vs v rest hm hh _ hscript hvs hv hlen
  have hpoll : pollField .status mask expect timeoutUs s.beginCommand = _ :=
    pollLoop_ready mask expect vs v rest _ (s := s.beginCommand) hh hlen hvs hv hscript
  rw [exec_pollField (r := .status) hm rfl, hpoll, State.beginCommand_log, List.append_nil]
  rfl

/-- Settles O27: a poll never shown the field uses its whole budget, and none uses more. -/
theorem pollTimesOut : Obligations.PollTimesOut := by
  refine ⟨fun mask expect timeoutUs s vs v rest hm hh _ hscript hvs hlen => ?_,
    fun off mask expect timeoutUs s r hm hoff => ?_⟩
  · have hbudget : pollField .status mask expect timeoutUs s.beginCommand =
        pollLoop .status mask expect s.beginCommand.params.pollSleepUs vs.length s.beginCommand := by rw [hlen]; rfl
    rw [exec_pollField (r := .status) hm rfl, hbudget,
      pollLoop_timeout mask expect vs v rest (s := s.beginCommand) hh hvs hscript, State.beginCommand_log, List.append_nil]
    rfl
  · have hcount := pollLoop_accesses r mask expect s.params.pollSleepUs
      (pollSleeps timeoutUs s.params.pollSleepUs) s.beginCommand
    exact ⟨_, _, exec_pollField hm hoff mask expect timeoutUs, rfl,
      (pollField_frame r mask expect timeoutUs s.beginCommand).inst,
      hcount.trans (by rw [State.beginCommand_log, accessCount, List.countP_nil, Nat.zero_add]; exact le_rfl)⟩

end Sys2Proof.Machine
end

section
/-! The Entropy Collector (41_entropy_collector.md) run on its own: a collection of good bursts, its three ways of failing
after some good bursts, its frame, and the forbidden-pattern check. -/

namespace Sys2Proof.Machine

theorem exec_collectBurst (dst : Dst) (n : Nat) (s : State) :
    exec (.collectBurst dst n) s =
      .next ((collectBurst dst n s.beginCommand).state.returning
        (.collected (collectBurst dst n s.beginCommand).fail (collectBurst dst n s.beginCommand).bytes)) := rfl

/-! ## Where good bursts leave a collection -/

/-- The bytes stand where they were put (20_memory.md R85). -/
theorem stored_putMem (dst : Dst) (b : List Byte) {m : Memory} (h : Memory.wf m = true) :
    Stored dst b m (putMem dst 0 b m) := by
  intro k
  cases dst with
  | host a =>
    by_cases ha : a = nullAddr
    · simp [putMem, ha]
    · have hput : putMem (.host a) 0 b m = memWriteBytes m (a.toNat + 0) b := if_neg ha
      simp only [hput, memRead_memWriteBytes m h, Nat.add_zero, ne_eq, ha, not_false_eq_true, true_and]
  | scratch => rfl

/-- The state after the start bit and good bursts, from the start of the command. -/
def collectedGood (dst : Dst) (bs : List Burst) (rest : List Word) (s : State) : State :=
  { s with
    inst := { s.inst with win := windowAfter s.inst.win bs }
    port := { s.port with ctrl := withStart s.params.map s.port.ctrl }.afterBursts s.params s.inst.mode bs
    mem := putMem dst 0 (burstBytes bs) s.mem
    script := rest
    drawCount := s.drawCount + (burstDraws s.inst.mode bs).length
    log := (startEvents s.params s.port.ctrl ++ burstEvents s.params s.inst.mode dst 0 bs).reverse
    ret := .none }

theorem afterBursts_assertStart (dst : Dst) (bs : List Burst) (rest : List Word) {s : State} (hh : s.held = false) :
    afterBursts dst 0 bs rest (assertStart s.beginCommand) = collectedGood dst bs rest s := by
  rw [assertStart_released (s := s.beginCommand) hh]
  unfold afterBursts collectedGood
  simp only [State.beginCommand_log, List.append_nil, List.reverse_append]
  rfl

theorem held_collectedGood (dst : Dst) (bs : List Burst) (rest : List Word) {s : State} (hh : s.held = false) :
    (collectedGood dst bs rest s).held = false := by
  rw [← afterBursts_assertStart dst bs rest hh, held_afterBursts]
  exact (State.held_congr (keep_rmw _ _ _).reset (keep_rmw _ _ _).params).trans hh

/-- A collection of more bursts than the good ones goes on after them (R200). -/
theorem collectBurst_goes_on (dst : Dst) {bs : List Burst} {n : Nat} {s : State} {rest : List Word}
    (hn : bs.length < n) (hh : s.held = false) (hg : ∀ x ∈ bs, x.Good s.params s.inst.mode) (hr : NoRepeat bs)
    (h : s.script = burstDraws s.inst.mode bs ++ rest) :
    collectBurst dst (16 * n) s.beginCommand =
      collectLoop dst (n - bs.length - 1 + 1) bs.length (keptBytes dst (burstBytes bs)) (collectedGood dst bs rest s) := by
  have hstart := assertStart_released (s := s.beginCommand) hh
  have hp : (assertStart s.beginCommand).params = s.params := by rw [hstart]; rfl
  have hi : (assertStart s.beginCommand).inst = s.inst := by rw [hstart]; rfl
  have hloop := collectLoop_good dst (n - bs.length - 1 + 1) bs 0 [] (s := assertStart s.beginCommand) (rest := rest)
    (by rw [hstart]; exact hh) (by rw [hp, hi]; exact hg) (by simp) hr (by rw [hi, hstart]; exact h)
  rw [collectBurst_size dst (by omega) (by omega), show 16 * n / 16 = bs.length + (n - bs.length - 1 + 1) by omega, hloop,
    afterBursts_assertStart dst bs rest hh, Nat.zero_add, List.nil_append]

/-- Settles O28: the loop over the good bursts ends with them. -/
theorem collectBurstStoresTheBursts : Obligations.CollectBurstStoresTheBursts := by
  intro dst s bs rest hne hh hg hr hscript
  have hend := collectBurst_good dst bs (s := s.beginCommand) hne hh hg hr hscript
  rw [afterBursts_assertStart dst bs rest hh] at hend
  exact ⟨_, by rw [exec_collectBurst, hend], rfl, stored_putMem dst _⟩

/-! ## The three failures (R203, R204, R207) -/

/-- A burst whose DTF read is set: its words are not read (R204). -/
theorem collectLoop_dtf (dst : Dst) (n b : Nat) (acc : List Byte) {s : State} {ready dtf : Word} {rest : List Word}
    (hm : s.inst.mode ≠ .ptrng) (hh : s.held = false) (hready : ready &&& s.params.map.statusQcnt = s.params.map.burstReady)
    (hdtf : dtf &&& s.params.map.statusDtf ≠ 0) (h : s.script = ready :: dtf :: rest) :
    collectLoop dst (n + 1) b acc s =
      ⟨some .errCatastrophicDtf, acc,
        { s with
          inst := { s.inst with state := .catastrophic }
          port := { s.port with status := shown s.params dtf }
          script := rest
          drawCount := s.drawCount + 2
          log := [.rd (portAddr s.params .status) (shown s.params dtf),
            .rd (portAddr s.params .status) (shown s.params ready)] ++ s.log }⟩ := by
  have hflag : dtfFlag s.params.map dtf = true := bne_iff_ne.2 hdtf
  rw [collectLoop, pollBurst_ready hh h hready]
  simp only [if_true]
  rw [checkDtf_script (v := dtf) (rest := rest) (by exact hm) (by exact hh) rfl]
  simp only [hflag, if_true]
  rfl

/-- Settles O29: after the good bursts the next DTF read ends the loop. -/
theorem dtfEndsTheCollection : Obligations.DtfEndsTheCollection := by
  intro dst s bs ready dtf rest n hm hh hn hg hr hready hdtf hscript
  have hend := collectBurst_goes_on dst hn hh hg hr hscript
  rw [collectLoop_dtf dst _ _ _ (s := collectedGood dst bs (ready :: dtf :: rest) s) hm
    (held_collectedGood dst bs _ hh) hready hdtf rfl] at hend
  refine ⟨_, by rw [exec_collectBurst, hend], ?_, stored_putMem dst _⟩
  simp [State.returning, collectedGood, keptBytes, Nat.add_assoc]

/-- Settles O31: after the good bursts the next ready poll ends the loop. -/
theorem notReadyEndsTheCollection : Obligations.NotReadyEndsTheCollection := by
  intro dst s bs vs v rest n hh _ hn hg hr hvs hlen hscript
  rw [List.append_assoc] at hscript
  have hend := collectBurst_goes_on dst hn hh hg hr hscript
  have hpoll := pollBurst_timeout (s := collectedGood dst bs (vs ++ v :: rest) s) vs v rest
    (held_collectedGood dst bs _ hh) hlen hvs rfl
  rw [collectLoop, hpoll] at hend
  refine ⟨_, by rw [exec_collectBurst, hend], ?_, stored_putMem dst _⟩
  simp [State.returning, collectedGood, keptBytes, Nat.add_assoc]

/-- No burst changes nothing but the draws to come. -/
theorem afterBursts_nil_draws (dst : Dst) (b : Nat) (rest : List Word) (s : State) :
    afterBursts dst b [] rest s = { s with script := rest } := by
  unfold afterBursts
  rw [show burstBytes [] = [] from rfl, putMem_nil]
  rfl

/-- Bursts and then others. -/
theorem afterBursts_append (dst : Dst) (b : Nat) (bs cs : List Burst) (rest rest' : List Word) (s : State) :
    afterBursts dst (b + bs.length) cs rest (afterBursts dst b bs rest' s) = afterBursts dst b (bs ++ cs) rest s := by
  induction bs generalizing b s with
  | nil => rw [afterBursts_nil_draws]; rfl
  | cons x bs ih =>
    rw [← afterBursts_cons dst b x bs rest' [] s, List.cons_append, ← afterBursts_cons dst b x (bs ++ cs) rest [] s, ← ih]
    congr 1
    simp only [List.length_cons]
    omega

theorem windowAfter_append_singleton (w : Vector Word 4) (bs : List Burst) (x : Burst) :
    windowAfter w (bs ++ [x]) = x.words := by
  simp [windowAfter]

theorem burstDraws_append (m : Mode) (bs cs : List Burst) : burstDraws m (bs ++ cs) = burstDraws m bs ++ burstDraws m cs :=
  List.flatMap_append

theorem burstDraws_singleton (m : Mode) (x : Burst) : burstDraws m [x] = x.draws m := by
  simp [burstDraws]

theorem burstBytes_append (bs cs : List Burst) : burstBytes (bs ++ cs) = burstBytes bs ++ burstBytes cs :=
  List.flatMap_append

theorem burstBytes_singleton (x : Burst) : burstBytes [x] = x.bytes := by
  simp [burstBytes]

/-- Settles O30: the bursts up to the repeat are good, and the repeat equals the window. -/
theorem repeatEndsTheCollection : Obligations.RepeatEndsTheCollection := by
  intro dst s bs last again rest n hh hn hg hr heq hscript
  have hsplit : bs ++ [last, again] = (bs ++ [last]) ++ [again] := by simp
  rw [hsplit] at hg hscript ⊢
  rw [burstDraws_append, List.append_assoc, burstDraws_singleton] at hscript
  have hend := collectBurst_goes_on dst (by simpa using hn) hh
    (fun x hx => hg x (List.mem_append_left _ hx)) hr hscript
  have hwin : (collectedGood dst (bs ++ [last]) (again.draws s.inst.mode ++ rest) s).inst.win = again.words :=
    (windowAfter_append_singleton _ _ _).trans heq.symm
  rw [collectLoop_burst dst _ _ _ (held_collectedGood dst _ _ hh) (hg again (by simp)) rfl,
    if_pos ⟨by simp, hwin⟩, ← afterBursts_assertStart dst _ _ hh] at hend
  have happ := afterBursts_append dst 0 (bs ++ [last]) [again] rest (again.draws s.inst.mode ++ rest)
    (assertStart s.beginCommand)
  rw [Nat.zero_add] at happ
  rw [happ, afterBursts_assertStart dst _ _ hh, ← keptBytes_append, ← burstBytes_singleton, ← burstBytes_append] at hend
  refine ⟨_, by rw [exec_collectBurst, hend], ?_, stored_putMem dst _⟩
  simp only [collectedGood, State.setRunState, windowAfter_append_singleton]
  rfl

/-! ## Whatever the environment answers (R208, R411) -/

/-- Asserting the start bit changes no port register but `CTRL`. -/
theorem assertStart_port (s : State) : (assertStart s).port = { s.port with ctrl := (assertStart s).port.ctrl } := by
  cases hh : s.held with
  | false => rw [assertStart_released hh]
  | true => rw [assertStart, rmw32_ctrl_held _ _ hh]

theorem CollectFrame.port {s t : State} (h : CollectFrame s t) :
    t.port = { s.port with status := t.port.status, coreOutput := t.port.coreOutput } := by
  obtain ⟨-, -, -, -, -, -, -, hctrl, hreset, hosc, hext, hper⟩ := h
  generalize t.port = p at *
  cases p
  simp_all

/-- Only the two catastrophic codes write `I.State` (R209). -/
theorem stateAfter_eq (f : Option Status) (old : RunState) :
    stateAfter f old =
      if f = some .errCatastrophicDtf ∨ f = some .errCatastrophicSw then .catastrophic else old := by
  cases f with
  | none => simp [stateAfter]
  | some e => cases e <;> simp [stateAfter, isCatastrophic]

/-- Settles O32, by the outcome of the loop over the bursts. -/
theorem collectBurstIsFramedAndBounded : Obligations.CollectBurstIsFramedAndBounded := by
  intro dst n s
  refine ⟨fun hbad => ?_, fun hn h16 => ?_⟩
  · have hend : collectBurst dst n s.beginCommand = ⟨some .errInvalidParam, [], s.beginCommand⟩ := by
      unfold collectBurst; simp [hbad]
    rw [exec_collectBurst, hend]
    rfl
  · have hrun := collectBurst_outcome dst n s.beginCommand
    generalize hc : collectBurst dst n s.beginCommand = c at hrun
    obtain ⟨-, hsize, -⟩ | ⟨hframe, hstate, hcode, hacc, -, -, -⟩ := hrun
    · omega
    have hfr := assertStart_frame s.beginCommand
    have hmode : (assertStart s.beginCommand).inst.mode = s.inst.mode := by rw [hfr.inst]; rfl
    rw [hmode] at hcode
    have hport := hframe.port
    rw [assertStart_port] at hport
    have hstart : accessCount (assertStart s.beginCommand).log = 2 := access_rmw _ _ s.beginCommand
    refine ⟨_, c.fail, c.bytes, by rw [exec_collectBurst, hc], rfl, ?_, ?_, ?_, ?_, ?_, ?_⟩
    · cases hf : c.fail with
      | none => exact .inl rfl
      | some e => simpa using hcode e hf
    · have hi := hframe.inst
      rw [hstate, hfr.inst, stateAfter_eq] at hi
      exact hi
    · exact hframe.result.trans hfr.result
    · refine hframe.resetCount.trans ?_
      exact (keep_rmw _ _ s.beginCommand).resetCount
    · simp only [State.returning]
      generalize c.state.port = p at hport ⊢
      cases p
      simp_all [State.beginCommand]
    · rw [hstart, hfr.params] at hacc
      exact hacc

/-! ## The forbidden pattern (R212) -/

theorem append_eq_append_iff {m n : Nat} {a b : BitVec m} {x y : BitVec n} : a ++ x = b ++ y ↔ a = b ∧ x = y := by
  constructor
  · intro h
    have hleft := congrArg (BitVec.extractLsb' n m) h
    have hright := congrArg (BitVec.extractLsb' 0 n) h
    rw [BitVec.extractLsb'_append_eq_left, BitVec.extractLsb'_append_eq_left] at hleft
    rw [BitVec.extractLsb'_append_eq_right, BitVec.extractLsb'_append_eq_right] at hright
    exact ⟨hleft, hright⟩
  · rintro ⟨rfl, rfl⟩; rfl

/-- A word of four equal bytes. -/
theorem wordOfBytes_eq_iff (b : List Byte) (i : Nat) (x : Byte) :
    wordOfBytes b i = x ++ x ++ x ++ x ↔ ∀ k < 4, b.getD (i + k) 0 = x := by
  rw [wordOfBytes, append_eq_append_iff, append_eq_append_iff, append_eq_append_iff]
  constructor
  · rintro ⟨⟨⟨h0, h1⟩, h2⟩, h3⟩ k hk
    interval_cases k <;> assumption
  · intro h
    exact ⟨⟨⟨h 0 (by decide), h 1 (by decide)⟩, h 2 (by decide)⟩, h 3 (by decide)⟩

/-- A word is one of the forbidden patterns (R212) if all its bytes are 0xAA or all are 0x55. -/
theorem mem_forbiddenWords_iff (b : List Byte) (i : Nat) :
    wordOfBytes b i ∈ Config.forbiddenWords ↔ ∃ x, (x = 0xAA ∨ x = 0x55) ∧ ∀ k < 4, b.getD (i + k) 0 = x := by
  have hlist : Config.forbiddenWords =
      [(0xAA#8 ++ 0xAA#8 ++ 0xAA#8 ++ 0xAA#8 : Word), (0x55#8 ++ 0x55#8 ++ 0x55#8 ++ 0x55#8 : Word)] := rfl
  simp only [hlist, List.mem_cons, List.not_mem_nil, or_false, wordOfBytes_eq_iff, or_and_right, exists_or, exists_eq_left]
  rfl

theorem checkSeedPattern_eq_false_iff (buf : List Byte) (n : Nat) : checkSeedPattern buf n = false ↔ ForbiddenWord buf n := by
  simp only [checkSeedPattern, List.all_eq_false, List.mem_range, Bool.not_eq_true, Bool.not_eq_false',
    List.contains_iff_mem, mem_forbiddenWords_iff, ForbiddenWord]

/-- Settles O33: the check answers bad if some aligned word is in the list of forbidden words. -/
theorem seedPatternVerdict : Obligations.SeedPatternVerdict := fun buf n _ h4 hlen =>
  ⟨checkSeedPattern buf n, if_pos ⟨h4, hlen⟩, checkSeedPattern_eq_false_iff buf n⟩

end Sys2Proof.Machine
end

section
/-! The derivation function (42_derivation_function.md) run on its own, and the operands outside the domains of the
internal operations (entry 7). -/

namespace Sys2Proof.Machine

/-! ## CbcMac (R231) -/

theorem exec_cbcMac (key : CipherKey) (chain0 : Option Block) {msg : List Byte} (h : msg.length % 16 = 0) (s : State) :
    exec (.cbcMac key chain0 msg) s =
      .next { s with log := [], ret := .bytes (cbcMac Config.blockCipher key chain0 msg).toList } := if_pos h

/-- The blocks of a message are those of any longer one. -/
theorem blockOf_append_left {msg : List Byte} {j : Nat} (tail : List Byte) (hj : 16 * j + 16 ≤ msg.length) :
    blockOf (msg ++ tail) j = blockOf msg j := by
  refine Vector.ext fun i hi => ?_
  simp only [blockOf, Vector.getElem_ofFn]
  rw [List.getD_append _ _ _ _ (by omega)]

/-- The block after a message of whole blocks. -/
theorem blockOf_append_block {msg : List Byte} (blk : Block) (h : msg.length % 16 = 0) :
    blockOf (msg ++ blk.toList) (msg.length / 16) = blk := by
  refine Vector.ext fun i hi => ?_
  have hoff : 16 * (msg.length / 16) + i - msg.length = i := by omega
  simp only [blockOf, Vector.getElem_ofFn]
  rw [List.getD_append_right _ _ _ _ (by omega), hoff, List.getD_eq_getElem _ _ (by simpa using hi), Vector.getElem_toList]

theorem xorBlock_eq_zipWith (a b : Block) : xorBlock a b = a.zipWith (· ^^^ ·) b := by
  refine Vector.ext fun i hi => ?_
  simp [xorBlock]

/-- One more block is exclusive-ored in and encrypted (R231). -/
theorem cbcMac_append_block (bc : CipherKey → Block → Block) (key : CipherKey) (chain0 : Option Block) {msg : List Byte}
    (blk : Block) (h : msg.length % 16 = 0) :
    cbcMac bc key chain0 (msg ++ blk.toList) = bc key ((cbcMac bc key chain0 msg).zipWith (· ^^^ ·) blk) := by
  have hlen : (msg ++ blk.toList).length / 16 = msg.length / 16 + 1 := by simp
  have hchain : ∀ c : Block, (List.range (msg.length / 16)).foldl
      (fun c j => bc key (xorBlock c (blockOf (msg ++ blk.toList) j))) c =
        (List.range (msg.length / 16)).foldl (fun c j => bc key (xorBlock c (blockOf msg j))) c := by
    intro c
    refine List.foldl_ext _ _ _ fun d j hj => ?_
    rw [blockOf_append_left _ (by have := List.mem_range.1 hj; omega)]
  rw [cbcMac, hlen, List.range_succ, List.foldl_append, hchain, ← cbcMac, List.foldl_cons, List.foldl_nil,
    blockOf_append_block blk h, xorBlock_eq_zipWith]

/-- Settles O34: one more block is one more step of the chain. -/
theorem cbcMacChains : Obligations.CbcMacChains := by
  intro key chain0 msg blk s h
  refine ⟨exec_cbcMac key chain0 rfl s, cbcMac Config.blockCipher key chain0 msg, exec_cbcMac key chain0 h s, ?_⟩
  rw [exec_cbcMac key chain0 (by simp [h]), cbcMac_append_block _ _ _ _ h]

/-! ## The packed block (R232) -/

theorem exec_dfPack {ent : List Byte} (pers : Option (Vector Byte 48)) (tag : DfTag) (h : validEntropyLength ent.length = true)
    (s : State) : exec (.dfPack ent pers tag) s = .next { s with log := [], ret := .bytes (dfPack ent pers tag) } := if_pos h

theorem validEntropyLength_iff (n : Nat) : validEntropyLength n = true ↔ 48 ≤ n ∧ n ≤ 160 ∧ n % 16 = 0 := by
  simp only [validEntropyLength, Bool.and_eq_true, beq_iff_eq, decide_eq_true_eq]
  omega

/-- A field of a byte string, by what stands before and after it. -/
theorem take_drop_field {α : Type} {before field after : List α} {n k : Nat} (hn : before.length = n) (hk : field.length = k) :
    ((before ++ field ++ after).drop n).take k = field := by
  rw [List.append_assoc, List.drop_left' hn, List.take_left' hk]

/-- Settles O35: the fields are the parts the layout appends. -/
theorem packedBlockLayout : Obligations.PackedBlockLayout := by
  intro ent pers tag s h
  obtain ⟨-, hmax, -⟩ := validEntropyLength_bounds h
  refine ⟨_, exec_dfPack pers tag h s, dfPack_length ent pers tag, ?_⟩
  rw [dfPack, be32Nat_small (by omega)]
  generalize (pers.getD (Vector.replicate 48 0)) = string
  refine ⟨?_, ?_, ?_, ?_, ?_, ?_⟩
  · rw [List.append_assoc, List.append_assoc, List.append_assoc, List.append_assoc]
    exact List.take_left' rfl
  · rw [List.append_assoc _ _ ent, List.append_assoc _ _ string.toList, List.append_assoc]
    exact take_drop_field rfl rfl
  · rw [List.append_assoc _ ent, List.append_assoc]
    exact (take_drop_field (n := 20) (k := 4) rfl rfl).trans (by cases tag <;> rfl)
  · rw [List.append_assoc _ string.toList]
    exact take_drop_field rfl rfl
  · exact take_drop_field (by simp; omega) (by simp)
  · exact List.drop_left' (by simp; omega)

/-! ## DF_BCC and DF (R234, R240) -/

theorem exec_dfBcc {packed : List Byte} (i : Fin 3) (h : validPackedLength packed.length = true) (s : State) :
    exec (.dfBcc packed i) s =
      .next { s with log := [], ret := .bytes (dfBcc Config.blockCipher packed i.val).toList } := if_pos h

theorem exec_df {ent : List Byte} (pers : Option (Vector Byte 48)) (tag : DfTag) (h : validEntropyLength ent.length = true)
    (s : State) :
    exec (.df ent pers tag) s = .next { s with log := [], ret := .bytes (df Config.blockCipher ent pers tag).toList } :=
  if_pos h

theorem validPackedLength_iff (n : Nat) : validPackedLength n = true ↔ 128 ≤ n ∧ n ≤ 240 ∧ n % 16 = 0 := by
  rw [validPackedLength, Bool.and_eq_true, decide_eq_true_eq, validEntropyLength_iff]
  omega

/-- Settles O36: the given key is `DF_KEY0`, and the index fits a byte. -/
theorem dfBccSetsTheIndex : Obligations.DfBccSetsTheIndex := by
  intro packed i key s h hkey
  have hlen := (validPackedLength_iff _).1 h
  have heq : key = dfKey0 := by
    refine Vector.ext fun k hk => ?_
    rw [dfKey0, Vector.getElem_ofFn]
    exact hkey ⟨k, hk⟩
  refine ⟨_, exec_dfBcc i h s, ?_⟩
  rw [← be32Nat_small (i.isLt.trans (by decide)), heq, 
    exec_cbcMac _ _ (by rw [dfBcc_operand_length i.val (by omega)]; exact hlen.2.2)]
  rfl

/-- Settles O38: the packed block is an operand of `DF_BCC`, and the parts compose by definition. -/
theorem dfComposesItsParts : Obligations.DfComposesItsParts := by
  intro ent pers tag s h
  have hpacked := dfPack_valid pers tag h
  exact ⟨dfPack ent pers tag, _, _, _, dfPass1 Config.blockCipher (dfPack ent pers tag),
    df Config.blockCipher ent pers tag, exec_dfPack pers tag h s, exec_dfBcc 0 hpacked s, exec_dfBcc 1 hpacked s,
    exec_dfBcc 2 hpacked s, dfPass1_toList _ _, exec_dfOut _ s, exec_df pers tag h s⟩

/-! ## Operands outside the domains (entry 7) -/

/-- No register of the default map stands between or above its registers. -/
theorem portOffset_default_outside (r : PortReg) {n : Nat}
    (h : (0x10 < n ∧ n < 0x40) ∨ (0x6C < n ∧ n < 0x80) ∨ 0xAC < n) : portOffset Config.defaultMap r ≠ n := by
  rw [portOffset_default]
  cases r <;> simp only [ne_eq] <;> omega

theorem exec_pollField_refused {off : Word} (mask expect : Word) (timeoutUs : Nat) {s : State}
    (h : portRegAt s.params.map off = none) : exec (.pollField off mask expect timeoutUs) s = .refused .portOffset := by
  change execPollField off mask expect timeoutUs s = _
  unfold execPollField
  rw [h]

/-- Settles O39: each guard of a domain refuses. -/
theorem outOfDomainOperandsAreRefused : Obligations.OutOfDomainOperandsAreRefused := by
  intro s
  refine ⟨fun ent pers tag h => ?_, fun packed i h => ?_, fun key chain0 msg h => if_neg h, fun buf n h => ?_,
    fun seed m h => ?_, fun seed m hm h => ?_, fun off mask expect timeoutUs h => ?_⟩
  · rw [← validEntropyLength_iff] at h
    exact ⟨if_neg h, if_neg h⟩
  · rw [← validPackedLength_iff] at h
    exact if_neg h
  · exact if_neg (by omega)
  · exact if_neg (by simp [reseedOperandsOk, h])
  · refine if_neg ?_
    cases seed with
    | none => simp [reseedOperandsOk, hm]
    | some b => simp [reseedOperandsOk, hm, h b rfl]
  · have hnone : portRegAt s.params.map off = none := by
      rw [portRegAt_eq_none]
      obtain h4 | hno | ⟨hmap, hrange⟩ := h
      · exact .inl h4
      · exact .inr hno
      · exact .inr fun r => hmap ▸ portOffset_default_outside r hrange
    exact exec_pollField_refused mask expect timeoutUs hnone

end Sys2Proof.Machine
end

section
/-! `ReseedCore` run on its own and `RESEED` (40_core_operations.md R160, R165): how they complete, how they fail, and what
they leave however they end. -/

namespace Sys2Proof.Machine

/-! ## Failures of an inner operation (60_exceptions.md R330) -/

/-- What `raise` does with the failure of a collection. -/
theorem CollectFailure.raised {e : Status} {code : BitVec 8} {st : RunState} (h : CollectFailure e code st) (old : RunState) :
    statusCode e = code ∧ raisedState e old = st := by
  obtain ⟨rfl, rfl, rfl⟩ | ⟨rfl, rfl, rfl⟩ | ⟨rfl, rfl, rfl⟩ := h <;> exact ⟨rfl, rfl⟩

/-- What `raise` does with the failure of a reseed. -/
theorem ReseedFailure.raised {e : Status} {code : BitVec 8} {st : RunState} (h : ReseedFailure e code st) (old : RunState) :
    statusCode e = code ∧ raisedState e old = st := by
  obtain h | ⟨rfl, rfl, rfl⟩ | ⟨rfl, rfl, rfl⟩ | ⟨rfl, rfl, rfl⟩ := h
  · exact h.raised old
  all_goals exact ⟨rfl, rfl⟩

theorem exec_reseedCore {seed : Option (List Byte)} {m : BitVec 4} {s : State} (h : reseedOperandsOk seed m s.inst = true) :
    exec (.reseedCore seed m) s =
      .next ((reseedCore seed m s.beginCommand).2.returning (.outcome (reseedCore seed m s.beginCommand).1)) := if_pos h

/-- What a run of `ReseedCore` on its own tells about the reseed. -/
theorem reseedCore_of_exec {seed : Option (List Byte)} {m : BitVec 4} {s c : State} {f : Option Status}
    (h : exec (.reseedCore seed m) s = .next c) (hret : c.ret = .outcome f) :
    (reseedCore seed m s.beginCommand).1 = f ∧ c = (reseedCore seed m s.beginCommand).2.returning (.outcome f) := by
  cases hok : reseedOperandsOk seed m s.inst with
  | false =>
    have hrefused : exec (.reseedCore seed m) s = .refused .reseedOperand := if_neg (by simp [hok])
    rw [hrefused] at h
    cases h
  | true =>
    rw [exec_reseedCore hok, Host.Outcome.next.injEq] at h
    subst h
    obtain rfl : (reseedCore seed m s.beginCommand).1 = f := by simpa [State.returning] using hret
    exact ⟨rfl, rfl⟩

/-- A command whose reseed fails ends where the reseed, run on its own, ended (R330, R340). -/
theorem orRaise_reseedCore_failed {seed : Option (List Byte)} {m : BitVec 4} {s c : State} {e : Status} {code : BitVec 8}
    {st : RunState} (h : exec (.reseedCore seed m) s = .next c) (hret : c.ret = .outcome (some e))
    (hf : ReseedFailure e code st) (before : List Event) (go : State → Status × State) :
    (orRaise (reseedCore seed m (s.beginCommand.over before .none)) go).2 = c.failed code st before := by
  obtain ⟨hfail, rfl⟩ := reseedCore_of_exec h hret
  obtain ⟨rfl, rfl⟩ := hf.raised (reseedCore seed m s.beginCommand).2.inst.state
  rw [over_reseedCore, orRaise_fail (by exact hfail)]
  rfl

/-! ## ReseedCore (R165) -/

theorem reseedOperandsOk_drng {seed : List Byte} {m : BitVec 4} {i : Instance} (hm : mulLegal i.dfDisabled m = true)
    (hlen : seed.length = entropySizeFor i.dfDisabled m) : reseedOperandsOk (some seed) m i = true := by
  simp [reseedOperandsOk, hm, hlen]

theorem reseedOperandsOk_hrng {seed : Option (List Byte)} {m : BitVec 4} {i : Instance} (hm : mulLegal i.dfDisabled m = true)
    (hmode : i.mode = .hrng) : reseedOperandsOk seed m i = true := by
  simp [reseedOperandsOk, hm, hmode]

/-- Settles O49, by the two successful runs of the reseed. -/
theorem reseedCoreCompletes : Obligations.ReseedCoreCompletes := by
  intro s m done certf rest hmap hh hm hd
  refine ⟨fun seed hmode hlen hscript => ?_, fun bs hmode hlen hg hr hf hscript => ?_⟩
  · rw [exec_reseedCore (reseedOperandsOk_drng hm hlen),
      reseedCore_drng seed m (s := s.beginCommand) hmap hmode hh hscript hd]
    simp [State.returning, beginReseed, reseededInst, State.beginCommand]
  · rw [exec_reseedCore (reseedOperandsOk_hrng hm hmode),
      reseedCore_hrng none m bs (s := s.beginCommand) hmap hmode hh hm hlen hg hr hf hscript hd]
    simp [State.returning, beginReseed, reseededInst, State.beginCommand, Nat.add_assoc]

/-- Seed material outside DRNG mode whose collection fails (R167). -/
theorem reseedCore_collect_fails {m : BitVec 4} {s : State} {e : Status} (hmode : s.inst.mode = .hrng)
    (hm : mulLegal s.inst.dfDisabled m = true)
    (h : (collectBurst .scratch (entropySizeFor s.inst.dfDisabled m) (hwProgram .entropy (beginReseed m s))).fail = some e)
    (seed : Option (List Byte)) :
    reseedCore seed m s =
      (some e,
        (collectBurst .scratch (entropySizeFor s.inst.dfDisabled m) (hwProgram .entropy (beginReseed m s))).state) := by
  have hsize : (beginReseed m s).inst.entropySize.toNat = entropySizeFor s.inst.dfDisabled m := entropySize_toNat hm
  have hmode' : (beginReseed m s).inst.mode = .hrng := hmode
  unfold reseedCore seedMaterial
  simp only [hmode', hsize, h]

/-- Seed material with a forbidden word: nothing is done after the collection (R212, R167). -/
theorem reseedCore_forbidden {m : BitVec 4} {s : State} (hmode : s.inst.mode = .hrng)
    (hm : mulLegal s.inst.dfDisabled m = true)
    (h : (collectBurst .scratch (entropySizeFor s.inst.dfDisabled m) (hwProgram .entropy (beginReseed m s))).fail = none)
    (hbad : checkSeedPattern
      (collectBurst .scratch (entropySizeFor s.inst.dfDisabled m) (hwProgram .entropy (beginReseed m s))).bytes
        (entropySizeFor s.inst.dfDisabled m) = false)
    (seed : Option (List Byte)) :
    reseedCore seed m s =
      (some .errCertfSw,
        (collectBurst .scratch (entropySizeFor s.inst.dfDisabled m) (hwProgram .entropy (beginReseed m s))).state) := by
  have hsize : (beginReseed m s).inst.entropySize.toNat = entropySizeFor s.inst.dfDisabled m := entropySize_toNat hm
  have hmode' : (beginReseed m s).inst.mode = .hrng := hmode
  unfold reseedCore seedMaterial
  simp [hmode', hsize, h, hbad]

/-- A reseed in HRNG mode whose collected bursts hold a forbidden word (R212). -/
theorem reseedCore_hrng_forbidden (seed : Option (List Byte)) {m : BitVec 4} (bs : List Burst) {s : State} {rest : List Word}
    (hmap : MapOk s.params.map) (hmode : s.inst.mode = .hrng) (hh : s.held = false)
    (hm : mulLegal s.inst.dfDisabled m = true) (hlen : 16 * bs.length = entropySizeFor s.inst.dfDisabled m)
    (hg : ∀ x ∈ bs, x.Good s.params .hrng) (hr : NoRepeat bs) (hf : ¬ NoForbidden bs)
    (h : s.script = burstDraws .hrng bs ++ rest) :
    reseedCore seed m s =
      (some .errCertfSw,
        { s with
          inst := { reseededInst m s.inst with win := windowAfter s.inst.win bs }
          port := { s.port with ctrl := started s.params.map .entropy }.afterBursts s.params .hrng bs
          script := rest
          drawCount := s.drawCount + (burstDraws .hrng bs).length
          log := (collectEvents s.params .hrng .entropy .scratch bs).reverse ++ s.log }) := by
  have hne : bs ≠ [] := by
    rintro rfl
    have := entropySizeFor_legal hm
    simp only [List.length_nil, Nat.mul_zero] at hlen
    omega
  have hbad : checkSeedPattern (burstBytes bs) (16 * bs.length) = false := by
    rw [← Bool.not_eq_true, checkSeedPattern_bursts]
    exact hf
  have hmode' : (beginReseed m s).inst.mode = .hrng := hmode
  have hcollect := programCollect_good .entropy .scratch bs (s := beginReseed m s) (rest := rest) hmap hne hh
    (by rw [hmode']; exact hg) hr (by rw [hmode']; exact h)
  rw [hlen, hmode'] at hcollect
  rw [hlen] at hbad
  rw [reseedCore_forbidden hmode hm (by rw [hcollect]) (by rw [hcollect]; exact hbad), hcollect]
  rfl

/-- What a run of `CollectBurst` on its own tells about the collection. -/
theorem collectBurst_of_exec {dst : Dst} {n : Nat} {s c : State} {f : Option Status} {b : List Byte}
    (h : exec (.collectBurst dst n) s = .next c) (hret : c.ret = .collected f b) :
    collectBurst dst n s.beginCommand = ⟨f, b, (collectBurst dst n s.beginCommand).state⟩ ∧
      c = (collectBurst dst n s.beginCommand).state.returning (.collected f b) := by
  rw [exec_collectBurst, Host.Outcome.next.injEq] at h
  subst h
  obtain ⟨rfl, rfl⟩ : (collectBurst dst n s.beginCommand).fail = f ∧ (collectBurst dst n s.beginCommand).bytes = b := by
    simpa [State.returning] using hret
  exact ⟨rfl, rfl⟩

/-- `HwProgram` and a collection run one after the other on their own are the collection of a command (R301). -/
theorem programCollect_of_exec {sel : HwSel} {dst : Dst} {n : Nat} {s a c : State} {f : Option Status} {b : List Byte}
    (ha : exec (.hwProgram sel) s = .next a) (h : exec (.collectBurst dst n) a = .next c) (hret : c.ret = .collected f b) :
    collectBurst dst n (hwProgram sel s.beginCommand) = ⟨f, b, c.over a.log .none⟩ := by
  rw [exec_hwProgram, Host.Outcome.next.injEq] at ha
  have hnone : a.ret = .none := by rw [← ha, (keep_hwProgram sel s.beginCommand).ret]; rfl
  obtain ⟨hcollect, rfl⟩ := collectBurst_of_exec h hret
  rw [ha, ← State.over_beginCommand a, over_collectBurst, hnone, hcollect]
  rfl

/-- Settles O50, by what the reseed can do and its steps in HRNG mode. -/
theorem reseedCoreIsEagerAndBounded : Obligations.ReseedCoreIsEagerAndBounded := by
  intro s seed m hm hseed
  have hok : reseedOperandsOk seed m s.inst = true := by
    by_cases hmode : s.inst.mode = .drng
    · simp [reseedOperandsOk, hm, hseed hmode]
    · simp [reseedOperandsOk, hm, hmode]
  refine ⟨⟨_, _, exec_reseedCore hok, rfl, ?_⟩, fun hmode a c f b ha hc hret => ⟨?_, ?_⟩⟩
  · have hout := reseedCore_outcome seed m s.beginCommand
    refine ⟨?_, hout.result, hout.mem, hout.reset, hout.resetCount, ?_⟩
    · have hinst := hout.inst
      rw [hout.state, stateAfter_eq] at hinst
      exact hinst
    · simpa [accessCount] using hout.accesses hm
  all_goals have hcollect := programCollect_of_exec ha hc hret
  · rintro e rfl
    have hcore := reseedCore_collect_fails (s := s.beginCommand) hmode hm (congrArg Collected.fail hcollect) seed
    rw [exec_reseedCore hok, hcore]
    exact congrArg (fun u : State => Host.Outcome.next (u.returning (.outcome (some e)))) (congrArg Collected.state hcollect)
  · rintro rfl hforbidden
    have hcore := reseedCore_forbidden (s := s.beginCommand) hmode hm (congrArg Collected.fail hcollect)
      (by rw [checkSeedPattern_eq_false_iff]; exact congrArg Collected.bytes hcollect ▸ hforbidden) seed
    rw [exec_reseedCore hok, hcore]
    exact congrArg (fun u : State => Host.Outcome.next (u.returning (.outcome (some .errCertfSw))))
      (congrArg Collected.state hcollect)

/-! ## RESEED (R160) -/

theorem mulLegal_eq_false_iff {d : Bool} {m : BitVec 4} :
    mulLegal d m = false ↔ (d = false ∧ (m.toNat < 2 ∨ 9 < m.toNat)) ∨ (d = true ∧ m ≠ 0) := by
  cases d
  · simp only [mulLegal, Config.dfLenMulMin, Config.dfLenMulMax, Bool.false_eq_true, if_false, Bool.and_eq_false_iff,
      decide_eq_false_iff_not, true_and, false_and, or_false]
    omega
  · simp [mulLegal]

/-- The seed of the record is the initial seed byte by byte (R163). -/
theorem recordSeed_eq_iff (m : Memory) (a0 : HostAddr) {n : Nat} (hn : n ≤ 160) (init : Vector Byte 160) :
    recordSeed m a0 n = init.toList.take n ↔ ∀ k : Fin 160, k.val < n → memRead m (a0.toNat + 8 + k.val) = init[k] := by
  have hlen : (recordSeed m a0 n).length = n := by simp [recordSeed, memReadBytes]
  constructor
  · intro h k hk
    have hget : (recordSeed m a0 n)[k.val]? = (init.toList.take n)[k.val]? := by rw [h]
    simpa [recordSeed, memReadBytes, hk] using hget
  · intro h
    refine List.ext_getElem (by simp [hlen, hn]) fun k hk _ => ?_
    rw [hlen] at hk
    simpa [recordSeed, memReadBytes] using h ⟨k, by omega⟩ hk

theorem exec_reseed_rejected {mul : BitVec 4} {seedp : Bool} {a0 : HostAddr} {s : State} {e : Status}
    (hs : s.inst.state = .healthy) (hm : s.inst.mode ≠ .ptrng) (ha : seedp = true → a0 ≠ nullAddr)
    (h : reseedReject seedp mul s.inst = some e) :
    exec (.reseed mul seedp a0) s =
      .next { s with inst := { s.inst with state := raisedState e s.inst.state }, result := statusCode e, log := [], ret := .none } := by
  rw [exec_reseed mul ha, opReseed_rejected (s := s.beginCommand) hs hm h]
  rfl

/-- The replay check (R163). -/
theorem exec_reseed_replay {mul : BitVec 4} {a0 : HostAddr} {s : State} (hs : s.inst.state = .healthy)
    (hm : s.inst.mode = .drng) (ha : a0 ≠ nullAddr) (hmul : mulLegal s.inst.dfDisabled mul = true)
    (h : ∀ k : Fin 160, k.val < entropySizeFor s.inst.dfDisabled mul →
      memRead s.mem (a0.toNat + 8 + k.val) = s.inst.initSeed[k]) :
    exec (.reseed mul true a0) s =
      .next
        { s with
          inst := { s.inst with state := .error }
          result := 0x05
          log := [hostSeedRead s.mem a0 (entropySizeFor s.inst.dfDisabled mul)]
          ret := .none } := by
  have hreject : reseedReject true mul s.inst = none := by simp [reseedReject, hm, hmul]
  have hsame := (recordSeed_eq_iff s.mem a0 (entropySizeFor_legal hmul).2.1 s.inst.initSeed).2 h
  rw [exec_reseed mul (fun _ => ha), opReseed_drng (s := s.beginCommand) hs hm hreject, reseedWithSeed]
  simp only [show s.beginCommand.mem = s.mem from rfl, show s.beginCommand.inst = s.inst from rfl, if_pos hsame]
  rfl

/-- Settles O46: the guards in order. -/
theorem reseedGuards : Obligations.ReseedGuards := by
  intro s mul seedp a0 code hs hm ha hcode hne
  have hrejected : ∀ e, reseedReject seedp mul s.inst = some e → raisedState e s.inst.state = .error → code = statusCode e →
      code ≠ 0x05 → exec (.reseed mul seedp a0) s =
        .next
          { s with
            inst := { s.inst with state := .error }
            result := code
            log := if code = 0x05 then [hostSeedRead s.mem a0 (entropySizeFor s.inst.dfDisabled mul)] else []
            ret := .none } := by
    intro e he hstate hc h5
    rw [exec_reseed_rejected hs hm ha he, hstate, ← hc, if_neg h5]
  by_cases hmissing : s.inst.mode = .drng ∧ seedp = false
  · rw [if_pos hmissing] at hcode
    exact hrejected .errNoSeed (if_pos hmissing) rfl hcode (by rw [hcode]; decide)
  rw [if_neg hmissing] at hcode
  by_cases hextra : s.inst.mode = .hrng ∧ seedp = true
  · rw [if_pos hextra] at hcode
    exact hrejected .errUnnecessaryParam (by rw [reseedReject, if_neg hmissing, if_pos hextra]) rfl hcode (by rw [hcode]; decide)
  rw [if_neg hextra] at hcode
  cases hmul : mulLegal s.inst.dfDisabled mul with
  | false =>
    have hc : code = 0x01 := by
      obtain h | h := mulLegal_eq_false_iff.1 hmul
      · rw [hcode, if_pos h]
      · rw [hcode, if_neg (by simp [h.1]), if_pos h]
    exact hrejected .errInvalidParam (by simp [reseedReject, hmissing, hextra, hmul]) rfl hc (by rw [hc]; decide)
  | true =>
    have hlegal := mt (mulLegal_eq_false_iff (d := s.inst.dfDisabled) (m := mul)).2 (by simp [hmul])
    rw [not_or] at hlegal
    rw [if_neg hlegal.1, if_neg hlegal.2] at hcode
    by_cases hreplay : s.inst.mode = .drng ∧ ∀ k : Fin 160, k.val < entropySizeFor s.inst.dfDisabled mul →
        memRead s.mem (a0.toNat + 8 + k.val) = s.inst.initSeed[k]
    · rw [if_pos hreplay] at hcode
      obtain ⟨hdrng, hsame⟩ := hreplay
      obtain rfl : seedp = true := by simpa [hdrng] using hmissing
      rw [exec_reseed_replay hs hdrng (ha rfl) hmul hsame, hcode]
      rfl
    · rw [if_neg hreplay] at hcode
      exact absurd hcode hne

/-- `RESEED` in DRNG mode with a new seed runs the reseed (R160 step 6). -/
theorem exec_reseed_newSeed {mul : BitVec 4} {a0 : HostAddr} {s : State} {k : Fin 160} (hs : s.inst.state = .healthy)
    (hm : s.inst.mode = .drng) (ha : a0 ≠ nullAddr) (hmul : mulLegal s.inst.dfDisabled mul = true)
    (hk : k.val < entropySizeFor s.inst.dfDisabled mul) (hdiff : memRead s.mem (a0.toNat + 8 + k.val) ≠ s.inst.initSeed[k]) :
    exec (.reseed mul true a0) s =
      .next
        (orRaise (reseedCore (some (hostSeed s.mem a0 (entropySizeFor s.inst.dfDisabled mul))) mul
          (s.beginCommand.over [hostSeedRead s.mem a0 (entropySizeFor s.inst.dfDisabled mul)] .none)) State.succeed).2 := by
  have hreject : reseedReject true mul s.inst = none := by simp [reseedReject, hm, hmul]
  have hnew : recordSeed s.mem a0 (entropySizeFor s.inst.dfDisabled mul) ≠
      s.inst.initSeed.toList.take (entropySizeFor s.inst.dfDisabled mul) := fun h =>
    hdiff ((recordSeed_eq_iff s.mem a0 (entropySizeFor_legal hmul).2.1 s.inst.initSeed).1 h k hk)
  rw [exec_reseed mul (fun _ => ha), opReseed_drng (s := s.beginCommand) hs hm hreject, reseedWithSeed]
  simp only [show s.beginCommand.mem = s.mem from rfl, show s.beginCommand.inst = s.inst from rfl, if_neg hnew]
  rfl

/-- Settles O47: with a new seed the command is the reseed after the read of the seed. -/
theorem reseedDrng : Obligations.ReseedDrng := by
  rintro s mul a0 seed k hs hm ha hmul rfl hk hdiff
  rw [exec_reseed_newSeed hs hm ha hmul hk hdiff]
  refine ⟨fun done certf rest hmap hh hd hscript => ?_, fun c e code st hc hret hf => ?_⟩
  · rw [over_reseedCore, reseedCore_drng _ mul (s := s.beginCommand) hmap hm hh hscript hd, orRaise_ok rfl]
    simp [State.over, State.succeed, statusCode, beginReseed, reseededInst, State.beginCommand]
  · exact congrArg _ (orRaise_reseedCore_failed hc hret hf _ _)

theorem exec_reseed_hrng {mul : BitVec 4} (a0 : HostAddr) {s : State} (hs : s.inst.state = .healthy)
    (hm : s.inst.mode = .hrng) (hmul : mulLegal s.inst.dfDisabled mul = true) :
    exec (.reseed mul false a0) s = .next (orRaise (reseedCore none mul s.beginCommand) State.succeed).2 := by
  rw [exec_reseed mul (by simp), opReseed_hrng (s := s.beginCommand) hs hm (by simp [reseedReject, hm, hmul])]

/-- Settles O48: the command is the reseed, which completes, finds a forbidden word or fails. -/
theorem reseedHrng : Obligations.ReseedHrng := by
  intro s mul a0 hs hm hmul
  rw [exec_reseed_hrng a0 hs hm hmul]
  refine ⟨fun bs done certf rest hmap hh hlen hg hr hf hd hscript => ?_,
    fun bs rest hmap hh hlen hg hr hf hscript => ?_, fun c e code st hc hret hf => ?_⟩
  · rw [reseedCore_hrng none mul bs (s := s.beginCommand) hmap hm hh hmul hlen hg hr hf hscript hd, orRaise_ok rfl]
    simp [State.succeed, statusCode, beginReseed, reseededInst, State.beginCommand, Nat.add_assoc]
  · rw [reseedCore_hrng_forbidden none bs (s := s.beginCommand) hmap hm hh hmul hlen hg hr hf hscript, orRaise_fail rfl]
    simp [State.raise, statusCode, raisedState, isCatastrophic, State.beginCommand]
  · exact congrArg _ (orRaise_reseedCore_failed hc hret hf [] _)

end Sys2Proof.Machine
end

section
/-! `GENERATE` (40_core_operations.md R170): its checks, its output in every mode, the self-heal, and how it ends when the
collection or the reseed fails. -/

namespace Sys2Proof.Machine

/-! ## The seed policy (R172, R173) -/

theorem selfHealDue_iff {pr : Bool} {i : Instance} :
    selfHealDue pr i = true ↔ i.seedLife.toNat ≤ i.generateCallsSinceReseed.toNat ∨
      (pr = true ∧ 1 ≤ i.generateCallsSinceReseed.toNat) := by
  simp [selfHealDue]

theorem drngLifeSpent_iff {p : Params} {i : Instance} :
    drngLifeSpent p i = true ↔ i.seedLife.toNat < i.generateCallsSinceReseed.toNat ∨
      (p.drngSeedLifeInclusive = true ∧ i.seedLife.toNat = i.generateCallsSinceReseed.toNat) := by
  cases h : p.drngSeedLifeInclusive
  · simp [drngLifeSpent, h]
  · simp only [drngLifeSpent, h, if_true, decide_eq_true_eq, true_and]
    omega

/-- The DRNG seed policy (R173). -/
theorem generatePolicy_drng {pr : Bool} {s : State} (hm : s.inst.mode = .drng) :
    generatePolicy pr s =
      if drngLifeSpent s.params s.inst = true ∨ (pr = true ∧ 1 ≤ s.inst.generateCallsSinceReseed.toNat) then
        (some .errReseedRequired, s)
      else (none, s) := by
  unfold generatePolicy
  rw [hm]
  by_cases hl : drngLifeSpent s.params s.inst = true <;>
    by_cases hp : pr = true ∧ 1 ≤ s.inst.generateCallsSinceReseed.toNat <;> simp [hl, hp]

theorem generatePolicy_heals {pr : Bool} {s : State} (hm : s.inst.mode = .hrng) (h : selfHealDue pr s.inst = true) :
    generatePolicy pr s = reseedCore none s.inst.dfLenMul s := by
  unfold generatePolicy
  rw [hm]
  exact if_pos h

theorem generatePolicy_hrng_passes {pr : Bool} {s : State} (hm : s.inst.mode = .hrng) (h : selfHealDue pr s.inst = false) :
    generatePolicy pr s = (none, s) := by
  unfold generatePolicy
  rw [hm]
  exact if_neg (by simp [h])

theorem generatePolicy_ptrng (pr : Bool) {s : State} (hm : s.inst.mode = .ptrng) : generatePolicy pr s = (none, s) := by
  unfold generatePolicy
  rw [hm]

/-! ## The checks (R171, R173) -/

theorem exec_generate_rejected {pr : Bool} {size : BitVec 24} {a0 : HostAddr} {s : State} {e : Status}
    (hs : s.inst.state = .healthy) (ha : a0 ≠ nullAddr) (h : generateReject size.toNat pr s.inst = some e) :
    exec (.generate pr size a0) s =
      .next { s with inst := { s.inst with state := raisedState e s.inst.state }, result := statusCode e, log := [], ret := .none } := by
  rw [exec_generate pr size ha, opGenerate_rejected (s := s.beginCommand) hs h]
  rfl

theorem exec_generate_reseedRequired {pr : Bool} {size : BitVec 24} {a0 : HostAddr} {s : State}
    (hs : s.inst.state = .healthy) (ha : a0 ≠ nullAddr) (h : generateReject size.toNat pr s.inst = none)
    (hm : s.inst.mode = .drng)
    (hp : drngLifeSpent s.params s.inst = true ∨ (pr = true ∧ 1 ≤ s.inst.generateCallsSinceReseed.toNat)) :
    exec (.generate pr size a0) s =
      .next { s with inst := { s.inst with state := .error }, result := 0x06, log := [], ret := .none } := by
  have hpolicy : generatePolicy pr s.beginCommand = (some .errReseedRequired, s.beginCommand) :=
    (generatePolicy_drng (s := s.beginCommand) hm).trans (if_pos hp)
  rw [exec_generate pr size ha, opGenerate_policy_fails (s := s.beginCommand) hs h (by rw [hpolicy]), hpolicy]
  rfl

/-- Settles O51: the checks in order. -/
theorem generateChecks : Obligations.GenerateChecks := by
  intro s pr size a0 code hs ha hcode hne
  by_cases hsize : size.toNat < 32
  · rw [if_pos hsize] at hcode
    rw [exec_generate_rejected hs ha (e := .errInvalidParam) (if_pos hsize), hcode]
    rfl
  by_cases hptrng : pr = true ∧ s.inst.mode = .ptrng
  · rw [if_neg hsize, if_pos hptrng] at hcode
    rw [exec_generate_rejected hs ha (e := .errUnnecessaryParam) (by rw [generateReject, if_neg hsize, if_pos hptrng]), hcode]
    rfl
  by_cases hpr : pr = true ∧ s.inst.predResEn = false
  · rw [if_neg hsize, if_neg hptrng, if_pos hpr] at hcode
    rw [exec_generate_rejected hs ha (e := .errInvalidParam)
      (by rw [generateReject, if_neg hsize, if_neg hptrng, if_pos hpr]), hcode]
    rfl
  rw [if_neg hsize, if_neg hptrng, if_neg hpr] at hcode
  have hreject : generateReject size.toNat pr s.inst = none := by
    rw [generateReject, if_neg hsize, if_neg hptrng, if_neg hpr]
  obtain ⟨hm, hspent, hc⟩ : s.inst.mode = .drng ∧
      (drngLifeSpent s.params s.inst = true ∨ (pr = true ∧ 1 ≤ s.inst.generateCallsSinceReseed.toNat)) ∧ code = 0x06 := by
    rw [drngLifeSpent_iff]
    split_ifs at hcode with hless hequal hdue
    · exact ⟨hless.1, .inl (.inl hless.2), hcode⟩
    · exact ⟨hequal.1, .inl (.inr hequal.2), hcode⟩
    · exact ⟨hdue.1, .inr hdue.2, hcode⟩
    · exact absurd hcode hne
  rw [exec_generate_reseedRequired hs ha hreject hm hspent, hc]

/-! ## The output (R174, R175) -/

/-- How `GENERATE` ends after its output was collected (R170 steps 6 and 7). -/
def generateEnd (r : Collected) : Generated :=
  match r.fail with
  | some e => ⟨e, r.bytes, (r.state.raise e).2⟩
  | none => ⟨.success, r.bytes, (countGenerate r.state).succeed.2⟩

theorem opGenerate_outputs {dst : Dst} {size : Nat} {pr : Bool} {s : State} (hs : s.inst.state = .healthy)
    (h : generateReject size pr s.inst = none) (hp : (generatePolicy pr s).1 = none) :
    opGenerate dst size pr s = generateEnd (generateOutput dst (generatePolicy pr s).2) := by
  unfold generateEnd
  split
  · next e he => exact opGenerate_output_fails hs h hp he
  · next he => exact opGenerate_done hs h hp he

theorem over_generateEnd {l : List Event} {x : Ret} (f : Option Status) (b : List Byte) (s : State) :
    (generateEnd ⟨f, b, s.over l x⟩).state = (generateEnd ⟨f, b, s⟩).state.over l x := by
  cases f <;> rfl

/-- A `GENERATE` whose collection fails ends where the collection, run on its own, ended (R330, R340). -/
theorem generateEnd_failed {c : State} {e : Status} {b : List Byte} {code : BitVec 8} {st : RunState}
    (hf : CollectFailure e code st) (before : List Event) :
    (generateEnd ⟨some e, b, c.over before .none⟩).state = c.failed code st before := by
  obtain ⟨rfl, rfl⟩ := hf.raised c.inst.state
  rfl

theorem generateOutput_hardware {s : State} (hm : s.inst.mode ≠ .ptrng) (dst : Dst) :
    generateOutput dst s = collectBurst dst 32 (hwProgram .prngGen s) := by
  unfold generateOutput
  cases hmode : s.inst.mode
  · rfl
  · rfl
  · exact absurd hmode hm

/-- Two good bursts of hardware output, collected into the buffer (R175, R301). -/
theorem generateOutput_twoBursts {b0 b1 : Burst} {s : State} {rest : List Word} (hm : s.inst.mode ≠ .ptrng)
    (hmap : MapOk s.params.map) (hh : s.held = false) (hg : ∀ x ∈ [b0, b1], x.Good s.params s.inst.mode)
    (hne : b0.words ≠ b1.words) (h : s.script = burstDraws s.inst.mode [b0, b1] ++ rest) (dst : Dst) :
    generateOutput dst s =
      ⟨none, keptBytes dst (burstBytes [b0, b1]),
        { s with
          inst := { s.inst with win := b1.words }
          port :=
            { s.port with
              ctrl := started s.params.map .prngGen
              status := shown s.params b1.dtf
              coreOutput := b1.words[3] }
          mem := putMem dst 0 (burstBytes [b0, b1]) s.mem
          script := rest
          drawCount := s.drawCount + 12
          log := (collectEvents s.params s.inst.mode .prngGen dst [b0, b1]).reverse ++ s.log }⟩ := by
  have hcollect := programCollect_good .prngGen dst [b0, b1] hmap (by simp) hh hg ⟨hne, trivial⟩ h
  have hstatus : b1.lastStatus s.params s.inst.mode = shown s.params b1.dtf := by
    cases hmode : s.inst.mode
    · rfl
    · rfl
    · exact absurd hmode hm
  have hdraws : (burstDraws s.inst.mode [b0, b1]).length = 12 := by
    cases hmode : s.inst.mode
    · simp [burstDraws, Burst.draws]
    · simp [burstDraws, Burst.draws]
    · exact absurd hmode hm
  rw [generateOutput_hardware hm, show (32 : Nat) = 16 * [b0, b1].length from rfl, hcollect, hdraws]
  simp only [Port.afterBursts, List.getLast?_cons_cons, List.getLast?_singleton, hstatus]
  rfl

/-- The policy of HRNG and DRNG modes lets a call through within the seed life (R172, R173). -/
theorem generatePolicy_within {pr : Bool} {s : State} (hm : s.inst.mode ≠ .ptrng)
    (hpr : pr = true → s.inst.generateCallsSinceReseed = 0)
    (hhrng : s.inst.mode = .hrng → s.inst.generateCallsSinceReseed.toNat < s.inst.seedLife.toNat)
    (hdrng : s.inst.mode = .drng → s.inst.generateCallsSinceReseed.toNat ≤ s.inst.seedLife.toNat ∧
      (s.params.drngSeedLifeInclusive = true → s.inst.generateCallsSinceReseed.toNat ≠ s.inst.seedLife.toNat)) :
    generatePolicy pr s = (none, s) := by
  have hdue : ¬ (pr = true ∧ 1 ≤ s.inst.generateCallsSinceReseed.toNat) := by
    rintro ⟨h, h1⟩
    rw [hpr h] at h1
    exact absurd h1 (by decide)
  cases hmode : s.inst.mode with
  | hrng =>
    refine generatePolicy_hrng_passes hmode (Bool.eq_false_iff.2 fun h => ?_)
    obtain hlife | h := selfHealDue_iff.1 h
    · exact absurd (hhrng hmode) (by omega)
    · exact hdue h
  | drng =>
    rw [generatePolicy_drng hmode, if_neg]
    rw [drngLifeSpent_iff]
    obtain ⟨hle, hne⟩ := hdrng hmode
    rintro ((hlt | ⟨hinc, heq⟩) | h)
    · omega
    · exact hne hinc heq.symm
    · exact hdue h
  | ptrng => exact absurd hmode hm

/-- Settles O52: the policy lets the call through, so the collection decides. -/
theorem generateHardwareOutput : Obligations.GenerateHardwareOutput := by
  intro s pr size a0 hs hm ha hsize hpr hhrng hdrng
  have hreject : generateReject size.toNat pr s.inst = none :=
    generateReject_eq_none_iff.2 ⟨hsize, fun h => ⟨hm, (hpr h).1⟩⟩
  have hpolicy : generatePolicy pr s.beginCommand = (none, s.beginCommand) :=
    generatePolicy_within hm (fun h => (hpr h).2) hhrng hdrng
  rw [exec_generate pr size ha, opGenerate_outputs (s := s.beginCommand) hs hreject (by rw [hpolicy]), hpolicy]
  refine ⟨fun b0 b1 rest hmap hh hg0 hg1 hne hwf hscript => ?_, fun a c e b code st hprogram hcollect hret hf => ?_⟩
  · rw [generateOutput_twoBursts (s := s.beginCommand) hm hmap hh (by simp [hg0, hg1]) hne hscript]
    refine ⟨_, rfl, ?_, stored_putMem (.host a0) _ hwf⟩
    simp [generateEnd, countGenerate, State.succeed, statusCode, countedInst, State.beginCommand]
  · rw [generateOutput_hardware (s := s.beginCommand) hm, programCollect_of_exec hprogram hcollect hret, generateEnd_failed hf]

/-! ## PTRNG mode (R174) -/

theorem generateOutput_ptrng_raw {s : State} (hm : s.inst.mode = .ptrng) (hd : s.inst.dfDisabled = true) (dst : Dst) :
    generateOutput dst s = collectBurst dst 32 (hwProgram .entropy s) := by
  unfold generateOutput
  simp only [hm, hd, if_true]

/-- With the DF enabled a failed collection is passed on. -/
theorem generateOutput_ptrng_df_fails {s t : State} {e : Status} {b : List Byte} (hm : s.inst.mode = .ptrng)
    (hd : s.inst.dfDisabled = false)
    (h : collectBurst .scratch s.inst.entropySize.toNat (hwProgram .entropy s) = ⟨some e, b, t⟩) (dst : Dst) :
    generateOutput dst s = ⟨some e, [], t⟩ := by
  unfold generateOutput
  simp [hm, hd, h]

/-- With the DF enabled the first 32 bytes of the DF of the collected entropy are put out. -/
theorem generateOutput_ptrng_df {s t : State} {b out : List Byte} (hm : s.inst.mode = .ptrng)
    (hd : s.inst.dfDisabled = false)
    (h : collectBurst .scratch s.inst.entropySize.toNat (hwProgram .entropy s) = ⟨none, b, t⟩)
    (hout : out = (df Config.blockCipher b none .random).toList.take 32) (dst : Dst) :
    generateOutput dst s = ⟨none, keptBytes dst out, putBytes dst 0 out t⟩ := by
  unfold generateOutput
  simp [hm, hd, h, hout]

theorem burstDraws_ptrng_length (bs : List Burst) : (burstDraws .ptrng bs).length = 5 * bs.length := by
  induction bs with
  | nil => rfl
  | cons b bs ih =>
    rw [burstDraws, List.flatMap_cons, List.length_append, ← burstDraws, ih, List.length_cons]
    simp only [Burst.draws, List.length_cons, Vector.length_toList]
    omega

/-- Good bursts collected in PTRNG mode (R174, R301). -/
theorem programCollect_ptrng (dst : Dst) {bs : List Burst} {s : State} {rest : List Word} (hm : s.inst.mode = .ptrng)
    (hmap : MapOk s.params.map) (hne : bs ≠ []) (hh : s.held = false) (hg : ∀ x ∈ bs, x.Good s.params .ptrng)
    (hr : NoRepeat bs) (h : s.script = burstDraws .ptrng bs ++ rest) :
    collectBurst dst (16 * bs.length) (hwProgram .entropy s) =
      ⟨none, keptBytes dst (burstBytes bs),
        { s with
          inst := { s.inst with win := windowAfter s.inst.win bs }
          port := { s.port with ctrl := started s.params.map .entropy }.afterBursts s.params .ptrng bs
          mem := putMem dst 0 (burstBytes bs) s.mem
          script := rest
          drawCount := s.drawCount + 5 * bs.length
          log := (collectEvents s.params .ptrng .entropy dst bs).reverse ++ s.log }⟩ := by
  rw [← hm] at hg h
  have hgood := programCollect_good .entropy dst bs hmap hne hh hg hr h
  rw [hgood, hm, burstDraws_ptrng_length]

theorem putEvents_host {a : HostAddr} (ha : a ≠ nullAddr) (b : List Byte) : putEvents (.host a) 0 b = [.memWr a.toNat b] :=
  if_neg ha

/-- Settles O53: no policy in PTRNG mode; the collection decides, with the DF on and off. -/
theorem generatePtrngOutput : Obligations.GeneratePtrngOutput := by
  intro s size a0 hs hm ha hsize
  have hreject : generateReject size.toNat false s.inst = none := generateReject_eq_none_iff.2 ⟨hsize, by simp⟩
  have hpolicy : generatePolicy false s.beginCommand = (none, s.beginCommand) := generatePolicy_ptrng false hm
  rw [exec_generate false size ha, opGenerate_outputs (s := s.beginCommand) hs hreject (by rw [hpolicy]), hpolicy]
  refine ⟨fun bs rest out hmap hh hg hr hwf hne hlen hout hscript => ?_, fun a c e b code st hprogram hcollect hret hf => ?_⟩
  · have hgood := fun dst => programCollect_ptrng dst (s := s.beginCommand) hm hmap hne hh hg hr hscript
    cases hd : s.inst.dfDisabled with
    | true =>
      rw [hd, if_pos rfl] at hlen hout
      rw [hlen] at hgood
      subst hout
      rw [generateOutput_ptrng_raw (s := s.beginCommand) hm hd, hgood]
      refine ⟨_, rfl, ?_, stored_putMem (.host a0) _ hwf⟩
      simp [generateEnd, countGenerate, State.succeed, statusCode, countedInst, State.beginCommand]
    | false =>
      rw [hd, if_neg (by simp)] at hlen hout
      rw [hlen] at hgood
      rw [generateOutput_ptrng_df (s := s.beginCommand) hm hd (hgood .scratch) hout, putBytes_eq]
      refine ⟨_, rfl, ?_, stored_putMem (.host a0) _ hwf⟩
      simp [generateEnd, countGenerate, State.succeed, statusCode, countedInst, State.beginCommand, putEvents_host ha]
  · cases hd : s.inst.dfDisabled with
    | true =>
      rw [hd, if_pos rfl] at hcollect
      rw [generateOutput_ptrng_raw (s := s.beginCommand) hm hd, programCollect_of_exec hprogram hcollect hret,
        generateEnd_failed hf]
    | false =>
      rw [hd, if_neg (by simp)] at hcollect
      rw [generateOutput_ptrng_df_fails (s := s.beginCommand) hm hd (programCollect_of_exec hprogram hcollect hret),
        generateEnd_failed hf]

/-! ## The self-heal (R172) -/

/-- After a reseed no self-heal is due. -/
theorem selfHealDue_of_no_calls {pr : Bool} {i : Instance} (hcalls : i.generateCallsSinceReseed = 0)
    (hlife : 1 ≤ i.seedLife.toNat) : selfHealDue pr i = false := by
  refine Bool.eq_false_iff.2 fun h => ?_
  rw [selfHealDue_iff, hcalls] at h
  obtain h | ⟨-, h⟩ := h
  · exact absurd (hlife.trans h) (by decide)
  · exact absurd h (by decide)

/-- A later output hides what earlier bursts left in `STATUS` and `CORE_OUTPUT`. -/
theorem reseededPort_afterBursts_output (p : Params) (m : Mode) (bs : List Burst) (i : Instance) (mat : List Byte)
    (certf ctrl status core : Word) (port : Port) :
    { reseededPort p i mat certf (port.afterBursts p m bs) with ctrl := ctrl, status := status, coreOutput := core } =
      { reseededPort p i mat certf port with ctrl := ctrl, status := status, coreOutput := core } := by
  unfold Port.afterBursts
  split <;> rfl

/-- A command returns nothing (entry 6). -/
theorem opGenerate_ret (dst : Dst) (size : Nat) (pr : Bool) (s : State) :
    (opGenerate dst size pr s.beginCommand).state.ret = .none := by
  exact congrArg (·.state.ret) (over_opGenerate (l := []) (x := .none) dst size pr s.beginCommand)

/-- A `GENERATE` that heals itself goes on as a `GENERATE` from where its reseed, run on its own, ended (R172). -/
theorem opGenerate_after_reseed {dst : Dst} {size : Nat} {pr : Bool} {s c : State} (hs : s.inst.state = .healthy)
    (hm : s.inst.mode = .hrng) (hreject : generateReject size pr s.inst = none) (hheals : selfHealDue pr s.inst = true)
    (hlife : 1 ≤ s.inst.seedLife.toNat) (hc : exec (.reseedCore none s.inst.dfLenMul) s = .next c)
    (hret : c.ret = .outcome none) :
    (opGenerate dst size pr s.beginCommand).state = (opGenerate dst size pr c.beginCommand).state.over c.log .none := by
  obtain ⟨hdone, rfl⟩ := reseedCore_of_exec hc hret
  have hpolicy : generatePolicy pr s.beginCommand = reseedCore none s.inst.dfLenMul s.beginCommand :=
    generatePolicy_heals hm hheals
  have hout := reseedCore_outcome none s.inst.dfLenMul s.beginCommand
  have hstate := reseedCore_state hdone
  generalize (reseedCore none s.inst.dfLenMul s.beginCommand) = r at *
  obtain ⟨f, u⟩ := r
  have hinst : u.inst = { (beginReseed s.inst.dfLenMul s.beginCommand).inst with win := u.inst.win, state := u.inst.state } :=
    hout.inst
  have hmode : u.inst.mode = .hrng := by rw [hinst]; exact hm
  have hpass : generatePolicy pr u.beginCommand = (none, u.beginCommand) := by
    refine generatePolicy_hrng_passes hmode (selfHealDue_of_no_calls ?_ ?_)
    · show u.inst.generateCallsSinceReseed = 0
      rw [hinst]; rfl
    · show 1 ≤ u.inst.seedLife.toNat
      rw [hinst]; exact hlife
  have hreject' : generateReject size pr u.inst = none := by
    rw [generateReject_eq_none_iff] at hreject ⊢
    rw [hinst]
    exact hreject
  have hu : u = u.beginCommand.over u.log .none := by
    rw [show (Ret.none : Ret) = u.ret from hout.ret.symm]
    exact (State.over_beginCommand u).symm
  have hagain : (u.returning (.outcome none)).beginCommand = u.beginCommand := rfl
  rw [hagain, opGenerate_outputs (s := s.beginCommand) hs hreject (by rw [hpolicy]; exact hdone), hpolicy,
    opGenerate_outputs (s := u.beginCommand) (hstate.trans hs) hreject' (by rw [hpass]), hpass]
  conv_lhs => rw [hu, over_generateOutput, over_generateEnd]
  rfl

/-- Settles O54: the policy is the reseed; if it is done, the output follows. -/
theorem generateSelfHeals : Obligations.GenerateSelfHeals := by
  intro s pr size a0 hs hm ha hsize hpr hheals
  have hreject : generateReject size.toNat pr s.inst = none :=
    generateReject_eq_none_iff.2 ⟨hsize, fun h => ⟨by simp [hm], hpr h⟩⟩
  have hdue : selfHealDue pr s.inst = true := selfHealDue_iff.2 hheals
  have hpolicy : generatePolicy pr s.beginCommand = reseedCore none s.inst.dfLenMul s.beginCommand :=
    generatePolicy_heals hm hdue
  rw [exec_generate pr size ha]
  refine ⟨fun bs done certf b0 b1 rest hmap hh hmul hlen hg hr hf hd hne hwf hscript => ?_,
    fun c e code st hc hret hfail => ?_, fun c d hlife hc hret hgen => ?_⟩
  · have hcore := reseedCore_hrng none s.inst.dfLenMul bs (s := s.beginCommand) hmap hm hh hmul hlen
      (fun x hx => hg x (List.mem_append_left _ hx)) hr hf (by simpa using hscript) hd
    have hout := reseedCore_outcome none s.inst.dfLenMul s.beginCommand
    have hheld : (reseedCore none s.inst.dfLenMul s.beginCommand).2.held = false :=
      (State.held_congr hout.reset hout.params).trans hh
    have hmode : (reseedCore none s.inst.dfLenMul s.beginCommand).2.inst.mode = .hrng := by rw [hcore]; exact hm
    have hparams : (reseedCore none s.inst.dfLenMul s.beginCommand).2.params = s.params := hout.params
    have houtput := generateOutput_twoBursts (b0 := b0) (b1 := b1) (rest := rest)
      (s := (reseedCore none s.inst.dfLenMul s.beginCommand).2) (by simp [hmode]) (by rw [hparams]; exact hmap) hheld
      (by rw [hmode, hparams]; exact fun x hx => hg x (List.mem_append_right _ hx)) hne (by rw [hmode, hcore]) (.host a0)
    rw [opGenerate_outputs (s := s.beginCommand) hs hreject (by rw [hpolicy, hcore]), hpolicy, houtput, hcore]
    refine ⟨_, rfl, ?_, rfl, rfl, stored_putMem (.host a0) _ hwf⟩
    simp only [reseededPort_afterBursts_output]
    simp [generateEnd, countGenerate, State.succeed, statusCode, countedInst, reseededInst, beginReseed, State.beginCommand,
      Nat.add_assoc, hm]
  · have hfailed := (reseedCore_of_exec hc hret).1
    have hend : (orRaise (reseedCore none s.inst.dfLenMul s.beginCommand) State.succeed).2 = c.failed code st [] :=
      orRaise_reseedCore_failed hc hret hfail [] _
    rw [orRaise_fail hfailed] at hend
    rw [opGenerate_policy_fails (s := s.beginCommand) hs hreject (by rw [hpolicy]; exact hfailed), hpolicy]
    exact congrArg _ hend
  · rw [exec_generate pr size ha, Host.Outcome.next.injEq] at hgen
    rw [opGenerate_after_reseed hs hm hreject hdue hlife hc hret, ← hgen, State.over,
      ← opGenerate_ret (.host a0) size.toNat pr c]

end Sys2Proof.Machine
end

section
/-! `INSTANTIATE` (40_core_operations.md R152): validation, the configuration it stores, its three modes, and a failure of
the reseed inside it. -/

namespace Sys2Proof.Machine

/-! ## The operand record (30_encoding.md R114, R115) -/

/-- A little-endian number byte by byte. -/
theorem foldr_bytes_eq_sum (f : Nat → Nat) (n : Nat) :
    (List.range n).foldr (fun k acc => f k + 256 * acc) 0 = ((List.range n).map fun k => f k * 2 ^ (8 * k)).sum := by
  induction n generalizing f with
  | zero => rfl
  | succ n ih =>
    have hstep : ∀ k, f (k + 1) * 2 ^ (8 * (k + 1)) = 256 * (f (k + 1) * 2 ^ (8 * k)) := fun k => by ring
    rw [List.range_succ_eq_map, List.foldr_cons, List.foldr_map, ih fun k => f (k + 1), List.map_cons, List.map_map,
      List.sum_cons]
    simp only [Function.comp_def, Nat.succ_eq_add_one, hstep, List.sum_map_mul_left]
    ring

theorem foldr_bytes_lt {f : Nat → Nat} (hf : ∀ k, f k < 256) (n : Nat) :
    (List.range n).foldr (fun k acc => f k + 256 * acc) 0 < 256 ^ n := by
  induction n generalizing f with
  | zero => exact Nat.one_pos
  | succ n ih =>
    have hrest := ih (f := fun k => f (k + 1)) fun k => hf (k + 1)
    have hfirst := hf 0
    rw [List.range_succ_eq_map, List.foldr_cons, List.foldr_map, Nat.pow_succ]
    simp only [Nat.succ_eq_add_one]
    omega

theorem recordSeedLife_toNat (m : Memory) (a0 : HostAddr) : (recordSeedLife m a0).toNat = hostSeedLife m a0 := by
  have hlt := foldr_bytes_lt (f := fun k => (memRead m (a0.toNat + k)).toNat) (fun _ => BitVec.isLt _) 8
  rw [recordSeedLife, BitVec.toNat_ofNat, Nat.mod_eq_of_lt (hlt.trans_le (by norm_num)), hostSeedLife, ← foldr_bytes_eq_sum]

theorem lifeReads_eq (m : Memory) (a0 : HostAddr) : lifeReads m a0 = hostLifeReads m a0 := rfl

theorem recordPers_eq (m : Memory) (a0 : HostAddr) : recordPers m a0 = hostPers m a0 := by
  refine Vector.ext fun i hi => ?_
  simp [recordPers, hostPers, toBytes, memReadBytes]

theorem memReadBytes_pers (m : Memory) (a0 : HostAddr) : memReadBytes m (a0.toNat + 168) 48 = (hostPers m a0).toList := by
  refine List.ext_getElem (by simp [memReadBytes]) fun i _ _ => ?_
  simp [memReadBytes, hostPers]

theorem storeReads_eq (m : Memory) (dfdis : Bool) (mul : BitVec 4) (seedp persp : Bool) (a0 : HostAddr) :
    storeReads m dfdis mul seedp persp a0 = hostStoreReads m dfdis mul seedp persp a0 := by
  rw [storeReads, hostStoreReads, persRead, memReadBytes_pers]
  rfl

/-! ## Validation (R153) -/

theorem validate_raised {c : InstConfig} {e : Status} (h : validate c = some e) (old : RunState) :
    raisedState e old = .error := by
  unfold validate at h
  split at h
  · cases h; rfl
  · split_ifs at h <;> cases h <;> rfl

/-- The code of a check: its failure's, or 0x00 (60_exceptions.md R320). -/
def checkCode (o : Option Status) : BitVec 8 := (o.map statusCode).getD 0x00

theorem checkCode_ite {p : Prop} [Decidable p] (e : Status) (o : Option Status) :
    checkCode (if p then some e else o) = if p then statusCode e else checkCode o := by
  split <;> rfl

theorem checkCode_none : checkCode none = 0x00 := rfl

/-- The multiplier check is V6a and then V6b (R153). -/
theorem ite_mulLegal_eq_false {α : Type} (d : Bool) (m : BitVec 4) (x y : α) :
    (if mulLegal d m = false then x else y) =
      if d = false ∧ (m.toNat < 2 ∨ 9 < m.toNat) then x else if d = true ∧ m ≠ 0 then x else y := by
  rw [if_congr mulLegal_eq_false_iff rfl rfl, ite_or]

/-- The code validation of a record gives, 0x00 if it passes (R153, D5). -/
theorem validate_record_code (m : Memory) (mode : BitVec 2) (pr dfdis : Bool) (mul : BitVec 4) (seedp persp : Bool)
    (a0 : HostAddr) :
    checkCode (validate (instConfigOfRecord m mode pr dfdis mul seedp persp a0)) =
      if mode = 3 then 0x01
      else if mode = 2 ∧ (hostSeedLife m a0 ≠ 0 ∨ seedp = true ∨ persp = true ∨ pr = true) then 0x03
      else if mode = 1 ∧ seedp = false then 0x04
      else if mode = 0 ∧ seedp = true then 0x03
      else if mode ≠ 2 ∧ (hostSeedLife m a0 < 1 ∨ 2 ^ 48 < hostSeedLife m a0) then 0x01
      else if dfdis = false ∧ (mul.toNat < 2 ∨ 9 < mul.toNat) then 0x01
      else if dfdis = true ∧ mul ≠ 0 then 0x01
      else 0x00 := by
  have hlife : recordSeedLife m a0 = 0#64 ↔ hostSeedLife m a0 = 0 := by
    rw [← recordSeedLife_toNat, ← BitVec.toNat_inj]
    rfl
  unfold validate
  obtain rfl | rfl | rfl | rfl : mode = 0 ∨ mode = 1 ∨ mode = 2 ∨ mode = 3 := by revert mode; decide
  · rw [show modeOfBits (instConfigOfRecord m 0 pr dfdis mul seedp persp a0).mode = some .hrng from rfl]
    dsimp only [instConfigOfRecord]
    simp [checkCode_ite, checkCode_none, ite_mulLegal_eq_false, recordSeedLife_toNat, Config.seedLifeMax, statusCode]
  · rw [show modeOfBits (instConfigOfRecord m 1 pr dfdis mul seedp persp a0).mode = some .drng from rfl]
    dsimp only [instConfigOfRecord]
    simp [checkCode_ite, checkCode_none, ite_mulLegal_eq_false, recordSeedLife_toNat, Config.seedLifeMax, statusCode]
  · rw [show modeOfBits (instConfigOfRecord m 2 pr dfdis mul seedp persp a0).mode = some .ptrng from rfl]
    dsimp only [instConfigOfRecord]
    simp [checkCode_ite, checkCode_none, ite_mulLegal_eq_false, hlife, statusCode]
  · rfl

/-- Settles O41: the code of the first failed check is raised from the zero registers. -/
theorem instantiateValidates : Obligations.InstantiateValidates := by
  intro s mode pr dfdis mul seedp persp a0 code hzero ha hcode hne
  rw [← validate_record_code] at hcode
  cases hv : validate (instConfigOfRecord s.mem mode pr dfdis mul seedp persp a0) with
  | none =>
    rw [hv] at hcode
    exact absurd hcode hne
  | some e =>
    rw [hv] at hcode
    have hs : s.beginCommand.inst.state = .uninitialized := congrArg Instance.state hzero
    rw [exec_instantiate mode pr dfdis mul seedp persp ha, opInstantiate_invalid hs hv]
    have hstate := validate_raised hv
    simp only [checkCode, Option.map_some, Option.getD_some] at hcode
    simp [State.raise, clearStatistics, State.logEvents, hstate, hcode, hzero, State.beginCommand, instConfigOfRecord,
      lifeReads_eq, Instance.zero]

/-! ## The configuration (R152 step 5) -/

/-- The registers `INSTANTIATE` stores from the zero ones (R152 steps 2 and 5). -/
def storedInst (c : InstConfig) : Instance :=
  { Instance.zero with
    mode := (modeOfBits c.mode).getD .hrng
    seedLife := c.life.setWidth 49
    predResEn := c.pr
    dfDisabled := c.dfdis
    dfLenMul := c.mul
    entropySize := BitVec.ofNat 8 (entropySizeFor c.dfdis c.mul)
    initSeedPresent := c.seed.isSome
    initSeed := overlay (c.seed.getD []) (Vector.replicate 160 0)
    persStrPresent := c.pers.isSome
    persStr := c.pers.getD (Vector.replicate 48 0) }

theorem storeConfig_of_zero (c : InstConfig) {s : State} (h : s.inst = Instance.zero) :
    (storeConfig c (clearStatistics s)).inst = storedInst c := by
  simp [storeConfig, clearStatistics, storedInst, h, Instance.zero]

/-- The configured and reset machine (R152 steps 2 to 6). -/
theorem configured_eq (c : InstConfig) {s : State} (h : s.inst = Instance.zero) (hm : s.params.map.resetAssert ≠ 0) :
    configured c s =
      { s with
        inst := storedInst c
        port := Port.zeroed 0 (Config.coreOutputAfterReset s.resetCount)
        resetCount := s.resetCount + 1
        log := (c.readsLife ++ c.readsStored ++ resetEvents s.params).reverse ++ s.log } := by
  rw [configured, hwReset_eq (by exact hm), ← storeConfig_of_zero c h]
  simp [storeConfig, clearStatistics, State.logEvents]

theorem storedInst_record {m : Memory} {bits : BitVec 2} {mode : Mode} (hmode : modeOfBits bits = some mode)
    (pr dfdis : Bool) (mul : BitVec 4) (seedp persp : Bool) (a0 : HostAddr) :
    storedInst (instConfigOfRecord m bits pr dfdis mul seedp persp a0) =
      configuredInst .uninitialized mode m pr dfdis mul seedp persp a0 := by
  have hlife : (recordSeedLife m a0).setWidth 49 = BitVec.ofNat 49 (hostSeedLife m a0) := by
    rw [← recordSeedLife_toNat]
    rfl
  have hseed : overlay ((if seedp then some (recordSeed m a0 (entropySizeFor dfdis mul)) else none).getD [])
      (Vector.replicate 160 0) =
        Vector.ofFn fun i => if seedp = true ∧ i.val < entropySizeFor dfdis mul then memRead m (a0.toNat + 8 + i.val) else 0 := by
    refine Vector.ext fun i hi => ?_
    cases seedp
    · simp [overlay]
    · by_cases hlt : i < entropySizeFor dfdis mul <;> simp [overlay, recordSeed, memReadBytes, hlt]
  simp only [storedInst, instConfigOfRecord, configuredInst, hmode, hlife, hseed, recordPers_eq, Option.getD_some]
  cases seedp <;> cases persp <;> rfl

/-- The seed a validated configuration gives its internal reseed (R152 step 7). -/
theorem storedSeed_storedInst {c : InstConfig} (hm : mulLegal c.dfdis c.mul = true)
    (hlen : ∀ b, c.seed = some b → b.length = entropySizeFor c.dfdis c.mul) : storedSeed (storedInst c) = c.seed := by
  have hsize : (storedInst c).entropySize.toNat = entropySizeFor c.dfdis c.mul := entropySize_toNat hm
  unfold storedSeed
  rw [hsize]
  cases hseed : c.seed with
  | none => simp [storedInst, hseed]
  | some b =>
    have hb := hlen b hseed
    have hmax := (entropySizeFor_legal hm).2.1
    have htake : (overlay b (Vector.replicate 160 0)).toList.take (entropySizeFor c.dfdis c.mul) = b := by
      refine List.ext_getElem (by simp [hb, hmax]) fun i hi hib => ?_
      simp [overlay, hib]
    simpa [storedInst, hseed] using htake

/-- The first reseed with the stored multiplier changes no register before the seed material (R166). -/
theorem beginReseed_storedInst (c : InstConfig) {s : State} (h : s.inst = storedInst c) :
    beginReseed (storedInst c).dfLenMul s = s := by
  cases s
  simp only at h
  subst h
  rfl

theorem mode_of_valid {c : InstConfig} {mode : Mode} (h : ValidConfig c mode) : (storedInst c).mode = mode := by
  simp [storedInst, h.names]

/-! ## PTRNG mode -/

/-- `INSTANTIATE` of a legal PTRNG configuration (R157). -/
theorem opInstantiate_ptrng {c : InstConfig} (h : ValidConfig c .ptrng) {s : State} (hzero : s.inst = Instance.zero)
    (hm : s.params.map.resetAssert ≠ 0) :
    opInstantiate c s =
      (.success,
        { s with
          inst := { storedInst c with state := .healthy }
          port := Port.zeroed 0 (Config.coreOutputAfterReset s.resetCount)
          result := 0x00
          resetCount := s.resetCount + 1
          log := (c.readsLife ++ c.readsStored ++ resetEvents s.params).reverse ++ s.log }) := by
  rw [opInstantiate_valid (by rw [hzero]; rfl) (validate_eq_none_iff.2 ⟨_, h⟩), configured_eq c hzero hm,
    finishInstantiate_ptrng (by exact mode_of_valid h)]
  rfl

theorem validConfig_ptrng {m : Memory} {a0 : HostAddr} (hlife : hostSeedLife m a0 = 0) {dfdis : Bool} {mul : BitVec 4}
    (hmul : mulLegal dfdis mul = true) : ValidConfig (instConfigOfRecord m 2 false dfdis mul false false a0) .ptrng where
  names := rfl
  ptrng _ := ⟨BitVec.eq_of_toNat_eq ((recordSeedLife_toNat m a0).trans hlife), rfl, rfl, rfl⟩
  seed h := absurd rfl h
  life h := absurd rfl h
  multiplier := hmul

/-- Settles O42, by the run of a valid PTRNG configuration. -/
theorem instantiatePtrng : Obligations.InstantiatePtrng := by
  intro s dfdis mul a0 hmap hzero ha hlife hmul
  refine ⟨Config.coreOutputAfterReset s.resetCount, ?_⟩
  rw [exec_instantiate 2 false dfdis mul false false ha,
    opInstantiate_ptrng (s := s.beginCommand) (validConfig_ptrng hlife hmul) hzero hmap.assert,
    storedInst_record (mode := .ptrng) rfl]
  simp [State.beginCommand, instConfigOfRecord, lifeReads_eq, storeReads_eq, hostStoreReads, configuredInst]

/-! ## DRNG and HRNG modes -/

theorem validConfig_reseeds {m : Memory} {mode : Mode} {seedp : Bool} {a0 : HostAddr} {dfdis : Bool} {mul : BitVec 4}
    (hmode : (mode = .drng ∧ seedp = true) ∨ (mode = .hrng ∧ seedp = false)) (hmin : 1 ≤ hostSeedLife m a0)
    (hmax : hostSeedLife m a0 ≤ 2 ^ 48) (hmul : mulLegal dfdis mul = true) (pr persp : Bool) :
    ValidConfig (instConfigOfRecord m (modeBits mode) pr dfdis mul seedp persp a0) mode := by
  refine ⟨by cases mode <;> rfl, ?_, ?_, fun _ => ?_, hmul⟩
  · rintro rfl
    simp at hmode
  · obtain ⟨rfl, rfl⟩ | ⟨rfl, rfl⟩ := hmode <;> simp [instConfigOfRecord]
  · rw [show (instConfigOfRecord m (modeBits mode) pr dfdis mul seedp persp a0).life = recordSeedLife m a0 from rfl,
      recordSeedLife_toNat]
    exact ⟨hmin, hmax⟩

/-- `INSTANTIATE` in DRNG mode, the reseed done at the first reads (R165). -/
theorem opInstantiate_drng {c : InstConfig} {seed : List Byte} (h : ValidConfig c .drng) (hseed : c.seed = some seed)
    (hlen : seed.length = entropySizeFor c.dfdis c.mul) {s : State} {done certf : Word} {rest : List Word}
    (hzero : s.inst = Instance.zero) (hmap : MapOk s.params.map) (hd : ReseedDone s.params done certf)
    (hscript : s.script = done :: certf :: rest) :
    opInstantiate c s =
      (.success,
        { s with
          inst := { storedInst c with state := .healthy }
          port := reseededPort s.params (storedInst c) seed certf (Port.zeroed 0 (Config.coreOutputAfterReset s.resetCount))
          result := 0x00
          script := rest
          drawCount := s.drawCount + 2
          resetCount := s.resetCount + 1
          log :=
            (c.readsLife ++ c.readsStored ++ resetEvents s.params ++ deliveryEvents s.params (storedInst c) seed ++
              reseedEvents s.params done certf).reverse ++ s.log }) := by
  have hmode := mode_of_valid h
  have hstored : storedSeed (storedInst c) = some seed := by
    rw [storedSeed_storedInst h.multiplier, hseed]
    simp [hseed, hlen]
  have hconf := configured_eq c hzero hmap.assert
  rw [opInstantiate_valid (by rw [hzero]; rfl) (validate_eq_none_iff.2 ⟨_, h⟩),
    finishInstantiate_reseeds (by rw [hconf]; simp [hmode]), show (configured c s).inst = storedInst c by rw [hconf], hstored,
    reseedCore_drng seed _ (s := configured c s) (by rw [hconf]; exact hmap) (by rw [hconf]; exact hmode)
      (by rw [hconf]; simp [State.held, Port.zeroed]) (by rw [hconf]; exact hscript) (by rw [hconf]; exact hd),
    orRaise_ok rfl, beginReseed_storedInst c (by rw [hconf]), hconf]
  simp [State.succeed, State.setRunState, statusCode]

/-- `INSTANTIATE` in HRNG mode, good bursts and the reseed done at the first reads (R165). -/
theorem opInstantiate_hrng {c : InstConfig} {bs : List Burst} (h : ValidConfig c .hrng)
    (hlen : 16 * bs.length = entropySizeFor c.dfdis c.mul) {s : State} {done certf : Word} {rest : List Word}
    (hzero : s.inst = Instance.zero) (hmap : MapOk s.params.map) (hg : ∀ b ∈ bs, b.Good s.params .hrng) (hr : NoRepeat bs)
    (hf : NoForbidden bs) (hd : ReseedDone s.params done certf)
    (hscript : s.script = burstDraws .hrng bs ++ done :: certf :: rest) :
    opInstantiate c s =
      (.success,
        { s with
          inst := { storedInst c with state := .healthy, win := windowAfter (storedInst c).win bs }
          port := reseededPort s.params (storedInst c) (burstBytes bs) certf
            ((Port.zeroed 0 (Config.coreOutputAfterReset s.resetCount)).afterBursts s.params .hrng bs)
          result := 0x00
          script := rest
          drawCount := s.drawCount + ((burstDraws .hrng bs).length + 2)
          resetCount := s.resetCount + 1
          log :=
            (c.readsLife ++ c.readsStored ++ resetEvents s.params ++ collectEvents s.params .hrng .entropy .scratch bs ++
              deliveryEvents s.params (storedInst c) (burstBytes bs) ++ reseedEvents s.params done certf).reverse ++
                s.log }) := by
  have hmode := mode_of_valid h
  have hconf := configured_eq c hzero hmap.assert
  rw [opInstantiate_valid (by rw [hzero]; rfl) (validate_eq_none_iff.2 ⟨_, h⟩),
    finishInstantiate_reseeds (by rw [hconf]; simp [hmode]), show (configured c s).inst = storedInst c by rw [hconf],
    reseedCore_hrng _ _ bs (s := configured c s) (by rw [hconf]; exact hmap) (by rw [hconf]; exact hmode)
      (by rw [hconf]; simp [State.held, Port.zeroed]) (by rw [hconf]; exact h.multiplier) (by rw [hconf]; exact hlen)
      (by rw [hconf]; exact hg) hr hf (by rw [hconf]; exact hscript) (by rw [hconf]; exact hd),
    orRaise_ok rfl, beginReseed_storedInst c (by rw [hconf]), hconf]
  simp [State.succeed, State.setRunState, statusCode, Nat.add_assoc]

theorem hostSeed_length (m : Memory) (a0 : HostAddr) (n : Nat) : (hostSeed m a0 n).length = n := by
  simp [hostSeed]

/-- Settles O43, by the run of a valid DRNG configuration. -/
theorem instantiateDrng : Obligations.InstantiateDrng := by
  rintro s pr dfdis mul persp a0 done certf rest i seed hmap hzero ha hmin hmax hmul hd hscript rfl rfl
  refine ⟨Config.coreOutputAfterReset s.resetCount, ?_⟩
  have hvalid := validConfig_reseeds (mode := .drng) (.inl ⟨rfl, rfl⟩) hmin hmax hmul pr persp
  rw [exec_instantiate 1 pr dfdis mul true persp ha, show (1 : BitVec 2) = modeBits .drng from rfl,
    opInstantiate_drng (s := s.beginCommand) hvalid rfl (hostSeed_length ..) hzero hmap hd hscript,
    storedInst_record (mode := .drng) rfl]
  simp only [State.beginCommand, instConfigOfRecord, lifeReads_eq, storeReads_eq, List.append_nil]
  rfl

/-- Settles O44, by the run of a valid HRNG configuration. -/
theorem instantiateHrng : Obligations.InstantiateHrng := by
  rintro s pr dfdis mul persp a0 bs done certf rest i hmap hzero ha hmin hmax hmul hlen hg hr hf hd hscript rfl
  refine ⟨Config.coreOutputAfterReset s.resetCount, ?_⟩
  have hvalid := validConfig_reseeds (mode := .hrng) (.inr ⟨rfl, rfl⟩) hmin hmax hmul pr persp
  rw [exec_instantiate 0 pr dfdis mul false persp ha, show (0 : BitVec 2) = modeBits .hrng from rfl,
    opInstantiate_hrng (s := s.beginCommand) hvalid hlen hzero hmap hg hr hf hd hscript,
    storedInst_record (mode := .hrng) rfl]
  simp only [State.beginCommand, instConfigOfRecord, lifeReads_eq, storeReads_eq, List.append_nil]
  rfl

end Sys2Proof.Machine
end

section
/-! A reseed that fails inside `INSTANTIATE` (40_core_operations.md R156, 60_exceptions.md R340): the command ends where the
reseed, run on its own, ends. -/

namespace Sys2Proof.Machine

/-! ## The two failures of the hardware reseed (R169) -/

theorem certfFlag_set {m : PortMap} {v : Word} (h : v &&& m.statusCertf ≠ 0) : certfFlag m v = true := by
  unfold certfFlag
  exact bne_iff_ne.2 h

/-- Where a failed hardware reseed ends after the read `v` of `STATUS`: the start bit stays set (R169). -/
structure ReseedStuck (s : State) (v : Word) (rest : List Word) (t : State) : Prop where
  frame : KeepFrame s t
  port : t.port = { s.port with ctrl := started s.params.map .reseedExt, status := shown s.params v }
  script : t.script = rest

/-- CERTF read as 1 after DONE (R169). -/
theorem hardwareReseed_certf {s : State} {done certf : Word} {rest : List Word} (hm : MapOk s.params.map)
    (hh : s.held = false) (h : s.script = done :: certf :: rest)
    (hdone : done &&& s.params.map.statusDone = s.params.map.statusDone) (hcertf : certf &&& s.params.map.statusCertf ≠ 0) :
    (hardwareReseed s).1 = some .errCertfHw ∧ ReseedStuck s certf rest (hardwareReseed s).2 := by
  have hstart := hardwareReseed_start hm hh
  have hpoll := pollDone_ready (s := assertStart (hwProgram .reseedExt s)) (v := done) (rest := certf :: rest)
    (by rw [hstart]; exact hh) (by rw [hstart]; exact h) (by rw [hstart]; exact hdone)
  refine (fun ⟨hfail, hport, hrest⟩ => ⟨hfail, hardwareReseed_keep s, hport, hrest⟩ : _ ∧ _ ∧ _ → _) ?_
  unfold hardwareReseed
  rw [hpoll, hstart]
  simp only [if_true]
  rw [read32_status (w := certf) (rest := rest) rfl (by exact hh)]
  rw [certfFlag_shown, certfFlag_set hcertf]
  exact ⟨rfl, rfl, rfl⟩

/-- DONE never shown (R169). -/
theorem hardwareReseed_timeout {s : State} {vs : List Word} {v : Word} {rest : List Word} (hm : MapOk s.params.map)
    (hh : s.held = false) (h : s.script = vs ++ v :: rest)
    (hvs : NeverShows s.params s.params.map.statusDone s.params.map.statusDone (vs ++ [v]))
    (hlen : vs.length = pollSleeps s.params.tReseedUs s.params.pollSleepUs) :
    (hardwareReseed s).1 = some .errReseedTimeout ∧ ReseedStuck s v rest (hardwareReseed s).2 := by
  have hstart := hardwareReseed_start hm hh
  have hpoll := pollLoop_timeout s.params.map.statusDone s.params.map.statusDone vs v rest
    (s := assertStart (hwProgram .reseedExt s)) (by rw [hstart]; exact hh) (by rw [hstart]; exact hvs) (by rw [hstart]; exact h)
  have hdone : pollDone (assertStart (hwProgram .reseedExt s)) =
      pollLoop .status s.params.map.statusDone s.params.map.statusDone (assertStart (hwProgram .reseedExt s)).params.pollSleepUs
        vs.length (assertStart (hwProgram .reseedExt s)) := by
    unfold pollDone pollField
    rw [hstart, hlen]
  refine (fun ⟨hfail, hport, hrest⟩ => ⟨hfail, hardwareReseed_keep s, hport, hrest⟩ : _ ∧ _ ∧ _ → _) ?_
  unfold hardwareReseed
  rw [hdone, hpoll, hstart]
  exact ⟨rfl, rfl, rfl⟩

/-- A reseed in DRNG mode ends as its hardware reseed does (R165). -/
theorem reseedCore_drng_eq (seed : List Byte) (m : BitVec 4) {s : State} (hm : s.inst.mode = .drng) :
    reseedCore (some seed) m s = hardwareReseed (deliverSeed seed (beginReseed m s)) := by
  have hmode : (beginReseed m s).inst.mode = .drng := hm
  unfold reseedCore seedMaterial
  simp only [hmode, Option.getD_some]

/-! ## Inside INSTANTIATE (R156) -/

/-- The configured and reset machine, from which the internal reseed runs. -/
theorem configured_record {s : State} {mode : Mode} {pr dfdis : Bool} {mul : BitVec 4} {seedp persp : Bool} {a0 : HostAddr}
    (hmap : MapOk s.params.map) (hzero : s.inst = Instance.zero) :
    configured (instConfigOfRecord s.mem (modeBits mode) pr dfdis mul seedp persp a0) s.beginCommand =
      ({ s with
          inst := configuredInst .uninitialized mode s.mem pr dfdis mul seedp persp a0
          port := Port.zeroed 0 (Config.coreOutputAfterReset s.resetCount)
          resetCount := s.resetCount + 1 } : State).beginCommand.over
        (hostReads s.mem dfdis mul seedp persp a0 ++ resetEvents s.params).reverse .none := by
  rw [configured_eq (s := s.beginCommand) _ hzero hmap.assert, storedInst_record (mode := mode) (by cases mode <;> rfl)]
  simp [State.beginCommand, State.over, instConfigOfRecord, lifeReads_eq, storeReads_eq, hostReads]

/-- `INSTANTIATE` in DRNG and HRNG modes is the reseed of the configured and reset machine (R152 step 7). -/
theorem exec_instantiate_reseeds {s : State} {mode : Mode} {dfdis : Bool} {mul : BitVec 4} {seedp : Bool} {a0 : HostAddr}
    (hmap : MapOk s.params.map) (hzero : s.inst = Instance.zero) (ha : a0 ≠ nullAddr) (hmin : 1 ≤ hostSeedLife s.mem a0)
    (hmax : hostSeedLife s.mem a0 ≤ 2 ^ 48) (hmul : mulLegal dfdis mul = true)
    (hmode : (mode = .drng ∧ seedp = true) ∨ (mode = .hrng ∧ seedp = false)) (pr persp : Bool) :
    exec (.instantiate (modeBits mode) pr dfdis mul seedp persp a0) s =
      .next
        (orRaise
          (reseedCore (if seedp then some (hostSeed s.mem a0 (entropySizeFor dfdis mul)) else none) mul
            (({ s with
                inst := configuredInst .uninitialized mode s.mem pr dfdis mul seedp persp a0
                port := Port.zeroed 0 (Config.coreOutputAfterReset s.resetCount)
                resetCount := s.resetCount + 1 } : State).beginCommand.over
              (hostReads s.mem dfdis mul seedp persp a0 ++ resetEvents s.params).reverse .none))
          fun t => (t.setRunState .healthy).succeed).2 := by
  have hvalid := validConfig_reseeds hmode hmin hmax hmul pr persp (a0 := a0) (m := s.mem)
  have hconf := configured_record (mode := mode) (pr := pr) (dfdis := dfdis) (mul := mul) (seedp := seedp) (persp := persp)
    (a0 := a0) hmap hzero
  have hseed : storedSeed (storedInst (instConfigOfRecord s.mem (modeBits mode) pr dfdis mul seedp persp a0)) =
      if seedp then some (hostSeed s.mem a0 (entropySizeFor dfdis mul)) else none := by
    refine storedSeed_storedInst hmul fun b hb => ?_
    cases seedp
    · cases hb
    · cases hb
      exact hostSeed_length ..
  rw [storedInst_record (mode := mode) (by cases mode <;> rfl)] at hseed
  rw [exec_instantiate _ pr dfdis mul seedp persp ha,
    opInstantiate_valid (s := s.beginCommand) (congrArg Instance.state hzero) (validate_eq_none_iff.2 ⟨_, hvalid⟩), hconf,
    finishInstantiate_reseeds]
  · simp only [State.over_inst]
    rw [show ∀ t : State, t.beginCommand.inst = t.inst from fun _ => rfl, hseed]
    rfl
  · obtain ⟨rfl, -⟩ | ⟨rfl, -⟩ := hmode <;> simp [State.beginCommand, configuredInst]

/-- The reseed inside `INSTANTIATE` in DRNG mode fails at CERTF or at DONE (R169). -/
theorem reseedCore_drng_stuck {s : State} {seed : List Byte} {m : BitVec 4} {vs : List Word} {v : Word} {rest : List Word}
    {code : BitVec 8} (hmode : s.inst.mode = .drng) (hmap : MapOk s.params.map) (hh : s.held = false)
    (hscript : s.script = vs ++ v :: rest)
    (hcase : (∃ done, vs = [done] ∧ done &&& s.params.map.statusDone = s.params.map.statusDone ∧
        v &&& s.params.map.statusCertf ≠ 0 ∧ code = 0x09) ∨
      (NeverShows s.params s.params.map.statusDone s.params.map.statusDone (vs ++ [v]) ∧ code = 0x07 ∧
        vs.length = pollSleeps s.params.tReseedUs s.params.pollSleepUs)) :
    ∃ e, (reseedCore (some seed) m s).1 = some e ∧ ReseedFailure e code .error ∧
      ReseedStuck (deliverSeed seed (beginReseed m s)) v rest (reseedCore (some seed) m s).2 := by
  have hdeliver := deliverSeed_released seed (s := beginReseed m s) hh
  rw [reseedCore_drng_eq seed m hmode]
  obtain ⟨done, rfl, hdone, hcertf, rfl⟩ | ⟨hnever, rfl, hlen⟩ := hcase
  · obtain ⟨hfail, hstuck⟩ := hardwareReseed_certf (s := deliverSeed seed (beginReseed m s)) (rest := rest)
      (by rw [hdeliver]; exact hmap) (by rw [hdeliver]; exact hh) (by rw [hdeliver]; exact hscript)
      (by rw [hdeliver]; exact hdone) (by rw [hdeliver]; exact hcertf)
    exact ⟨_, hfail, .inr (.inr (.inr ⟨rfl, rfl, rfl⟩)), hstuck⟩
  · obtain ⟨hfail, hstuck⟩ := hardwareReseed_timeout (s := deliverSeed seed (beginReseed m s)) (vs := vs) (rest := rest)
      (by rw [hdeliver]; exact hmap) (by rw [hdeliver]; exact hh) (by rw [hdeliver]; exact hscript)
      (by rw [hdeliver]; exact hnever) (by rw [hdeliver]; exact hlen)
    exact ⟨_, hfail, .inr (.inr (.inl ⟨rfl, rfl, rfl⟩)), hstuck⟩

/-- Settles O45: the command is the reseed from the configured machine, over the events of the steps before. -/
theorem instantiateReseedFailure : Obligations.InstantiateReseedFailure := by
  rintro s mode pr dfdis mul seedp persp a0 i seed hmap hzero ha hmin hmax hmul hmode rfl rfl
  have hexec := exec_instantiate_reseeds hmap hzero ha hmin hmax hmul hmode pr persp
  refine ⟨⟨Config.coreOutputAfterReset s.resetCount, fun c e code st hc hret hf => ⟨?_, ?_⟩⟩,
    fun vs v rest code hdrng _ hscript hcase => ?_⟩
  · rw [hexec, orRaise_reseedCore_failed hc hret hf]
  · obtain ⟨-, rfl⟩ := reseedCore_of_exec hc hret
    exact (reseedCore_outcome _ mul _).inst
  · obtain rfl : seedp = true := by simpa [hdrng] using hmode
    subst hdrng
    obtain ⟨u, hu⟩ : ∃ u : State, u =
        ({ s with
            inst := configuredInst .uninitialized .drng s.mem pr dfdis mul true persp a0
            port := Port.zeroed 0 (Config.coreOutputAfterReset s.resetCount)
            resetCount := s.resetCount + 1 } : State).beginCommand := ⟨_, rfl⟩
    rw [← hu, over_reseedCore] at hexec
    have hinst : u.inst = configuredInst .uninitialized .drng s.mem pr dfdis mul true persp a0 := by rw [hu]; rfl
    have hparams : u.params = s.params := by rw [hu]; rfl
    have hheld : u.held = false := by rw [hu]; simp [State.held, Port.zeroed, State.beginCommand]
    obtain ⟨e, hfail, hf, hstuck⟩ := reseedCore_drng_stuck (s := u) (m := mul) (code := code)
      (seed := hostSeed s.mem a0 (entropySizeFor dfdis mul)) (by rw [hinst]; rfl) (by rw [hparams]; exact hmap) hheld
      (by rw [hu]; exact hscript) (by rw [hparams]; exact hcase)
    obtain ⟨rfl, hraised⟩ := hf.raised .uninitialized
    obtain ⟨hframe, hport, hrest⟩ := hstuck
    rw [deliverSeed_released _ (by exact hheld)] at hframe hport
    have hbegin : (beginReseed mul u).inst = configuredInst .uninitialized .drng s.mem pr dfdis mul true persp a0 := by
      simp only [beginReseed, hinst]
      rfl
    rw [if_pos rfl, orRaise_fail (by exact hfail)] at hexec
    refine ⟨_, hexec, ?_, rfl, ?_, ?_, ?_, ?_, hrest, ?_⟩
    · simp only [State.raise, State.over_inst, hframe.inst, hbegin]
      rw [show (configuredInst .uninitialized .drng s.mem pr dfdis mul true persp a0).state = .uninitialized from rfl, hraised]
    · simp [State.raise, hport, beginReseed, hparams]
    · simp [State.raise, hport, beginReseed, hparams]
    · exact (State.held_congr hframe.reset hframe.params).trans hheld
    · exact hframe.mem.trans (by rw [hu]; rfl)
    · simp only [State.raise, State.over_port, hport, hbegin]

end Sys2Proof.Machine
end

section
/-! `UNINSTANTIATE` (40_core_operations.md R180), `REINSTANTIATE` (30_encoding.md R125) and the self-tests
(43_self_test.md), put together from the core operations. -/

namespace Sys2Proof.Machine

/-! ## UNINSTANTIATE (R180) -/

/-- Settles O56, by the whole next state of the operation. -/
theorem uninstantiateZeroesEverything : Obligations.UninstantiateZeroesEverything := by
  intro s hmap hs
  refine ⟨Config.coreOutputAfterReset s.resetCount, ?_, ?_⟩
  · rw [exec_uninstantiate, opUninstantiate_eq (s := s.beginCommand) hs hmap.assert, State.beginCommand_log, List.append_nil]
    rfl
  · rw [accessCount_reverse, accessCount_append, accessCount_zeroizeEvents]
    rfl

/-- The state in which `UNINSTANTIATE` leaves the machine returns nothing (entry 6). -/
theorem opUninstantiate_ret (s : State) : (opUninstantiate s.beginCommand).2.ret = .none := by
  exact congrArg (·.2.ret) (over_opUninstantiate (l := []) (x := .none) s.beginCommand)

/-! ## REINSTANTIATE (30_encoding.md R125) -/

theorem exec_reinstantiate_malformed (mode : BitVec 2) (pr dfdis : Bool) (mul : BitVec 4) (seedp persp : Bool) (s : State) :
    exec (.reinstantiate mode pr dfdis mul seedp persp nullAddr) s =
      .next (opUninstantiate s.beginCommand).2.refuseMalformed := by
  change execReinstantiate mode pr dfdis mul seedp persp nullAddr s = _
  unfold execReinstantiate
  exact if_pos rfl

theorem exec_instantiate_malformed (mode : BitVec 2) (pr dfdis : Bool) (mul : BitVec 4) (seedp persp : Bool) (s : State) :
    exec (.instantiate mode pr dfdis mul seedp persp nullAddr) s = .next s.beginCommand.refuseMalformed := by
  change execInstantiate mode pr dfdis mul seedp persp nullAddr s = _
  unfold execInstantiate
  exact if_pos rfl

theorem exec_reinstantiate (mode : BitVec 2) (pr dfdis : Bool) (mul : BitVec 4) (seedp persp : Bool) {a0 : HostAddr}
    (ha : a0 ≠ nullAddr) (s : State) :
    exec (.reinstantiate mode pr dfdis mul seedp persp a0) s =
      .next (opInstantiate
        (instConfigOfRecord (opUninstantiate s.beginCommand).2.mem mode pr dfdis mul seedp persp a0)
        (opUninstantiate s.beginCommand).2).2 := if_neg (by simpa [Instr.lacksOperand] using ha)

/-- `INSTANTIATE` returns nothing (entry 6). -/
theorem opInstantiate_ret (c : InstConfig) (s : State) : (opInstantiate c s.beginCommand).2.ret = .none := by
  exact congrArg (·.2.ret) (over_opInstantiate (l := []) (x := .none) c s.beginCommand)

/-- Settles O60: the second command does not look at what the first one logged. -/
theorem reinstantiateIsBothInOrder : Obligations.ReinstantiateIsBothInOrder := by
  intro s mode pr dfdis mul seedp persp a0
  have ht : (opUninstantiate s.beginCommand).2 =
      (opUninstantiate s.beginCommand).2.beginCommand.over (opUninstantiate s.beginCommand).2.log .none := by
    rw [← opUninstantiate_ret s]
    rfl
  by_cases ha : a0 = nullAddr
  · subst ha
    refine ⟨_, _, exec_uninstantiate s, exec_instantiate_malformed mode pr dfdis mul seedp persp _, ?_⟩
    rw [exec_reinstantiate_malformed]
    exact congrArg (fun u : State => Host.Outcome.next u.refuseMalformed) ht
  · refine ⟨_, _, exec_uninstantiate s, exec_instantiate mode pr dfdis mul seedp persp ha _, ?_⟩
    rw [exec_reinstantiate mode pr dfdis mul seedp persp ha]
    have hover := over_opInstantiate (l := (opUninstantiate s.beginCommand).2.log) (x := .none)
      (instConfigOfRecord (opUninstantiate s.beginCommand).2.mem mode pr dfdis mul seedp persp a0)
      (opUninstantiate s.beginCommand).2.beginCommand
    rw [← ht] at hover
    rw [hover, State.over, opInstantiate_ret]

/-- Settles O59: the way back leaves the zero registers, from which a PTRNG configuration runs. -/
theorem reinstantiateStartsAfresh : Obligations.ReinstantiateStartsAfresh := by
  intro s dfdis mul a0 hmap hs ha hlife hmul
  refine ⟨Config.coreOutputAfterReset (s.resetCount + 1), ?_⟩
  have hfirst := opUninstantiate_eq (s := s.beginCommand) hs hmap.assert
  have hmem : (opUninstantiate s.beginCommand).2.mem = s.mem := mem_opUninstantiate _
  rw [exec_reinstantiate 2 false dfdis mul false false ha, hmem,
    opInstantiate_ptrng (s := (opUninstantiate s.beginCommand).2) (validConfig_ptrng hlife hmul) (by rw [hfirst])
      (by rw [hfirst]; exact hmap.assert), storedInst_record (mode := .ptrng) rfl, hfirst]
  simp [State.beginCommand, instConfigOfRecord, lifeReads_eq, storeReads_eq, hostStoreReads, configuredInst]

/-! ## Accesses of the traces of 44_port_sequences.md R301 -/

theorem accessCount_wordEvents_scratch (p : Params) (off : Nat) (ws : List Word) :
    accessCount (wordEvents p .scratch off ws) = ws.length := by
  induction ws generalizing off with
  | nil => rfl
  | cons w ws ih =>
    have hcons : wordEvents p .scratch off (w :: ws) = .rd (portAddr p .coreOutput) w :: wordEvents p .scratch (off + 4) ws := rfl
    rw [hcons, accessCount_cons, ih]
    simp [Event.isAccess]

/-- A burst of HRNG or DRNG mode takes six accesses (R211). -/
theorem accessCount_burstEvents {m : Mode} (hm : m ≠ .ptrng) (p : Params) (off : Nat) (bs : List Burst) :
    accessCount (burstEvents p m .scratch off bs) = 6 * bs.length := by
  induction bs generalizing off with
  | nil => rfl
  | cons b bs ih =>
    have hburst : accessCount (b.events p m .scratch off) = 6 := by
      cases m
      · simp [Burst.events, accessCount_cons, accessCount_wordEvents_scratch, Event.isAccess]
      · simp [Burst.events, accessCount_cons, accessCount_wordEvents_scratch, Event.isAccess]
      · exact absurd rfl hm
    rw [burstEvents, accessCount_append, hburst, ih, List.length_cons]
    omega

theorem accessCount_collectEvents {m : Mode} (hm : m ≠ .ptrng) (p : Params) (sel : HwSel) (bs : List Burst) :
    accessCount (collectEvents p m sel .scratch bs) = 3 + 6 * bs.length := by
  rw [collectEvents, accessCount_append, accessCount_burstEvents hm]
  rfl

theorem accessCount_groupEvents (p : Params) (g : RegGroup) (b : Vector Byte 48) : accessCount (groupEvents p g b) = 12 := by
  rw [groupEvents, accessCount_writes]
  rfl

/-- With the DF enabled only `EXT_SEED` is written (R168). -/
theorem accessCount_deliveryEvents (p : Params) {i : Instance} (hd : i.dfDisabled = false) (mat : List Byte) :
    accessCount (deliveryEvents p i mat) = 12 := by
  simp [deliveryEvents, hd, accessCount_groupEvents]

theorem accessCount_resetEvents (p : Params) : accessCount (resetEvents p) = 2 := rfl

theorem accessCount_reseedEvents (p : Params) (done certf : Word) : accessCount (reseedEvents p done certf) = 7 := rfl

/-! ## RUNKAT (R271, R273) -/

theorem validConfig_kat {p : Params} (hmin : 2 ≤ p.katMul.toNat) (hmax : p.katMul.toNat ≤ 9) (hlife : 1 ≤ p.katLife.toNat)
    (hlife' : p.katLife.toNat ≤ 2 ^ 48) : ValidConfig (katConfig p) .drng where
  names := rfl
  ptrng h := by cases h
  seed _ := by simp [katConfig]
  life _ := ⟨hlife, hlife'⟩
  multiplier := by simp [katConfig, mulLegal, Config.dfLenMulMin, Config.dfLenMulMax, hmin, hmax]

theorem katConfig_seed_length {p : Params} (hmax : p.katMul.toNat ≤ 9) :
    (p.katSeed.toList.take (entropySizeFor false p.katMul)).length = entropySizeFor false p.katMul := by
  simp [entropySizeFor]
  omega

/-- The machine after the first step of `RUNKAT` (R271): configured and reseeded. -/
def katInstantiated (done certf : Word) (rest : List Word) (s : State) : State :=
  { s with
    inst := { storedInst (katConfig s.params) with state := .healthy }
    port :=
      reseededPort s.params (storedInst (katConfig s.params))
        (s.params.katSeed.toList.take (entropySizeFor false s.params.katMul)) certf
        (Port.zeroed 0 (Config.coreOutputAfterReset s.resetCount))
    result := 0x00
    script := rest
    drawCount := s.drawCount + 2
    resetCount := s.resetCount + 1
    log :=
      (resetEvents s.params ++
        deliveryEvents s.params (storedInst (katConfig s.params))
          (s.params.katSeed.toList.take (entropySizeFor false s.params.katMul)) ++
        reseedEvents s.params done certf).reverse ++ s.log }

theorem opInstantiate_kat {s : State} {done certf : Word} {rest : List Word} (hmap : MapOk s.params.map)
    (hzero : s.inst = Instance.zero) (hmin : 2 ≤ s.params.katMul.toNat) (hmax : s.params.katMul.toNat ≤ 9)
    (hlife : 1 ≤ s.params.katLife.toNat) (hlife' : s.params.katLife.toNat ≤ 2 ^ 48) (hd : ReseedDone s.params done certf)
    (hscript : s.script = done :: certf :: rest) :
    opInstantiate (katConfig s.params) s = (.success, katInstantiated done certf rest s) :=
  opInstantiate_drng (validConfig_kat hmin hmax hlife hlife') rfl (katConfig_seed_length hmax) hzero hmap hd hscript

/-- The machine after the first two steps of `RUNKAT` (R271): configured, reseeded, 32 bytes generated. -/
def katGenerated (done certf : Word) (b0 b1 : Burst) (rest : List Word) (s : State) : State :=
  { s with
    inst := { countedInst (storedInst (katConfig s.params)) with state := .healthy, win := b1.words }
    port :=
      { reseededPort s.params (storedInst (katConfig s.params))
          (s.params.katSeed.toList.take (entropySizeFor false s.params.katMul)) certf
          (Port.zeroed 0 (Config.coreOutputAfterReset s.resetCount)) with
        ctrl := started s.params.map .prngGen
        status := shown s.params b1.dtf
        coreOutput := b1.words[3] }
    result := 0x00
    script := rest
    drawCount := s.drawCount + 14
    resetCount := s.resetCount + 1
    log :=
      (resetEvents s.params ++
        deliveryEvents s.params (storedInst (katConfig s.params))
          (s.params.katSeed.toList.take (entropySizeFor false s.params.katMul)) ++
        reseedEvents s.params done certf ++ collectEvents s.params .drng .prngGen .scratch [b0, b1]).reverse ++ s.log }

theorem accessCount_katGenerated (done certf : Word) (b0 b1 : Burst) (rest : List Word) {s : State} (h : s.log = []) :
    accessCount (katGenerated done certf b0 b1 rest s).log = 21 + 15 := by
  simp only [katGenerated, h, List.append_nil, accessCount_reverse, accessCount_append, accessCount_resetEvents,
    accessCount_reseedEvents]
  rw [accessCount_deliveryEvents _ rfl, accessCount_collectEvents (by simp)]
  rfl

/-- `RUNKAT` once the block is configured and has generated (R271). -/
theorem opRunKat_of_generated {s t u : State} {b : List Byte} (hinst : opInstantiate (katConfig s.params) s = (.success, t))
    (hgen : opGenerate .scratch 32 false t = ⟨.success, b, u⟩) :
    opRunKat s =
      if b ≠ s.params.katExpected.toList then u.raise .errKatMismatch else opUninstantiate u := by
  unfold opRunKat
  simp only [hinst, hgen, ne_eq, not_true_eq_false, if_false]

/-- `RUNKAT` up to the comparison (R271). -/
theorem opRunKat_compares {s : State} {done certf : Word} {b0 b1 : Burst} {rest : List Word}
    (hmap : MapOk s.params.map) (hzero : s.inst = Instance.zero) (hmin : 2 ≤ s.params.katMul.toNat)
    (hmax : s.params.katMul.toNat ≤ 9) (hlife : 1 ≤ s.params.katLife.toNat) (hlife' : s.params.katLife.toNat ≤ 2 ^ 48)
    (hd : ReseedDone s.params done certf) (hg : ∀ b ∈ [b0, b1], b.Good s.params .drng) (hne : b0.words ≠ b1.words)
    (hscript : s.script = done :: certf :: burstDraws .drng [b0, b1] ++ rest) :
    opRunKat s =
      if burstBytes [b0, b1] ≠ s.params.katExpected.toList then (katGenerated done certf b0 b1 rest s).raise .errKatMismatch
      else opUninstantiate (katGenerated done certf b0 b1 rest s) := by
  have hinst := opInstantiate_kat hmap hzero hmin hmax hlife hlife' hd (rest := burstDraws .drng [b0, b1] ++ rest) hscript
  obtain ⟨t, ht⟩ : ∃ t, t = katInstantiated done certf (burstDraws .drng [b0, b1] ++ rest) s := ⟨_, rfl⟩
  rw [← ht] at hinst
  have hti : t.inst = { storedInst (katConfig s.params) with state := .healthy } := by rw [ht]; rfl
  have htp : t.params = s.params := by rw [ht]; rfl
  have hmode : t.inst.mode = .drng := by rw [hti]; rfl
  have hseedLife : t.inst.seedLife.toNat = s.params.katLife.toNat := by
    rw [hti]
    simp only [storedInst, katConfig, BitVec.toNat_setWidth]
    omega
  have hcalls : t.inst.generateCallsSinceReseed.toNat = 0 := by rw [hti]; rfl
  have hpolicy : generatePolicy false t = (none, t) :=
    generatePolicy_within (by simp [hmode]) (by simp) (by simp [hmode]) fun _ => by
      rw [hseedLife, hcalls]
      omega
  have houtput := generateOutput_twoBursts (s := t) (b0 := b0) (b1 := b1) (rest := rest) (by simp [hmode])
    (by rw [htp]; exact hmap) (by rw [ht]; simp [katInstantiated, State.held, reseededPort, Port.zeroed]) (by rw [hmode, htp]; exact hg) hne
    (by rw [hmode, ht]; rfl) .scratch
  rw [hmode] at houtput
  refine opRunKat_of_generated hinst ?_
  rw [opGenerate_outputs (by rw [hti]) (by rw [generateReject_eq_none_iff]; simp) (by rw [hpolicy]), hpolicy, houtput, ht]
  simp [generateEnd, countGenerate, State.succeed, statusCode, katGenerated, katInstantiated, countedInst, keptBytes, Dst.isNull, putMem,
    katConfig, Nat.add_assoc]

/-- Settles O57: the comparison decides between the way back and the mismatch. -/
theorem runKatComparesTheOutput : Obligations.RunKatComparesTheOutput := by
  intro s done certf b0 b1 rest hmap hzero hmin hmax hlife hlife' hd hg0 hg1 hne hscript
  have hrun : opRunKat s.beginCommand =
      if burstBytes [b0, b1] ≠ s.params.katExpected.toList then
        (katGenerated done certf b0 b1 rest s.beginCommand).raise .errKatMismatch
      else opUninstantiate (katGenerated done certf b0 b1 rest s.beginCommand) :=
    opRunKat_compares (s := s.beginCommand) hmap hzero hmin hmax hlife hlife' hd (by simp [hg0, hg1, State.beginCommand]) hne
      hscript
  have hcount := accessCount_katGenerated done certf b0 b1 rest (s := s.beginCommand) rfl
  rw [exec_runKat, hrun]
  refine ⟨fun heq => ?_, fun hdiff => ?_⟩
  · rw [if_neg (not_not_intro heq), opUninstantiate_eq (by simp [katGenerated]) (by exact hmap.assert)]
    refine ⟨Config.coreOutputAfterReset (s.resetCount + 1), _, rfl, ?_⟩
    rw [accessCount_append, hcount, accessCount_reverse, accessCount_append, accessCount_zeroizeEvents]
    rfl
  · rw [if_pos hdiff]
    refine ⟨_, rfl, rfl, rfl, rfl, rfl, rfl, rfl, rfl, ?_, hcount⟩
    simp [State.held, State.raise, katGenerated, reseededPort, Port.zeroed]

/-! ## RUNHEALTHTEST (R275) -/

theorem validConfig_health {p : Params} (hlife : 1 ≤ p.healthSeedLife.toNat) (hlife' : p.healthSeedLife.toNat ≤ 2 ^ 48) :
    ValidConfig (healthConfig p) .hrng where
  names := rfl
  ptrng h := by cases h
  seed _ := by simp [healthConfig]
  life _ := ⟨hlife, hlife'⟩
  multiplier := rfl

theorem opRunHealthTest_of_instantiated {s t : State} (h : opInstantiate (healthConfig s.params) s = (.success, t)) :
    opRunHealthTest s = opUninstantiate t := by
  unfold opRunHealthTest
  simp only [h, ne_eq, not_true_eq_false, if_false]

theorem burstDraws_hrng_length (bs : List Burst) : (burstDraws .hrng bs).length = 6 * bs.length := by
  induction bs with
  | nil => rfl
  | cons b bs ih =>
    rw [burstDraws, List.flatMap_cons, List.length_append, ← burstDraws, ih, List.length_cons]
    simp only [Burst.draws, List.length_cons, Vector.length_toList]
    omega

/-- Settles O58: the way back from a machine whose configuration succeeded. -/
theorem runHealthTestPasses : Obligations.RunHealthTestPasses := by
  intro s bs done certf rest hmap hzero hlife hlife' hlen hg hr hf hd hscript
  have hinst := opInstantiate_hrng (s := s.beginCommand) (validConfig_health hlife hlife')
    (by rw [hlen]; rfl) hzero hmap hg hr hf hd hscript
  have hcount : accessCount
      (resetEvents s.params ++ collectEvents s.params .hrng .entropy .scratch bs ++
        deliveryEvents s.params (storedInst (healthConfig s.params)) (burstBytes bs) ++ reseedEvents s.params done certf) =
      5 + 6 * 8 + 12 + 7 := by
    rw [accessCount_append, accessCount_append, accessCount_append, accessCount_resetEvents, accessCount_reseedEvents,
      accessCount_deliveryEvents _ rfl, accessCount_collectEvents (by simp), hlen]
  rw [exec_runHealthTest, opRunHealthTest_of_instantiated hinst, opUninstantiate_eq (by simp) (by exact hmap.assert),
    burstDraws_hrng_length, hlen]
  refine ⟨Config.coreOutputAfterReset (s.resetCount + 1), _, rfl, ?_⟩
  rw [accessCount_append, accessCount_reverse, accessCount_append, accessCount_zeroizeEvents, accessCount_append,
    accessCount_reverse]
  exact congrArg (25 + ·) hcount

end Sys2Proof.Machine
end
